-- ==== Sys2Proof/Word.lean ====
section
/-! DEFINITION. The word types of the engine (spec/00_scope.md R16, spec/20_memory.md R87): every port and every memory moves
32-bit words; header index fields are 8 bits wide. -/

namespace Sys2Proof

/-- A 32-bit word; a binary32 value is held as its bit pattern (R16, R19). -/
abbrev Word := BitVec 32

/-- An 8-bit header field: an opcode, a line index, a matrix row or column, a selector, a channel number (R114, R116). -/
abbrev Byte := BitVec 8

end Sys2Proof
end

