-- ==== Sys2Proof/Syntax.lean ====
section
/-! DEFINITION. The operations of the engine: one constructor for each row of spec/opcode_table.json (26 control commands and
`PROC`), with the operands of the encoding rules R113 to R116 (spec/30_encoding.md). -/

namespace Sys2Proof

/-- The operations (spec/30_encoding.md R120). Index and selector operands are the 8-bit header fields as they stand; a float
operand is the 32 bits of its payload word (R114); a bulk operand is the list of its payload words, element 0 first (R115). -/
inductive Instr where
  | nop
  | init (order : Byte) (fs lowMs highMs : Word)
  | updord (newOrder selector : Byte)
  | upddly (targetMs : Word)
  | setdly (i : Byte) (ms : Word)
  | setdlys (ms : List Word)
  | setls (t f : Word)
  | seths (t f : Word)
  | updmod (depth rate : Word)
  | updmodl (i : Byte) (depth rate : Word)
  | setmix (w : Word)
  | settopo (selector : Byte)
  | setb (i : Byte) (v : Word)
  | setbs (v : List Word)
  | setc (i : Byte) (v : Word)
  | setcs (v : List Word)
  | setcell (r c : Byte) (v : Word)
  | setmat (m : List Word)
  | getb (i : Byte)
  | getbs
  | getc (i : Byte)
  | getcs
  | getdlys
  | getmat
  | getstat
  | clrerr
  | proc (ch : Byte) (x : Word)
deriving DecidableEq, Repr

end Sys2Proof
end

