-- ==== Sys2Proof/WellFormed.lean ====
section
/-! DEFINITION. Which terms of `Instr` an encoding exists for: a bulk command carries at most 4095 payload words, the largest
value of the 12-bit field LEN (spec/30_encoding.md R115). Every other operand fills its field. -/

namespace Sys2Proof

/-- R115: LEN is an unsigned 12-bit payload word count, 0..4095. -/
def bulkFits (ws : List Word) : Bool := decide (ws.length < 4096)

/-- The instruction can be encoded (spec/30_encoding.md R113 to R116). -/
def Instr.wf : Instr → Bool
  | .nop => true
  | .init _ _ _ _ => true
  | .updord _ _ => true
  | .upddly _ => true
  | .setdly _ _ => true
  | .setdlys ms => bulkFits ms
  | .setls _ _ => true
  | .seths _ _ => true
  | .updmod _ _ => true
  | .updmodl _ _ _ => true
  | .setmix _ => true
  | .settopo _ => true
  | .setb _ _ => true
  | .setbs v => bulkFits v
  | .setc _ _ => true
  | .setcs v => bulkFits v
  | .setcell _ _ _ => true
  | .setmat m => bulkFits m
  | .getb _ => true
  | .getbs => true
  | .getc _ => true
  | .getcs => true
  | .getdlys => true
  | .getmat => true
  | .getstat => true
  | .clrerr => true
  | .proc _ _ => true

end Sys2Proof
end

