-- ==== Sys2Proof/Decode.lean ====
section
/-! DEFINITION. The packet decoder and the encoder (spec/30_encoding.md R112 to R125). The decoder is total: every list of words is
an incomplete packet, a command or an illegal packet, whatever the state of the engine (R112, R124). -/

namespace Sys2Proof

/-! ### Header fields (R112, R114 to R116) -/

/-- R112: header bits 31:24. -/
def opcOf (h : Word) : Byte := h.extractLsb' 24 8

/-- R114: header bits 23:16. -/
def fieldA (h : Word) : Byte := h.extractLsb' 16 8

/-- R114: header bits 15:8. -/
def fieldB (h : Word) : Byte := h.extractLsb' 8 8

/-- R115: header bits 11:0. -/
def lenOf (h : Word) : Nat := (h.extractLsb' 0 12).toNat

/-! ### The opcode map (R120) -/

/-- The packet formats of the control port: Z (R113), I with its payload count P (R114), L (R115). -/
inductive Fmt where
  | z
  | i (payload : Nat)
  | l
deriving DecidableEq, Repr

/-- One row of the opcode map R120: opcode, format, the header bits it fixes (`pattern` under `mask`), and the command a header
and its payload stand for. -/
structure Row where
  opc : Byte
  fmt : Fmt
  pattern : Word
  mask : Word
  build : Word → List Word → Option Instr

/-- A command with no payload word. -/
def noPayload (k : Word → Instr) : Word → List Word → Option Instr
  | h, [] => some (k h)
  | _, _ :: _ => none

/-- A command with one payload word. -/
def onePayload (k : Word → Word → Instr) : Word → List Word → Option Instr
  | h, [a] => some (k h a)
  | _, _ => none

/-- A command with two payload words. -/
def twoPayload (k : Word → Word → Word → Instr) : Word → List Word → Option Instr
  | h, [a, b] => some (k h a b)
  | _, _ => none

/-- A command with three payload words. -/
def threePayload (k : Word → Word → Word → Word → Instr) : Word → List Word → Option Instr
  | h, [a, b, c] => some (k h a b c)
  | _, _ => none

/-- A bulk command: the payload is its operand. -/
def bulkPayload (k : List Word → Instr) : Word → List Word → Option Instr
  | _, ws => some (k ws)

/-- The opcode map (R120). -/
def opcodeTable : List Row := [
  ⟨0x00#8, .z,   0x00000000#32, 0xFFFFFFFF#32, noPayload fun _ => .nop⟩,
  ⟨0x01#8, .i 3, 0x01000000#32, 0xFF00FFFF#32, threePayload fun h a b c => .init (fieldA h) a b c⟩,
  ⟨0x02#8, .i 0, 0x02000000#32, 0xFF0000FF#32, noPayload fun h => .updord (fieldA h) (fieldB h)⟩,
  ⟨0x03#8, .i 1, 0x03000000#32, 0xFFFFFFFF#32, onePayload fun _ a => .upddly a⟩,
  ⟨0x04#8, .i 1, 0x04000000#32, 0xFF00FFFF#32, onePayload fun h a => .setdly (fieldA h) a⟩,
  ⟨0x05#8, .l,   0x05000000#32, 0xFFFFF000#32, bulkPayload .setdlys⟩,
  ⟨0x06#8, .i 2, 0x06000000#32, 0xFFFFFFFF#32, twoPayload fun _ a b => .setls a b⟩,
  ⟨0x07#8, .i 2, 0x07000000#32, 0xFFFFFFFF#32, twoPayload fun _ a b => .seths a b⟩,
  ⟨0x08#8, .i 2, 0x08000000#32, 0xFFFFFFFF#32, twoPayload fun _ a b => .updmod a b⟩,
  ⟨0x09#8, .i 2, 0x09000000#32, 0xFF00FFFF#32, twoPayload fun h a b => .updmodl (fieldA h) a b⟩,
  ⟨0x0A#8, .i 1, 0x0A000000#32, 0xFFFFFFFF#32, onePayload fun _ a => .setmix a⟩,
  ⟨0x0B#8, .i 0, 0x0B000000#32, 0xFFFF00FF#32, noPayload fun h => .settopo (fieldB h)⟩,
  ⟨0x10#8, .i 1, 0x10000000#32, 0xFF00FFFF#32, onePayload fun h a => .setb (fieldA h) a⟩,
  ⟨0x11#8, .l,   0x11000000#32, 0xFFFFF000#32, bulkPayload .setbs⟩,
  ⟨0x12#8, .i 1, 0x12000000#32, 0xFF00FFFF#32, onePayload fun h a => .setc (fieldA h) a⟩,
  ⟨0x13#8, .l,   0x13000000#32, 0xFFFFF000#32, bulkPayload .setcs⟩,
  ⟨0x14#8, .i 1, 0x14000000#32, 0xFF0000FF#32, onePayload fun h a => .setcell (fieldA h) (fieldB h) a⟩,
  ⟨0x15#8, .l,   0x15000000#32, 0xFFFFF000#32, bulkPayload .setmat⟩,
  ⟨0x20#8, .i 0, 0x20000000#32, 0xFF00FFFF#32, noPayload fun h => .getb (fieldA h)⟩,
  ⟨0x21#8, .z,   0x21000000#32, 0xFFFFFFFF#32, noPayload fun _ => .getbs⟩,
  ⟨0x22#8, .i 0, 0x22000000#32, 0xFF00FFFF#32, noPayload fun h => .getc (fieldA h)⟩,
  ⟨0x23#8, .z,   0x23000000#32, 0xFFFFFFFF#32, noPayload fun _ => .getcs⟩,
  ⟨0x24#8, .z,   0x24000000#32, 0xFFFFFFFF#32, noPayload fun _ => .getdlys⟩,
  ⟨0x25#8, .z,   0x25000000#32, 0xFFFFFFFF#32, noPayload fun _ => .getmat⟩,
  ⟨0x26#8, .z,   0x26000000#32, 0xFFFFFFFF#32, noPayload fun _ => .getstat⟩,
  ⟨0x27#8, .z,   0x27000000#32, 0xFFFFFFFF#32, noPayload fun _ => .clrerr⟩]

/-- The row of an opcode, if the opcode is in the map (R120, R121). -/
def rowOf (opc : Byte) : Option Row := opcodeTable.find? fun r => r.opc == opc

/-- R112: the number of payload words, told from the header alone. -/
def Row.payloadLen (r : Row) (h : Word) : Nat :=
  match r.fmt with
  | .z => 0
  | .i p => p
  | .l => lenOf h

/-- The number of payload words that follow a header: R112 for a known opcode, none for an unknown one (R121). -/
def payloadLen (h : Word) : Nat :=
  match rowOf (opcOf h) with
  | some r => r.payloadLen h
  | none => 0

/-! ### The decoder of the control port -/

/-- Why a packet is illegal. -/
inductive IllegalReason where
  /-- R121: the opcode is not in the map. -/
  | unknownOpcode
  /-- R122: a must-be-zero field of a known opcode is not zero. -/
  | reservedField
deriving DecidableEq, Repr

/-- What the head of the command queue is. -/
inductive Decoded where
  /-- R112, R124: the last word of the packet has not been received. -/
  | incomplete
  /-- A legal packet, and the words that follow it. -/
  | command (i : Instr) (rest : List Word)
  /-- An illegal packet (its opcode is echoed by the response, R118), and the words that follow it. -/
  | illegal (opc : Byte) (why : IllegalReason) (rest : List Word)
deriving DecidableEq, Repr

/-- Decodes the packet at the head of the command queue (R112, R121, R122). -/
def decodePacket : List Word → Decoded
  | [] => .incomplete
  | h :: ws =>
    match rowOf (opcOf h) with
    | none => .illegal (opcOf h) .unknownOpcode ws
    | some r =>
      if ws.length < r.payloadLen h then .incomplete
      else
        let rest := ws.drop (r.payloadLen h)
        if h &&& r.mask = r.pattern then
          match r.build h (ws.take (r.payloadLen h)) with
          | some i => .command i rest
          | none => .illegal (opcOf h) .reservedField rest
        else .illegal (opcOf h) .reservedField rest

/-- R116: the audio request format. Every 40-bit value is a legal `PROC` (R125). -/
def decodeAudio (req : BitVec 40) : Instr := .proc (req.extractLsb' 32 8) (req.extractLsb' 0 32)

/-! ### The encoder -/

/-- What the host sends for one operation: a packet on the control port or a request on the audio port (R110). -/
inductive Request where
  | packet (words : List Word)
  | audio (req : BitVec 40)
deriving DecidableEq, Repr

/-- R113. -/
def headerZ (opc : Byte) : Word := opc ++ 0#24

/-- R114. -/
def headerI (opc a b : Byte) : Word := opc ++ a ++ b ++ 0#8

/-- R115. -/
def headerL (opc : Byte) (ws : List Word) : Word := opc ++ 0#12 ++ BitVec.ofNat 12 ws.length

/-- The words of an instruction (R113 to R116, R120). -/
def encode : Instr → Request
  | .nop => .packet [headerZ 0x00#8]
  | .init order fs lowMs highMs => .packet [headerI 0x01#8 order 0#8, fs, lowMs, highMs]
  | .updord newOrder selector => .packet [headerI 0x02#8 newOrder selector]
  | .upddly targetMs => .packet [headerI 0x03#8 0#8 0#8, targetMs]
  | .setdly i ms => .packet [headerI 0x04#8 i 0#8, ms]
  | .setdlys ms => .packet (headerL 0x05#8 ms :: ms)
  | .setls t f => .packet [headerI 0x06#8 0#8 0#8, t, f]
  | .seths t f => .packet [headerI 0x07#8 0#8 0#8, t, f]
  | .updmod depth rate => .packet [headerI 0x08#8 0#8 0#8, depth, rate]
  | .updmodl i depth rate => .packet [headerI 0x09#8 i 0#8, depth, rate]
  | .setmix w => .packet [headerI 0x0A#8 0#8 0#8, w]
  | .settopo selector => .packet [headerI 0x0B#8 0#8 selector]
  | .setb i v => .packet [headerI 0x10#8 i 0#8, v]
  | .setbs v => .packet (headerL 0x11#8 v :: v)
  | .setc i v => .packet [headerI 0x12#8 i 0#8, v]
  | .setcs v => .packet (headerL 0x13#8 v :: v)
  | .setcell r c v => .packet [headerI 0x14#8 r c, v]
  | .setmat m => .packet (headerL 0x15#8 m :: m)
  | .getb i => .packet [headerI 0x20#8 i 0#8]
  | .getbs => .packet [headerZ 0x21#8]
  | .getc i => .packet [headerI 0x22#8 i 0#8]
  | .getcs => .packet [headerZ 0x23#8]
  | .getdlys => .packet [headerZ 0x24#8]
  | .getmat => .packet [headerZ 0x25#8]
  | .getstat => .packet [headerZ 0x26#8]
  | .clrerr => .packet [headerZ 0x27#8]
  | .proc ch x => .audio (ch ++ x)

/-- The instruction a request stands for, when it holds exactly one. -/
def decodeRequest : Request → Option Instr
  | .packet ws =>
    match decodePacket ws with
    | .command i [] => some i
    | _ => none
  | .audio req => some (decodeAudio req)

/-! ### Words of the opcode table -/

/-- The packet whose bits are `w`: bit 0 is the least significant bit of the header, each payload word's bits count on from the
word before it, and the bits above those given are zero. -/
def packetImage (w : Nat) : List Word :=
  let h := BitVec.ofNat 32 w
  h :: (List.range (payloadLen h)).map fun k => BitVec.ofNat 32 (w >>> (32 * (k + 1)))

/-- The instruction the decoder reads from a row of spec/opcode_table.json: a 40-bit value is an audio request (R116), every other
width is a control packet. -/
def decodeTableWord (nbits w : Nat) : Option Instr :=
  if nbits = 40 then some (decodeAudio (BitVec.ofNat 40 w))
  else
    match decodePacket (packetImage w) with
    | .command i _ => some i
    | _ => none

end Sys2Proof
end

