-- ==== Sys2Proof/Config.lean ====
section
/-! DEFINITION. The configuration record CFG (spec/00_scope.md R7 to R15, spec/93_implementation_defined.md part 2) and the free
values: constants with no body, of which nothing can be proved but what the operations that use them impose. -/

namespace Sys2Proof

/-- A place in a run at which a free value is used: the epoch of the transaction, and before it the path of the operation inside
the transaction. Two operations of a run never share a site, so that each free value is a fresh draw (log 7). -/
abbrev Site := List Nat

/-- The interpolation kernel of `DL_pop` (spec/00_scope.md R10). -/
inductive Kernel where
  /-- Third-order Lagrange, four taps (R146). -/
  | lagrange3
  /-- Two taps (R147). -/
  | linear
deriving DecidableEq, Repr

/-- `CFG.NUM`, the numerics record (spec/00_scope.md R14, R20), as finite tables: operands and result. The sample type `F` is the
32-bit word, the only one the registers and packets of the spec have room for. An operation of the first seven that lists no result
for its operands has the IEEE 754 one, the default; as the operands are finitely many, some record stands for each choice of
functions (log 23). Of `tan`, `pow` and `sinTurns` an operand that is not listed gets the free value of `Config` below (log 8). -/
structure NumTable where
  add : List ((Word × Word) × Word)
  sub : List ((Word × Word) × Word)
  mul : List ((Word × Word) × Word)
  div : List ((Word × Word) × Word)
  sqrt : List (Word × Word)
  floor : List (Word × Word)
  u2f : List (Nat × Word)
  tan : List (Word × Word)
  pow : List ((Word × Word) × Word)
  sinTurns : List (Word × Word)
deriving DecidableEq, Repr

/-- R14, the default of `CFG.NUM`: no operation is replaced, no transcendental result fixed. -/
def NumTable.default : NumTable := ⟨[], [], [], [], [], [], [], [], [], []⟩

/-- R14, R19: the first seven functions are the IEEE 754 operations. -/
def NumTable.ieee (t : NumTable) : Bool :=
  t.add.isEmpty && t.sub.isEmpty && t.mul.isEmpty && t.div.isEmpty && t.sqrt.isEmpty && t.floor.isEmpty && t.u2f.isEmpty

/-- Coefficients (b0, b1, a1) of a filter (spec/10_state.md R46). -/
abbrev Coeffs := Word × Word × Word

/-- The operands (T, f, lsamp, fs) of `ShelfLow` and `ShelfHigh` (spec/41_shelving_filter.md R163, R164). -/
abbrev ShelfOperands := Word × Word × Word × Word

/-- `ShelfLow` and `ShelfHigh` as configuration functions (spec/41_shelving_filter.md R160), as finite tables over their reference
instances R163 and R164: operands that are not listed have the coefficients of those rules (log 24). -/
structure ShelfTable where
  low : List (ShelfOperands × Coeffs)
  high : List (ShelfOperands × Coeffs)
deriving DecidableEq, Repr

/-- R160: both functions are their reference instances. -/
def ShelfTable.reference : ShelfTable := ⟨[], []⟩

/-- The configuration record `CFG` (spec/00_scope.md R7 to R14). DESIGN CHOICE (log 1), safe: it is a field of the state that no
step changes, so that a statement about every state is one about every configuration. -/
structure Cfg where
  /-- R7: maximum network order, the number of lines. -/
  nmax : Nat
  /-- R8: the supported orders. -/
  orders : List Nat
  /-- R9: delay-line capacity in samples. -/
  cap : Nat
  /-- R10. -/
  kernel : Kernel
  /-- R11: ramp time in seconds, binary32. -/
  rampSec : Word
  /-- R12: overall output attenuation, binary32. -/
  outAtt : Word
  /-- R13: transition frequency of the fixed high shelf, binary32, Hz. -/
  fFixed : Word
  /-- R13: decay time of the fixed high shelf, binary32, seconds. -/
  tFixed : Word
  /-- R14, R20: the numerics record. -/
  num : NumTable
  /-- spec/41_shelving_filter.md R160: the shelf coefficient functions. -/
  shelf : ShelfTable
deriving DecidableEq, Repr

/-- R9: `CFG.BUFLEN`, the number of storage words per line. -/
def Cfg.buflen (c : Cfg) : Nat := c.cap + 3

/-- `CFG_REF`, the reference configuration: the defaults of R7 to R14 and the reference instances of R160. -/
def Cfg.ref : Cfg where
  nmax := 32
  orders := [1, 2, 4, 8, 16, 32]
  cap := 32765
  kernel := .lagrange3
  rampSec := 0x3D800000#32
  outAtt := 0x3F000000#32
  fFixed := 0x469DD000#32
  tFixed := 0x3F800000#32
  num := NumTable.default
  shelf := ShelfTable.reference

/-- Free value: sign and payload of the NaN an operation produces at a site (spec/00_scope.md R19, V3; log 7). -/
opaque Config.nanFree : Site → Word

/-- Free value: `NUM.tan` where no entry is fixed (R20, V4; log 8). -/
opaque Config.tanFree : Word → Word

/-- Free value: `NUM.pow` where no entry is fixed (R20, V4; log 8). -/
opaque Config.powFree : Word → Word → Word

/-- Free value: `NUM.sinTurns` where no entry is fixed (R20, V4; log 8). -/
opaque Config.sinFree : Word → Word

/-- Free value: a gain draw at a site, before the constraint of R15 (V1; log 10). -/
opaque Config.gainFree : Site → Word

/-- Free value: what word `k` of a memory holds after the hardware reset at a site (spec/10_state.md R60, R61, V2; log 11). -/
opaque Config.powerOnWord : Site → Nat → Word

/-- Free value: `f2n` of a value outside the domain R19 states (log 14). -/
opaque Config.f2nFree : Word → Nat

end Sys2Proof
end

