-- ==== Sys2Proof/Machine/State.lean ====
section
/-! DEFINITION. The architectural state of the engine as plain data (spec/10_state.md), its reset value (R70), and the reasons a
step can stop. Natural numbers stand for the unsigned integers of the spec, as spec/00_scope.md R26 allows; their ranges are part
of the invariant of Sys2Proof/Safety.lean. -/

namespace Sys2Proof.Machine

/-! ### Memories (spec/10_state.md R60, R61; spec/20_memory.md R80) -/

/-- What an unlisted word of a memory reads as. -/
inductive Fill where
  /-- The memory has been cleared (`DL_reset`, `INIT`): unlisted words read +0.0. -/
  | zeros
  /-- The memory has not been cleared since the hardware reset at this site: its contents are unspecified (R60, R61), so that an
  unlisted word reads as a free value. -/
  | powerOn (q : Site)
deriving DecidableEq, Repr

/-- A memory of 32-bit words: the words that differ from what an unlisted index reads as, indices strictly rising. The spec's
smallest addressable unit is the word (R85, R87), so that a cell is a word and not a byte (log 12). -/
structure Mem where
  fill : Fill
  cells : List (Nat × Word)
deriving DecidableEq, Repr

/-! ### Per-line registers -/

/-- One shelving filter `F[i][k]` (R46): coefficients and one-sample history. -/
structure Filter where
  b0 : Word
  b1 : Word
  a1 : Word
  x1 : Word
  y1 : Word
deriving DecidableEq, Repr

/-- R46: the pass-through coefficients with an empty history. -/
def Filter.passThrough : Filter := ⟨0x3F800000#32, 0#32, 0#32, 0#32, 0#32⟩

/-- All registers of one line i, and its buffer `DLBUF[i]`. -/
structure Line where
  /-- `B[i]`, input gain (R36). -/
  b : Word
  /-- `C[i]`, output gain (R36). -/
  c : Word
  /-- `L[i]`, delay-length table entry in samples (R37). -/
  len : Nat
  /-- `DL[i].w`, the circular cursor (R38). -/
  w : Nat
  /-- `DL[i].delay`, the effective delay (R38). -/
  delay : Word
  /-- `DCUR[i]`, nominal delay length (R39). -/
  dcur : Word
  /-- `DTGT[i]`, ramp target (R39). -/
  dtgt : Word
  /-- `DSTEP[i]`, ramp increment (R39). -/
  dstep : Word
  /-- `DCNT[i]`, ramp steps left (R39). -/
  dcnt : Nat
  /-- `LFO[i]`, latched modulation offset (R40). -/
  lfo : Word
  /-- `F[i][LS]` (R45). -/
  ls : Filter
  /-- `F[i][HS]` (R45). -/
  hs : Filter
  /-- `F[i][FX]` (R45). -/
  fx : Filter
  /-- `OSC[i].phase` (R50). -/
  phase : Word
  /-- `OSC[i].rate` (R50). -/
  rate : Word
  /-- `FO[i]`, filtered output (R55). -/
  fo : Word
  /-- `FBIN[i]`, feedback input (R55). -/
  fbin : Word
  /-- `DLBUF[i]` (R60). -/
  buf : Mem
deriving DecidableEq, Repr

/-- A line right after a hardware reset at site `q` (R70): registers +0.0 or 0, filters pass-through, buffer unspecified. -/
def Line.reset (q : Site) : Line where
  b := 0#32
  c := 0#32
  len := 0
  w := 0
  delay := 0#32
  dcur := 0#32
  dtgt := 0#32
  dstep := 0#32
  dcnt := 0
  lfo := 0#32
  ls := Filter.passThrough
  hs := Filter.passThrough
  fx := Filter.passThrough
  phase := 0#32
  rate := 0#32
  fo := 0#32
  fbin := 0#32
  buf := ⟨.powerOn q, []⟩

/-! ### Global registers -/

/-- `TOPO` (R32): the matrix topology. -/
inductive Topology where
  /-- 0. -/
  | identity
  /-- 1. -/
  | custom
deriving DecidableEq, Repr

/-- The result codes of spec/60_exceptions.md R331. -/
inductive Code where
  | ok
  | illegalCmd
  | notInit
  | badParam
  | outOfRange
  | primeShort
deriving DecidableEq, Repr

/-- What the outside world does at one step (spec/20_memory.md R90, spec/70_reset_and_hazards.md R379, R380). DESIGN CHOICE
(log 2), safe: the interleaving of the two agents is the order of this list, which nothing constrains. -/
inductive HostEvent where
  /-- The host writes one word to `CMDQ` (R65). -/
  | word (w : Word)
  /-- The host presents a request on the audio port and the audio agent answers it (R110, R116). -/
  | audio (req : BitVec 40)
  /-- The control agent takes one transaction (R91), if it has one to take. -/
  | control
  /-- The host reads `k` words from `RSPQ` (R65). -/
  | drain (k : Nat)
  /-- The reset input is asserted (R360). -/
  | reset
deriving DecidableEq, Repr

/-- The reasons a step can fault: none. "A memory access never faults" (spec/00_scope.md R18), there is no trap
(spec/60_exceptions.md R339) and a rejected command is a next state (R332), so that the type has no constructor and no meaning can
answer with a fault. Safe. -/
inductive Fault where
deriving DecidableEq, Repr

/-- The reasons a step can be refused. -/
inductive Refusal where
  /-- Raised by an arm of `exec` whose instruction has no meaning in this model; safe. No arm of this model raises it. -/
  | notModelled (mnemonic : String)
deriving DecidableEq, Repr

/-- The machine's state: the architectural state of spec/10_state.md R30, then the fields the spec implies, then the parameters of
the step relation ("What is not state"), which the model holds here because a step takes nothing else (log 1, 2, 7, 10). -/
structure State where
  /-- `FS` (R32). -/
  fs : Word
  /-- `N` (R32). -/
  n : Nat
  /-- `LOW_MS` (R32). -/
  lowMs : Word
  /-- `HIGH_MS` (R32). -/
  highMs : Word
  /-- `W` (R32). -/
  wet : Word
  /-- `MOD_DEPTH` (R32). -/
  modDepth : Word
  /-- `MOD_RATE` (R32). -/
  modRate : Word
  /-- `LS_T` (R32). -/
  lsT : Word
  /-- `LS_F` (R32). -/
  lsF : Word
  /-- `HS_T` (R32). -/
  hsT : Word
  /-- `HS_F` (R32). -/
  hsF : Word
  /-- `RAMP_LEN` (R32). -/
  rampLen : Nat
  /-- `LSVALID` (R32). -/
  lsValid : Bool
  /-- `HSVALID` (R32). -/
  hsValid : Bool
  /-- `TOPO` (R32). -/
  topo : Topology
  /-- `RECONF` (R32, R34). -/
  reconf : Bool
  /-- `INITED` (R32). -/
  inited : Bool
  /-- `ERR` (R32): bit n-1 is the sticky flag of code n. -/
  err : BitVec 5
  /-- `LASTERR` (R32). -/
  lastErr : Byte
  /-- `RPHASE` (R32, R33). -/
  rphase : BitVec 3
  /-- The per-line register files and buffers, line 0 first; NMAX of them (R30). -/
  lines : List Line
  /-- `CM` (R61): cell (r, c) is word r*NMAX + c (R80). -/
  cm : Mem
  /-- `CMDQ` (R65), oldest word first. -/
  cmdq : List Word
  /-- `RSPQ` (R65), oldest word first. -/
  rspq : List Word
  /-- The INIT or UPDORD whose phases are under way (R33, R200, R205 imply it; log 5). -/
  running : Option Instr
  /-- The `found` of the running command (R200, R205 imply it; log 5). -/
  found : Nat
  /-- The word the audio port answered to the most recent PROC; none before the first (R110; log 16). -/
  audY : Option Word
  /-- The model's own: `CFG` (log 1). -/
  cfg : Cfg
  /-- The model's own: host events to come (log 2). -/
  inbox : List HostEvent
  /-- The model's own: gain draws fixed by the outside (log 10). -/
  draws : List Word
  /-- The model's own: the number of host events so far, the root of every free value's site (log 7). -/
  epoch : Nat
deriving DecidableEq, Repr

/-- The engine right after a hardware reset (R70, R360): every register at its reset value, both memories unspecified, both queues
empty, no command under way; what lies outside the engine (configuration, host events, draws, epoch) as given. -/
def State.powerOn (cfg : Cfg) (inbox : List HostEvent) (draws : List Word) (epoch : Nat) : State where
  fs := 0#32
  n := 0
  lowMs := 0#32
  highMs := 0#32
  wet := 0#32
  modDepth := 0#32
  modRate := 0#32
  lsT := 0#32
  lsF := 0#32
  hsT := 0#32
  hsF := 0#32
  rampLen := 0
  lsValid := false
  hsValid := false
  topo := .identity
  reconf := true
  inited := false
  err := 0#5
  lastErr := 0#8
  rphase := 0#3
  lines := (List.range cfg.nmax).map fun i => Line.reset [i, epoch]
  cm := ⟨.powerOn [cfg.nmax, epoch], []⟩
  cmdq := []
  rspq := []
  running := none
  found := 0
  audY := none
  cfg := cfg
  inbox := inbox
  draws := draws
  epoch := epoch

/-- The machine right after reset (R70) in the reference configuration `CFG_REF`, with no host event to come. -/
def State.reset : State := State.powerOn Cfg.ref [] [] 0

end Sys2Proof.Machine
end

