-- ==== Sys2Proof/Machine/Float.lean ====
section
/-! DEFINITION. The numerics record `CFG.NUM` (spec/00_scope.md R14, R19, R20): IEEE 754 binary32 with round to nearest, ties to
even, gradual underflow, and the transcendental configuration functions. A finite value is the integer `val` times 2^-149. -/

namespace Sys2Proof.Machine

/-! ### Fields of a bit pattern -/

/-- The sign bit is set. -/
def signOf (a : Word) : Bool := a.getLsbD 31

/-- The biased exponent field. -/
def expOf (a : Word) : Nat := (a.extractLsb' 23 8).toNat

/-- The fraction field. -/
def fracOf (a : Word) : Nat := (a.extractLsb' 0 23).toNat

/-- R19: `isFinite`, neither a NaN nor an infinity. -/
def isFinite (a : Word) : Bool := expOf a != 255

/-- The value is a NaN. -/
def isNaN (a : Word) : Bool := expOf a == 255 && fracOf a != 0

/-- The value is an infinity. -/
def isInf (a : Word) : Bool := expOf a == 255 && fracOf a == 0

/-- Magnitude of a finite value in units of 2^-149, the smallest subnormal. -/
def mag (a : Word) : Nat := if expOf a = 0 then fracOf a else (2 ^ 23 + fracOf a) * 2 ^ (expOf a - 1)

/-- A finite value in units of 2^-149. -/
def val (a : Word) : Int := if signOf a then -(mag a : Int) else (mag a : Int)

/-! ### Rounding -/

/-- The 31 magnitude bits of n/d (d > 0, units of 2^-149) rounded to nearest, ties to even, the exponent unbounded above. -/
def roundQ (n d : Nat) : Nat :=
  let k := Nat.log2 (n / d) - 23
  let ulp := d * 2 ^ k
  let q := n / ulp
  let r := n % ulp
  k * 2 ^ 23 + q + (if ulp < 2 * r ∨ (2 * r = ulp ∧ q % 2 = 1) then 1 else 0)

/-- Sign and magnitude bits; a magnitude beyond the largest finite value is the infinity (R19, overflow). -/
def packBits (neg : Bool) (m : Nat) : Word := BitVec.ofNat 32 ((if neg then 2 ^ 31 else 0) + min m 0x7F800000)

/-- n/d (units of 2^-149) with a sign, correctly rounded. -/
def roundPack (neg : Bool) (n d : Nat) : Word := packBits neg (roundQ n d)

/-- A signed infinity. -/
def infOf (neg : Bool) : Word := packBits neg 0x7F800000

/-- A signed zero. -/
def zeroOf (neg : Bool) : Word := packBits neg 0

/-- The NaN an operation produces at a site: a quiet NaN whose sign and payload are free (R19, V3; log 7). -/
def nanAt (q : Site) : Word := Config.nanFree q ||| 0x7FC00000#32

/-! ### Constants (R19) -/

def f0 : Word := 0x00000000#32
def f1 : Word := 0x3F800000#32
def f2 : Word := 0x40000000#32
def f3 : Word := 0x40400000#32
def f6 : Word := 0x40C00000#32
def fHalf : Word := 0x3F000000#32
def f10 : Word := 0x41200000#32
def f20 : Word := 0x41A00000#32
def f100 : Word := 0x42C80000#32
def f1000 : Word := 0x447A0000#32
/-- -60.0 -/
def fM60 : Word := 0xC2700000#32
/-- -1.0 -/
def fM1 : Word := 0xBF800000#32
/-- 2^24 -/
def f2p24 : Word := 0x4B800000#32
/-- R19: `PI32`. -/
def pi32 : Word := 0x40490FDB#32
/-- R19: `C06`, the binary32 nearest 0.6. -/
def c06 : Word := 0x3F19999A#32

/-! ### Comparisons (R19) -/

/-- The position of a value that is not a NaN in the order of the reals with both infinities; both zeros are 0. -/
def ordKey (a : Word) : Int :=
  let m : Int := (a.toNat % 2 ^ 31 : Nat)
  if signOf a then -m else m

/-- R19: `a < b`; false with a NaN. -/
def flt (a b : Word) : Bool := !isNaN a && !isNaN b && decide (ordKey a < ordKey b)

/-- `a <= b`; false with a NaN. -/
def fle (a b : Word) : Bool := !isNaN a && !isNaN b && decide (ordKey a ≤ ordKey b)

/-- R19: `a = b`; false with a NaN, true of the two zeros. -/
def feq (a b : Word) : Bool := !isNaN a && !isNaN b && decide (ordKey a = ordKey b)

/-! ### Arithmetic: the IEEE 754 operations, the default of `CFG.NUM` (R14, R19) -/

/-- R19: `fneg` flips the sign bit. -/
def fneg (a : Word) : Word := a ^^^ 0x80000000#32

/-- R19: `fadd` of the default. -/
def ieeeAdd (q : Site) (a b : Word) : Word :=
  if isNaN a || isNaN b then nanAt q
  else if isInf a then (if isInf b && signOf a != signOf b then nanAt q else a)
  else if isInf b then b
  else
    let v := val a + val b
    if v = 0 then zeroOf (signOf a && signOf b) else roundPack (decide (v < 0)) v.natAbs 1

/-- R19: `fsub` of the default. A NaN operand gives a NaN before any sign is flipped. -/
def ieeeSub (q : Site) (a b : Word) : Word := ieeeAdd q a (fneg b)

/-- R19: `fmul` of the default. -/
def ieeeMul (q : Site) (a b : Word) : Word :=
  let neg := signOf a != signOf b
  if isNaN a || isNaN b then nanAt q
  else if isInf a || isInf b then
    (if (isFinite a && mag a == 0) || (isFinite b && mag b == 0) then nanAt q else infOf neg)
  else roundPack neg (mag a * mag b) (2 ^ 149)

/-- R19: `fdiv` of the default. -/
def ieeeDiv (q : Site) (a b : Word) : Word :=
  let neg := signOf a != signOf b
  if isNaN a || isNaN b then nanAt q
  else if isInf a then (if isInf b then nanAt q else infOf neg)
  else if isInf b then zeroOf neg
  else if mag b = 0 then (if mag a = 0 then nanAt q else infOf neg)
  else roundPack neg (mag a * 2 ^ 149) (mag b)

/-- The integer square root of n < 4^fuel. -/
def isqrt : Nat → Nat → Nat
  | 0, _ => 0
  | fuel + 1, n =>
    let r := 2 * isqrt fuel (n / 4)
    if (r + 1) * (r + 1) ≤ n then r + 1 else r

/-- R19: `fsqrt` of the default. The root of the magnitude, in half units, with a sticky bit below: between two values of the format
(and their midpoints) all rounds alike. -/
def ieeeSqrt (q : Site) (a : Word) : Word :=
  if isNaN a then nanAt q
  else if isFinite a && mag a == 0 then a
  else if signOf a then nanAt q
  else if isInf a then a
  else
    let t := 4 * (mag a * 2 ^ 149)
    let r := isqrt 216 t
    roundPack false (2 * r + (if r * r = t then 0 else 1)) 4

/-- R14, R19: `ffloor` of the default, the largest integral binary32 value <= a, exact: IEEE 754 roundToIntegralTowardNegative, by
which a zero and an infinity are their own floors (log 13). -/
def ieeeFloor (q : Site) (a : Word) : Word :=
  if isNaN a then nanAt q
  else if isInf a || mag a == 0 then a
  else if signOf a then roundPack true ((mag a + (2 ^ 149 - 1)) / 2 ^ 149 * 2 ^ 149) 1
  else roundPack false (mag a / 2 ^ 149 * 2 ^ 149) 1

/-- R14, R19: `u2f` of the default, IEEE 754 convertFromInt: exact below 2^24, correctly rounded from there on. -/
def ieeeU2f (n : Nat) : Word := roundPack false (n * 2 ^ 149) 1

/-- R19: `f2n`, exact on a finite, integral, non-negative value; free elsewhere (log 14). -/
def f2n (a : Word) : Nat :=
  if isFinite a && mag a % 2 ^ 149 == 0 && !(signOf a && mag a != 0) then mag a / 2 ^ 149 else Config.f2nFree a

/-! ### The operations of the numerics record (R14) -/

/-- The result the record lists for an operand, else that of the given function. -/
def numEntry {α β : Type} [DecidableEq α] (table : List (α × β)) (otherwise : α → β) (a : α) : β :=
  match table.find? fun e => decide (e.1 = a) with
  | some e => e.2
  | none => otherwise a

/-- R19: an operation of one operand: a NaN gives a NaN, under every record. -/
def numUnary (table : List (Word × Word)) (ieee : Site → Word → Word) (q : Site) (a : Word) : Word :=
  if isNaN a then nanAt q else numEntry table (ieee q) a

/-- R19: an operation of two operands: a NaN gives a NaN, under every record. -/
def numBinary (table : List ((Word × Word) × Word)) (ieee : Site → Word → Word → Word) (q : Site) (a b : Word) : Word :=
  if isNaN a || isNaN b then nanAt q else numEntry table (fun ab => ieee q ab.1 ab.2) (a, b)

/-- R14, R19: `fadd`. -/
def fadd (c : Cfg) (q : Site) (a b : Word) : Word := numBinary c.num.add ieeeAdd q a b

/-- R14, R19: `fsub`. -/
def fsub (c : Cfg) (q : Site) (a b : Word) : Word := numBinary c.num.sub ieeeSub q a b

/-- R14, R19: `fmul`. -/
def fmul (c : Cfg) (q : Site) (a b : Word) : Word := numBinary c.num.mul ieeeMul q a b

/-- R14, R19: `fdiv`. -/
def fdiv (c : Cfg) (q : Site) (a b : Word) : Word := numBinary c.num.div ieeeDiv q a b

/-- R14, R19: `fsqrt`. -/
def fsqrt (c : Cfg) (q : Site) (a : Word) : Word := numUnary c.num.sqrt ieeeSqrt q a

/-- R14, R19: `ffloor`. -/
def ffloor (c : Cfg) (q : Site) (a : Word) : Word := numUnary c.num.floor ieeeFloor q a

/-- R14, R19: `u2f`. -/
def u2f (c : Cfg) (n : Nat) : Word := numEntry c.num.u2f ieeeU2f n

/-! ### Transcendental configuration functions (R20) -/

/-- R20: `NUM.tan`; property P5 holds whatever the free function is (a value that would break it is replaced; log 8). -/
def numTan (c : Cfg) (a : Word) : Word :=
  let t := numEntry c.num.tan Config.tanFree a
  if flt f0 a && flt a 0x3FC90FDA#32 && !(flt f0 t && isFinite t) then f1 else t

/-- R20: `NUM.pow`; properties P3 (for a zero exponent of either sign, as R161 uses it; log 9) and P4 are built in. -/
def numPow (c : Cfg) (a b : Word) : Word :=
  if feq b f0 then f1
  else if feq a f1 && isFinite b then f1
  else numEntry c.num.pow (fun ab => Config.powFree ab.1 ab.2) (a, b)

/-- R20: `NUM.sinTurns`; property P2 is built in and P1 holds whatever the free function is (log 8). -/
def numSinTurns (c : Cfg) (p : Word) : Word :=
  if p = f0 then f0
  else
    let s := numEntry c.num.sinTurns Config.sinFree p
    if isFinite p && !(fle fM1 s && fle s f1) then f0 else s

/-! ### Draws (R15, R22) -/

/-- R15: the law of a gain draw: finite and -1 <= v <= 1. -/
def gainLaw (v : Word) : Bool := isFinite v && fle fM1 v && fle v f1

/-- A value as a gain draw: itself when it obeys the law. Every sequence of lawful values is reached (log 10). -/
def lawfulGain (v : Word) : Word := if gainLaw v then v else f0

/-- R22: `draw GainDraw()`: the next draw the outside has fixed, else the free value of the site. -/
def gainDraw (q : Site) (ds : List Word) : Word × List Word :=
  match ds with
  | [] => (lawfulGain (Config.gainFree q), [])
  | v :: rest => (lawfulGain v, rest)

end Sys2Proof.Machine
end

