-- ==== Sys2Proof/Machine/Flags.lean ====
section
/-! DEFINITION. Result codes, sticky error flags, the STATUS view and the response header (spec/60_exceptions.md R331, R332;
spec/10_state.md R35; spec/30_encoding.md R118). -/

namespace Sys2Proof.Machine

/-- R331: the number of a code, the value of CODE in a response header and of LASTERR. -/
def codeNumber : Code → Byte
  | .ok => 0#8
  | .illegalCmd => 1#8
  | .notInit => 2#8
  | .badParam => 3#8
  | .outOfRange => 4#8
  | .primeShort => 5#8

/-- R332: the bit of ERR that a code sets; OK has none. -/
def errFlag : Code → BitVec 5
  | .ok => 0#5
  | .illegalCmd => 0b00001#5
  | .notInit => 0b00010#5
  | .badParam => 0b00100#5
  | .outOfRange => 0b01000#5
  | .primeShort => 0b10000#5

/-- R118: the response header, `OPC ++ DLEN ++ 0x0 ++ CODE`. -/
def responseHeader (opc : Byte) (dlen : Nat) (c : Code) : Word := opc ++ BitVec.ofNat 12 dlen ++ 0#4 ++ codeNumber c

/-- R32: the bit of a topology. -/
def topologyBit : Topology → BitVec 1
  | .identity => 0#1
  | .custom => 1#1

/-- R35: the STATUS view:
`LASTERR[31:24] 0[23:21] ERR[20:16] 0[15:14] ORDER[13:8] 0[7:5] HSVALID LSVALID TOPO RECONF INITED`. -/
def statusWord (s : State) : Word :=
  s.lastErr ++ 0#3 ++ s.err ++ 0#2 ++ BitVec.ofNat 6 s.n ++ 0#3 ++ BitVec.ofBool s.hsValid ++ BitVec.ofBool s.lsValid
    ++ topologyBit s.topo ++ BitVec.ofBool s.reconf ++ BitVec.ofBool s.inited

end Sys2Proof.Machine
end

