-- ==== Sys2Proof/Machine/Ops.lean ====
section
/-! DEFINITION. The shared operations: memory words (spec/00_scope.md R18), the per-line loops, and the rejection and completion of a
command (R21; spec/60_exceptions.md R332), which is all this engine has of taking an exception (R339). -/

namespace Sys2Proof.Machine

/-! ### Memory words (R18; spec/20_memory.md R80) -/

/-- What an unlisted word of a memory reads as: +0.0 once the memory has been cleared, a free value before (R60, R61; log 11). -/
def fillWord (f : Fill) (k : Nat) : Word :=
  match f with
  | .zeros => 0#32
  | .powerOn q => Config.powerOnWord q k

/-- The listed word at index k. -/
def findCell (k : Nat) : List (Nat × Word) → Option Word
  | [] => none
  | (j, v) :: cs => if j = k then some v else findCell k cs

/-- `MemRead` of one word (R18). -/
def memRead (m : Mem) (k : Nat) : Word := (findCell k m.cells).getD (fillWord m.fill k)

/-- Lists word k as v, in place or at its place in the rising order. -/
def insertCell (k : Nat) (v : Word) : List (Nat × Word) → List (Nat × Word)
  | [] => [(k, v)]
  | (j, u) :: cs =>
    if k < j then (k, v) :: (j, u) :: cs
    else if k = j then (k, v) :: cs
    else (j, u) :: insertCell k v cs

/-- Unlists word k. -/
def eraseCell (k : Nat) : List (Nat × Word) → List (Nat × Word)
  | [] => []
  | (j, u) :: cs => if j = k then cs else (j, u) :: eraseCell k cs

/-- `MemWrite` of one word (R18). A word equal to what an unlisted word reads as is not listed. -/
def memWrite (m : Mem) (k : Nat) (v : Word) : Mem :=
  if v = fillWord m.fill k then { m with cells := eraseCell k m.cells } else { m with cells := insertCell k v m.cells }

/-- The memory with every word +0.0 (R142, R200). -/
def memCleared : Mem := ⟨.zeros, []⟩

/-- The indices rise strictly. -/
def risingFrom : Option Nat → List (Nat × Word) → Bool
  | _, [] => true
  | lo, (k, _) :: cs => (match lo with | none => true | some j => decide (j < k)) && risingFrom (some k) cs

/-- The canonical form of a memory: indices strictly rising, below the memory's size, and no word listed that equals what an
unlisted word reads as. -/
def memWf (size : Nat) (m : Mem) : Bool :=
  risingFrom none m.cells && m.cells.all fun e => decide (e.1 < size) && e.2 != fillWord m.fill e.1

/-! ### Lines -/

/-- Line i (R30). The engine only computes indices below NMAX (R18); past the last line it would be a line as after reset. -/
def lineAt (s : State) (i : Nat) : Line := (s.lines[i]?).getD (Line.reset [])

/-- Changes the line at one place of the list. -/
def updateAt (f : Line → Line) : Nat → List Line → List Line
  | _, [] => []
  | 0, l :: ls => f l :: ls
  | i + 1, l :: ls => l :: updateAt f i ls

/-- Changes one line. -/
def setLine (s : State) (i : Nat) (f : Line → Line) : State := { s with lines := updateAt f i s.lines }

/-- Changes the first `count` lines; the function is given each line's index, from `start` on. -/
def updateFrom (f : Nat → Line → Line) : Nat → Nat → List Line → List Line
  | _, 0, ls => ls
  | _, _ + 1, [] => []
  | start, count + 1, l :: ls => f start l :: updateFrom f (start + 1) count ls

/-- Gives the first lines one value each, line 0 first; the other lines stay. -/
def setEach {α : Type} (f : Line → α → Line) : List α → List Line → List Line
  | [], ls => ls
  | _ :: _, [] => []
  | a :: as, l :: ls => f l a :: setEach f as ls

/-- `for i = 0 .. N-1 ascending`: changes every active line (R25). -/
def forActive (s : State) (f : Nat → Line → Line) : State := { s with lines := updateFrom f 0 s.n s.lines }

/-- `for i = 0 .. NMAX-1`: changes every line. -/
def forAll (s : State) (f : Line → Line) : State := { s with lines := s.lines.map f }

/-- Word k of `DLBUF[i]`. -/
def readDelayWord (s : State) (i k : Nat) : Word := memRead (lineAt s i).buf k

/-- The word index of cell (r, c) in the custom-matrix store (R82). -/
def cellIndex (s : State) (r c : Nat) : Nat := r * s.cfg.nmax + c

/-- Cell (r, c) of `CM`. -/
def readCell (s : State) (r c : Nat) : Word := memRead s.cm (cellIndex s r c)

/-- Writes cell (r, c) of `CM`. -/
def writeCell (s : State) (r c : Nat) (v : Word) : State := { s with cm := memWrite s.cm (cellIndex s r c) v }

/-! ### Ending a command -/

/-- R118: appends a response packet to `RSPQ`. -/
def respond (s : State) (opc : Byte) (c : Code) (data : List Word) : State :=
  { s with rspq := s.rspq ++ responseHeader opc data.length c :: data }

/-- R21, R332: `raise <Code>()`: the sticky flag, LASTERR and one response word; nothing else changes. -/
def raiseCode (s : State) (opc : Byte) (c : Code) : State :=
  respond { s with err := s.err ||| errFlag c, lastErr := codeNumber c } opc c []

/-- R332: a command that completes writes LASTERR <- 0 and answers with its data words (R310). -/
def complete (s : State) (opc : Byte) (data : List Word) : State := respond { s with lastErr := 0#8 } opc .ok data

/-- R21, R332: the end of a command that may flag `PrimeShort`: the flag and LASTERR = 5, or LASTERR = 0. -/
def completeSearch (s : State) (opc : Byte) (short : Bool) : State :=
  if short then raiseCode s opc .primeShort else complete s opc []

/-- The code of the first check that fails: "the checks of a rule run in the order written" (spec/60_exceptions.md R333). -/
def firstFailure : List (Bool × Code) → Option Code
  | [] => none
  | (ok, c) :: rest => if ok then firstFailure rest else some c

/-- R21: a command of the control port: rejected with the code of the first check that fails, before anything is written; else its
effect. -/
def command (s : State) (opc : Byte) (checks : List (Bool × Code)) (effect : State) : Host.Outcome State Fault Refusal :=
  match firstFailure checks with
  | some c => .next (raiseCode s opc c)
  | none => .next effect

/-! ### Reset -/

/-- R360: the reset input is asserted: the registers take their reset values, both memories become unspecified, a command in
progress is abandoned without a response, a partly received packet is dropped. -/
def hardReset (s : State) : State := State.powerOn s.cfg s.inbox s.draws s.epoch

end Sys2Proof.Machine
end

