-- ==== Sys2Proof/Machine/Operands.lean ====
section
/-! DEFINITION. Operand forms and their domains: the checks of spec/60_exceptions.md R335 and the conversion of milliseconds to
samples (spec/44_init_reconfig.md R202). -/

namespace Sys2Proof.Machine

/-- The checks of R335 that a command needs an initialised engine for (R334). -/
def needsInit (s : State) : Bool × Code := (s.inited, .notInit)

/-- A domain check, rejected with `BadParam` (R331). -/
def domain (ok : Bool) : Bool × Code := (ok, .badParam)

/-- R331: a line, row or column index below the active count N, rejected with `OutOfRange` (R280). -/
def indexBelow (s : State) (i : Byte) : Bool × Code := (decide (i.toNat < s.n), .outOfRange)

/-- `x > +0.0`, false of a NaN. -/
def positive (x : Word) : Bool := flt f0 x

/-- R8: the order is one of `CFG.ORDERS`. -/
def supportedOrder (s : State) (order : Byte) : Bool := s.cfg.orders.contains order.toNat

/-- R205, R294: a topology selector is 0 or 1. -/
def selectorOk (selector : Byte) : Bool := decide (selector.toNat ≤ 1)

/-- R205, R294: 0 = IDENTITY, 1 = CUSTOM. -/
def topologyOf (selector : Byte) : Topology := if selector = 0#8 then .identity else .custom

/-- R202: `MsToSamples(ms, fs)`; `none` is the spec's `invalid`. -/
def msToSamples (c : Cfg) (q : Site) (ms fs : Word) : Option Nat :=
  let v := fdiv c (0 :: q) (fmul c (1 :: q) ms fs) f1000
  if !isFinite v || flt v f0 then none else some (f2n (ffloor c (2 :: q) v))

/-- R222: a sample count is valid and lies in 1..2^24-1. -/
def countInRange : Option Nat → Bool
  | none => false
  | some n => decide (1 ≤ n) && decide (n < 2 ^ 24)

/-- R200, R220: both ends of a search window are valid and the upper end lies in 1..2^24-1. -/
def windowInRange (lo hi : Option Nat) : Bool := lo.isSome && countInRange hi

/-- R222: the domain of a length in milliseconds. -/
def lengthOk (c : Cfg) (q : Site) (ms fs : Word) : Bool := isFinite ms && positive ms && countInRange (msToSamples c q ms fs)

end Sys2Proof.Machine
end

