-- ==== Sys2Proof/Machine/Oscillator.lean ====
section
/-! DEFINITION. The modulation oscillator (spec/42_oscillator.md). -/

namespace Sys2Proof.Machine

/-- R181: the phase after an advance by `inc` turns: the fractional part of the sum, in [0, 1). -/
def advancePhase (c : Cfg) (q : Site) (phase inc : Word) : Word :=
  let t := fadd c (0 :: q) phase inc
  if isFinite t then
    let p := fsub c (1 :: q) t (ffloor c (2 :: q) t)
    let p := if fle f1 p then f0 else p
    fadd c (3 :: q) p f0
  else f0

/-- R181: `OSC_process`: the sine of the new phase, and the line with its phase advanced. -/
def oscProcess (c : Cfg) (q : Site) (inc : Word) (l : Line) : Word × Line :=
  let p := advancePhase c q l.phase inc
  (numSinTurns c p, { l with phase := p })

end Sys2Proof.Machine
end

