-- ==== Sys2Proof/Machine/DelayLine.lean ====
section
/-! DEFINITION. The delay line (spec/40_delay_line.md): `DL_setDelay`, `DL_reset`, `DL_push`, `DL_pop` and the two kernels. -/

namespace Sys2Proof.Machine

/-- R141: `DL_setDelay`: clamped to [0, CAP]; a NaN changes nothing. -/
def dlSetDelay (c : Cfg) (q : Site) (len : Word) (l : Line) : Line :=
  if isNaN len then l
  else if flt len f0 then { l with delay := f0 }
  else if flt (u2f c c.cap) len then { l with delay := u2f c c.cap }
  else { l with delay := fadd c q len f0 }

/-- R142: `DL_reset`: every word of the buffer is +0.0. -/
def dlReset (l : Line) : Line := { l with buf := memCleared }

/-- R143: `DL_push`: the sample is written at the cursor. -/
def dlPush (u : Word) (l : Line) : Line := { l with buf := memWrite l.buf l.w u }

/-- R83, R144: `Tap(i, k)`. -/
def tap (c : Cfg) (l : Line) (k : Nat) : Word := memRead l.buf ((l.w + c.buflen - k) % c.buflen)

/-- R146: kernel `LAGRANGE3`, third-order Lagrange over four taps. -/
def lagrange3 (c : Cfg) (q : Site) (l : Line) (n : Nat) (f : Word) : Word :=
  let base := if 1 ≤ n then n - 1 else 0
  let dl := if 1 ≤ n then fadd c (0 :: q) f f1 else f
  let v0 := tap c l base
  let v1 := tap c l (base + 1)
  let v2 := tap c l (base + 2)
  let v3 := tap c l (base + 3)
  let d1 := fsub c (1 :: q) dl f1
  let d2 := fsub c (2 :: q) dl f2
  let d3 := fsub c (3 :: q) dl f3
  let c1 := fdiv c (4 :: q) (fmul c (5 :: q) (fmul c (6 :: q) (fneg d1) d2) d3) f6
  let c2 := fmul c (7 :: q) (fmul c (8 :: q) d2 d3) fHalf
  let c3 := fmul c (9 :: q) (fmul c (10 :: q) (fneg d1) d3) fHalf
  let c4 := fdiv c (11 :: q) (fmul c (12 :: q) d1 d2) f6
  let inner := fadd c (13 :: q) (fadd c (14 :: q) (fmul c (15 :: q) v1 c2) (fmul c (16 :: q) v2 c3)) (fmul c (17 :: q) v3 c4)
  fadd c (18 :: q) (fmul c (19 :: q) v0 c1) (fmul c (20 :: q) dl inner)

/-- R147: kernel `LINEAR`, two taps. -/
def linear2 (c : Cfg) (q : Site) (l : Line) (n : Nat) (f : Word) : Word :=
  let v0 := tap c l n
  let v1 := tap c l (n + 1)
  fadd c (0 :: q) v0 (fmul c (1 :: q) f (fsub c (2 :: q) v1 v0))

/-- R10: the configured kernel. -/
def interpolate (c : Cfg) (q : Site) (l : Line) (n : Nat) (f : Word) : Word :=
  match c.kernel with
  | .lagrange3 => lagrange3 c q l n f
  | .linear => linear2 c q l n f

/-- R145: what `DL_pop` returns: the interpolation at the effective delay. -/
def dlRead (c : Cfg) (q : Site) (l : Line) : Word :=
  let nf := ffloor c (0 :: q) l.delay
  interpolate c (2 :: q) l (f2n nf) (fsub c (1 :: q) l.delay nf)

/-- R145: `DL_pop` advances the cursor. -/
def dlAdvance (c : Cfg) (l : Line) : Line := { l with w := (l.w + 1) % c.buflen }

/-- R145: `DL_pop`: the sample, and the line with its cursor advanced. -/
def dlPop (c : Cfg) (q : Site) (l : Line) : Word × Line := (dlRead c q l, dlAdvance c l)

end Sys2Proof.Machine
end

