-- ==== Sys2Proof/Machine/Shelf.lean ====
section
/-! DEFINITION. The shelving filters (spec/41_shelving_filter.md). The functions check nothing; their callers do (R170). -/

namespace Sys2Proof.Machine

/-- R161: `ShelfGain(T, lsamp, fs)`, the per-pass linear gain. -/
def shelfGain (c : Cfg) (q : Site) (t lsamp fs : Word) : Word :=
  let gdB := fdiv c (0 :: q) fM60 (fmul c (1 :: q) t fs)
  let p := numPow c f10 (fdiv c (2 :: q) gdB f20)
  numPow c p (ffloor c (3 :: q) lsamp)

/-- R162: `ShelfTan(f, fs)`. -/
def shelfTan (c : Cfg) (q : Site) (f fs : Word) : Word := numTan c (fdiv c (0 :: q) (fmul c (1 :: q) pi32 f) fs)

/-- R163: the reference instance of `ShelfLow(T, f, lsamp, fs)`. -/
def shelfLowRef (c : Cfg) (q : Site) (decay f lsamp fs : Word) : Coeffs :=
  let g := shelfGain c (0 :: q) decay lsamp fs
  let t := shelfTan c (1 :: q) f fs
  let a0 := fadd c (2 :: q) f1 t
  let inv := fdiv c (3 :: q) f1 a0
  let gt := fmul c (4 :: q) g t
  (fmul c (5 :: q) (fadd c (6 :: q) f1 gt) inv,
    fmul c (7 :: q) (fsub c (8 :: q) gt f1) inv,
    fmul c (9 :: q) (fsub c (10 :: q) t f1) inv)

/-- R164: the reference instance of `ShelfHigh(T, f, lsamp, fs)`. -/
def shelfHighRef (c : Cfg) (q : Site) (decay f lsamp fs : Word) : Coeffs :=
  let g := shelfGain c (0 :: q) decay lsamp fs
  let t := shelfTan c (1 :: q) f fs
  let r := fsqrt c (2 :: q) g
  let rt := fmul c (3 :: q) r t
  let rr := fmul c (4 :: q) r r
  let a0 := fadd c (5 :: q) rt f1
  let inv := fdiv c (6 :: q) f1 a0
  (fmul c (7 :: q) (fadd c (8 :: q) rt rr) inv,
    fmul c (9 :: q) (fsub c (10 :: q) rt rr) inv,
    fmul c (11 :: q) (fsub c (12 :: q) rt f1) inv)

/-- R160, R163: `ShelfLow(T, f, lsamp, fs)`, the configuration function. -/
def shelfLow (c : Cfg) (q : Site) (decay f lsamp fs : Word) : Coeffs :=
  numEntry c.shelf.low (fun o => shelfLowRef c q o.1 o.2.1 o.2.2.1 o.2.2.2) (decay, f, lsamp, fs)

/-- R160, R164: `ShelfHigh(T, f, lsamp, fs)`, the configuration function. -/
def shelfHigh (c : Cfg) (q : Site) (decay f lsamp fs : Word) : Coeffs :=
  numEntry c.shelf.high (fun o => shelfHighRef c q o.1 o.2.1 o.2.2.1 o.2.2.2) (decay, f, lsamp, fs)

/-- R46: a coefficient update does not touch the history. -/
def setCoeffs (k : Coeffs) (f : Filter) : Filter := { f with b0 := k.1, b1 := k.2.1, a1 := k.2.2 }

/-- R165: the low shelf of `RecomputeUser(i)`. -/
def recomputeLow (s : State) (q : Site) (l : Line) : Line :=
  if s.lsValid then { l with ls := setCoeffs (shelfLow s.cfg q s.lsT s.lsF (u2f s.cfg l.len) s.fs) l.ls } else l

/-- R165: the high shelf of `RecomputeUser(i)`. -/
def recomputeHigh (s : State) (q : Site) (l : Line) : Line :=
  if s.hsValid then { l with hs := setCoeffs (shelfHigh s.cfg q s.hsT s.hsF (u2f s.cfg l.len) s.fs) l.hs } else l

/-- R165: `RecomputeUser(i)`. -/
def recomputeUser (s : State) (q : Site) (l : Line) : Line := recomputeHigh s (1 :: q) (recomputeLow s (0 :: q) l)

/-- R166: `RecomputeFixed(i)`. -/
def recomputeFixed (s : State) (q : Site) (l : Line) : Line :=
  { l with fx := setCoeffs (shelfHigh s.cfg q s.cfg.tFixed s.cfg.fFixed l.dcur s.fs) l.fx }

/-- R167: the output of `SF_process`. -/
def sfOut (c : Cfg) (q : Site) (f : Filter) (x : Word) : Word :=
  fsub c (0 :: q) (fadd c (1 :: q) (fmul c (2 :: q) f.b0 x) (fmul c (3 :: q) f.b1 f.x1)) (fmul c (4 :: q) f.a1 f.y1)

/-- R167: `SF_process`: the output, and the filter with its history updated. -/
def sfProcess (c : Cfg) (q : Site) (f : Filter) (x : Word) : Word × Filter :=
  let y := sfOut c q f x
  (y, { f with x1 := x, y1 := y })

end Sys2Proof.Machine
end

