-- ==== Sys2Proof/Machine/Smoothing.lean ====
section
/-! DEFINITION. Seeding and delay smoothing (spec/44_init_reconfig.md R210 to R213). -/

namespace Sys2Proof.Machine

/-- R212: `ApplyDelay(i)`: the effective delay from the nominal length and the latched offset; a NaN and a zero change nothing. -/
def applyDelay (s : State) (q : Site) (l : Line) : Line :=
  let m := fadd s.cfg (0 :: q) l.dcur l.lfo
  if isNaN m then l else if feq m f0 then l else dlSetDelay s.cfg (1 :: q) m l

/-- R212: `FollowDelay(i)`. -/
def followDelay (s : State) (q : Site) (l : Line) : Line := applyDelay s (1 :: q) (recomputeFixed s (0 :: q) l)

/-- R210: `Seed(i)`. -/
def seedLine (s : State) (q : Site) (l : Line) : Line :=
  let v := u2f s.cfg l.len
  let l := { l with dcur := v, dtgt := v, dstep := f0, dcnt := 0, lfo := f0 }
  let l := dlSetDelay s.cfg (0 :: q) v l
  recomputeFixed s (2 :: q) (recomputeUser s (1 :: q) l)

/-- R211: `StartRamp(i, target)`. -/
def startRamp (s : State) (q : Site) (target : Word) (l : Line) : Line :=
  if s.rampLen = 0 ∨ feq target l.dcur = true then
    followDelay s (0 :: q) { l with dtgt := target, dcur := target, dstep := f0, dcnt := 0 }
  else
    { l with dtgt := target, dstep := fdiv s.cfg (1 :: q) (fsub s.cfg (2 :: q) target l.dcur) (u2f s.cfg s.rampLen), dcnt := s.rampLen }

/-- R213: `RampStep(i)`. -/
def rampStep (s : State) (q : Site) (l : Line) : Line :=
  match l.dcnt with
  | 0 => l
  | 1 => followDelay s (0 :: q) { l with dcnt := 0, dcur := l.dtgt }
  | d + 2 => followDelay s (0 :: q) { l with dcnt := d + 1, dcur := fadd s.cfg (1 :: q) l.dcur l.dstep }

/-- R220, R222, R223: a line whose table entry has changed: the user shelves at once, the delay by a ramp to the entry. -/
def retarget (s : State) (q : Site) (l : Line) : Line := startRamp s (1 :: q) (u2f s.cfg l.len) (recomputeUser s (0 :: q) l)

end Sys2Proof.Machine
end

