-- ==== Sys2Proof/Machine/Modulation.lean ====
section
/-! DEFINITION. Family: delay modulation (spec/47_modulation.md): UPDMOD, UPDMODL. -/

namespace Sys2Proof.Machine

/-- R270: `ModLine(i, depth, rate)`. -/
def modLine (s : State) (q : Site) (depth rate : Word) (l : Line) : Line :=
  let r := oscProcess s.cfg (1 :: q) (fdiv s.cfg (0 :: q) rate s.fs) { l with rate := rate }
  applyDelay s (3 :: q) { r.2 with lfo := fmul s.cfg (2 :: q) depth r.1 }

/-- UPDMOD (R271). -/
def execUpdmod (depth rate : Word) (s : State) : Host.Outcome State Fault Refusal :=
  let t := { s with modDepth := depth, modRate := rate }
  command s 0x08#8 [needsInit s, domain (isFinite depth && isFinite rate)]
    (complete (forActive t fun i l => modLine t [i, 0, s.epoch] depth rate l) 0x08#8 [])

/-- UPDMODL (R272). -/
def execUpdmodl (i : Byte) (depth rate : Word) (s : State) : Host.Outcome State Fault Refusal :=
  command s 0x09#8 [needsInit s, domain (isFinite depth && isFinite rate), indexBelow s i]
    (complete (setLine s i.toNat (modLine s [0, s.epoch] depth rate)) 0x09#8 [])

end Sys2Proof.Machine
end

