-- ==== Sys2Proof/Machine/Matrix.lean ====
section
/-! DEFINITION. The feedback matrix (spec/43_feedback_matrix.md): the effective matrix and `MAT_apply`. -/

namespace Sys2Proof.Machine

/-- R191: the effective matrix, a view of dimension N. -/
def meff (s : State) (r c : Nat) : Word :=
  match s.topo with
  | .identity => if r = c then f1 else f0
  | .custom => readCell s r c

/-- R192: the sum of one row over the columns from `c` on, ascending, added to `acc`. -/
def rowSum (s : State) (q : Site) (r : Nat) : Nat → Word → List Word → Word
  | _, acc, [] => acc
  | c, acc, v :: vs => rowSum s q r (c + 1) (fadd s.cfg (0 :: c :: q) acc (fmul s.cfg (1 :: c :: q) (readCell s r c) v)) vs

/-- R192: `MAT_apply`: a copy for the identity, else the rows' sums from +0.0. -/
def matApply (s : State) (q : Site) (v : List Word) : List Word :=
  match s.topo with
  | .identity => v
  | .custom => (List.range v.length).map fun r => rowSum s (r :: q) r 0 f0 v

/-- R296: writes cells in row-major order for order n, from flat index k on (R82). -/
def writeCells (n : Nat) : Nat → List Word → State → State
  | _, [], s => s
  | k, v :: vs, s => writeCells n (k + 1) vs (writeCell s (k / n) (k % n) v)

/-- R316: the effective matrix, flattened row-major with the current N (R82). -/
def flatMatrix (s : State) : List Word := (List.range (s.n * s.n)).map fun k => meff s (k / s.n) (k % s.n)

end Sys2Proof.Machine
end

