-- ==== Sys2Proof/Machine/Params.lean ====
section
/-! DEFINITION. Family: parameter commands (spec/48_param_commands.md): SETB, SETBS, SETC, SETCS, SETMIX, SETLS, SETHS, SETTOPO,
SETCELL, SETMAT, NOP, CLRERR. -/

namespace Sys2Proof.Machine

/-! ### Gains (R280 to R283) -/

/-- Writes `B[i]`. -/
def setB (l : Line) (v : Word) : Line := { l with b := v }

/-- Writes `C[i]`. -/
def setC (l : Line) (v : Word) : Line := { l with c := v }

/-- SETB (R280). -/
def execSetb (i : Byte) (v : Word) (s : State) : Host.Outcome State Fault Refusal :=
  command s 0x10#8 [needsInit s, domain (isFinite v), indexBelow s i]
    (complete (setLine s i.toNat fun l => setB l v) 0x10#8 [])

/-- SETBS (R281). -/
def execSetbs (v : List Word) (s : State) : Host.Outcome State Fault Refusal :=
  command s 0x11#8 [needsInit s, domain (decide (v.length = s.n)), domain (v.all isFinite)]
    (complete { s with lines := setEach setB v s.lines } 0x11#8 [])

/-- SETC (R282). -/
def execSetc (i : Byte) (v : Word) (s : State) : Host.Outcome State Fault Refusal :=
  command s 0x12#8 [needsInit s, domain (isFinite v), indexBelow s i]
    (complete (setLine s i.toNat fun l => setC l v) 0x12#8 [])

/-- SETCS (R283). -/
def execSetcs (v : List Word) (s : State) : Host.Outcome State Fault Refusal :=
  command s 0x13#8 [needsInit s, domain (decide (v.length = s.n)), domain (v.all isFinite)]
    (complete { s with lines := setEach setC v s.lines } 0x13#8 [])

/-! ### Mix (R288) -/

/-- SETMIX (R288). -/
def execSetmix (w : Word) (s : State) : Host.Outcome State Fault Refusal :=
  command s 0x0A#8 [needsInit s, domain (isFinite w && fle f0 w && fle w f1)]
    (complete { s with wet := fadd s.cfg [0, s.epoch] w f0 } 0x0A#8 [])

/-! ### Filter parameters (R290, R291) -/

/-- R290, R291: the validation of SETLS and SETHS, in the order written. -/
def shelfChecks (s : State) (t f : Word) : List (Bool × Code) :=
  [needsInit s, domain (isFinite t && isFinite f), domain (positive t), domain (positive f),
    domain (flt (fmul s.cfg [0, s.epoch] f2 f) s.fs)]

/-- R290, R291: `for i = 0 .. N-1 ascending: RecomputeUser(i)`. -/
def recomputeActive (s : State) (q : Site) : State := forActive s fun i l => recomputeUser s (i :: q) l

/-- SETLS (R290). -/
def execSetls (t f : Word) (s : State) : Host.Outcome State Fault Refusal :=
  command s 0x06#8 (shelfChecks s t f)
    (complete (recomputeActive { s with lsT := t, lsF := f, lsValid := true } [1, s.epoch]) 0x06#8 [])

/-- SETHS (R291). -/
def execSeths (t f : Word) (s : State) : Host.Outcome State Fault Refusal :=
  command s 0x07#8 (shelfChecks s t f)
    (complete (recomputeActive { s with hsT := t, hsF := f, hsValid := true } [1, s.epoch]) 0x07#8 [])

/-! ### Feedback matrix (R294 to R296) -/

/-- SETTOPO (R294). -/
def execSettopo (selector : Byte) (s : State) : Host.Outcome State Fault Refusal :=
  command s 0x0B#8 [needsInit s, domain (selectorOk selector)]
    (complete { s with topo := topologyOf selector } 0x0B#8 [])

/-- SETCELL (R295). -/
def execSetcell (r c : Byte) (v : Word) (s : State) : Host.Outcome State Fault Refusal :=
  command s 0x14#8 [needsInit s, domain (isFinite v), indexBelow s r, indexBelow s c]
    (complete (writeCell s r.toNat c.toNat v) 0x14#8 [])

/-- SETMAT (R296). -/
def execSetmat (m : List Word) (s : State) : Host.Outcome State Fault Refusal :=
  command s 0x15#8 [needsInit s, domain (decide (m.length = s.n * s.n)), domain (m.all isFinite)]
    (complete (writeCells s.n 0 m s) 0x15#8 [])

/-! ### Housekeeping (R300, R301) -/

/-- NOP (R300). -/
def execNop (s : State) : Host.Outcome State Fault Refusal := .next (complete s 0x00#8 [])

/-- CLRERR (R301). -/
def execClrerr (s : State) : Host.Outcome State Fault Refusal := .next (complete { s with err := 0#5 } 0x27#8 [])

end Sys2Proof.Machine
end

