-- ==== Sys2Proof/Machine/Process.lean ====
section
/-! DEFINITION. Family: per-sample processing (spec/46_process.md): PROC. -/

namespace Sys2Proof.Machine

/-- R252: the three filters of a line, low shelf, high shelf, fixed high shelf, in that order: the filtered sample, and the line
with its histories and `FO` written. -/
def filterLine (c : Cfg) (q : Site) (v : Word) (l : Line) : Line :=
  let r1 := sfProcess c (0 :: q) l.ls v
  let r2 := sfProcess c (1 :: q) l.hs r1.1
  let r3 := sfProcess c (2 :: q) l.fx r2.1
  { l with ls := r1.2, hs := r2.2, fx := r3.2, fo := r3.1 }

/-- R250: the work of one line: ramp step, push, pop, filters. It reads no other line. -/
def procLine (s : State) (q : Site) (x : Word) (l : Line) : Line :=
  let l := rampStep s (0 :: q) l
  let l := dlPush (fadd s.cfg (1 :: q) (fmul s.cfg (2 :: q) l.b x) l.fbin) l
  let r := dlPop s.cfg (3 :: q) l
  filterLine s.cfg (4 :: q) r.1 r.2

/-- R250: the wet sum over lines already processed, ascending, each weighted by its output gain. -/
def wetSum (c : Cfg) (q : Site) : Nat → Word → List Line → Word
  | _, acc, [] => acc
  | i, acc, l :: ls => wetSum c q (i + 1) (fadd c (0 :: i :: q) acc (fmul c (1 :: i :: q) l.c l.fo)) ls

/-- R253: the output mix. -/
def mixOut (s : State) (q : Site) (wet x : Word) : Word :=
  fmul s.cfg (0 :: q) s.cfg.outAtt
    (fadd s.cfg (1 :: q) (fmul s.cfg (2 :: q) s.wet wet) (fmul s.cfg (3 :: q) (fsub s.cfg (4 :: q) f1 s.wet) x))

/-- R254: the next feedback input of a line. -/
def setFbin (l : Line) (u : Word) : Line := { l with fbin := u }

/-- R250: the state after a PROC that is not silent. -/
def process (x : Word) (s : State) : State :=
  let q : Site := [s.epoch]
  let t := forActive s fun i l => procLine s (i :: 0 :: q) x l
  let active := t.lines.take s.n
  let y := mixOut s (2 :: q) (wetSum s.cfg (1 :: q) 0 f0 active) x
  let u := matApply s (3 :: q) (active.map (·.fo))
  { t with lines := setEach setFbin u t.lines, audY := some y }

/-- PROC (R250, R251): silence while RECONF = 1, when nothing but the answer is written. The channel is ignored. -/
def execProc (_ch : Byte) (x : Word) (s : State) : Host.Outcome State Fault Refusal :=
  if s.reconf then .next { s with audY := some f0 } else .next (process x s)

end Sys2Proof.Machine
end

