-- ==== Sys2Proof/Machine/Readback.lean ====
section
/-! DEFINITION. Family: read-back commands (spec/49_readback.md): GETB, GETBS, GETC, GETCS, GETDLYS, GETMAT, GETSTAT. -/

namespace Sys2Proof.Machine

/-- R310: one value of every active line, in index order. -/
def snapshot (s : State) (f : Line → Word) : List Word := (s.lines.take s.n).map f

/-- GETB (R311). -/
def execGetb (i : Byte) (s : State) : Host.Outcome State Fault Refusal :=
  command s 0x20#8 [needsInit s, indexBelow s i] (complete s 0x20#8 [(lineAt s i.toNat).b])

/-- GETBS (R312). -/
def execGetbs (s : State) : Host.Outcome State Fault Refusal :=
  command s 0x21#8 [needsInit s] (complete s 0x21#8 (snapshot s (·.b)))

/-- GETC (R313). -/
def execGetc (i : Byte) (s : State) : Host.Outcome State Fault Refusal :=
  command s 0x22#8 [needsInit s, indexBelow s i] (complete s 0x22#8 [(lineAt s i.toNat).c])

/-- GETCS (R314). -/
def execGetcs (s : State) : Host.Outcome State Fault Refusal :=
  command s 0x23#8 [needsInit s] (complete s 0x23#8 (snapshot s (·.c)))

/-- GETDLYS (R315): the table entries as unsigned 32-bit words. -/
def execGetdlys (s : State) : Host.Outcome State Fault Refusal :=
  command s 0x24#8 [needsInit s] (complete s 0x24#8 (snapshot s fun l => BitVec.ofNat 32 l.len))

/-- GETMAT (R316). -/
def execGetmat (s : State) : Host.Outcome State Fault Refusal :=
  command s 0x25#8 [needsInit s] (complete s 0x25#8 (flatMatrix s))

/-- GETSTAT (R317): the STATUS view; LASTERR is not written. -/
def execGetstat (s : State) : Host.Outcome State Fault Refusal := .next (respond s 0x26#8 .ok [statusWord s])

end Sys2Proof.Machine
end

