-- ==== Sys2Proof/Machine/Primes.lean ====
section
/-! DEFINITION. The delay-length selection (spec/45_prime_search.md): `IsPrime` and `PrimeSearch`. -/

namespace Sys2Proof.Machine

/-- No d' >= d with d'*d' <= c divides c, looked for in at most `fuel` steps. -/
def noDivisorFrom (c : Nat) : Nat → Nat → Bool
  | 0, _ => true
  | fuel + 1, d => if c < d * d then true else if c % d = 0 then false else noDivisorFrom c fuel (d + 1)

/-- R240: `IsPrime(c)`, the correct predicate (spec/90_conflicts.md C3). -/
def isPrime (c : Nat) : Bool := decide (2 ≤ c) && noDivisorFrom c c 2

/-- R241: the primes found from candidate c on: at most `count` of them among the next `fuel` candidates. -/
def scanPrimes : Nat → Nat → Nat → List Nat
  | 0, _, _ => []
  | _ + 1, _, 0 => []
  | fuel + 1, c, count + 1 =>
    if isPrime c then c :: scanPrimes fuel (c + 1) count else scanPrimes fuel (c + 1) (count + 1)

/-- R241: the entries `PrimeSearch(low, high, count)` writes, `L[0]` first. -/
def primesIn (low high count : Nat) : List Nat := scanPrimes (high + 1 - low) low count

/-- Writes a table entry. -/
def setLen (l : Line) (p : Nat) : Line := { l with len := p }

/-- R241: `PrimeSearch(low, high, count)`: writes the table; its result is the length of `primesIn`. Entries
`L[found..NMAX-1]` are not written (R243). -/
def primeSearch (s : State) (low high count : Nat) : State := { s with lines := setEach setLen (primesIn low high count) s.lines }

end Sys2Proof.Machine
end

