-- ==== Sys2Proof/Machine/Reconfig.lean ====
section
/-! DEFINITION. Family: initialisation, order change and delay update (spec/44_init_reconfig.md): INIT, UPDORD, UPDDLY, SETDLY,
SETDLYS. INIT and UPDORD run one phase a transaction (spec/20_memory.md R91): the call of the meaning in a state whose `running`
command is this one runs its next phase. -/

namespace Sys2Proof.Machine

/-! ### Shared parts of INIT and UPDORD -/

/-- Phase 1 of INIT and UPDORD (R200, R205): `RPHASE <- 1; RECONF <- 1`, and the command is under way (log 5). -/
def beginReconfig (s : State) (i : Instr) : State := { s with rphase := 1#3, reconf := true, running := some i }

/-- The last phase of INIT and UPDORD (R200, R205): `RECONF <- 0`, RPHASE back to 0, `PrimeShort` flagged when the search was
short, and the response. -/
def endReconfig (s : State) (opc : Byte) : State :=
  completeSearch { s with reconf := false, rphase := 0#3, running := none, found := 0 } opc (decide (s.found < s.n))

/-- Draws `B[i]` then `C[i]` (R15) for `count` lines, from index `start` on; the draws left over are the second result. -/
def drawLines (q : Site) : Nat → Nat → List Line → List Word → List Line × List Word
  | _, 0, ls, ds => (ls, ds)
  | _, _ + 1, [], ds => ([], ds)
  | start, count + 1, l :: ls, ds =>
    let b := gainDraw (0 :: start :: q) ds
    let c := gainDraw (1 :: start :: q) b.2
    let rest := drawLines q (start + 1) count ls c.2
    ({ l with b := b.1, c := c.1 } :: rest.1, rest.2)

/-- R200, R205: `for i = 0 .. N-1 ascending: B[i] <- draw GainDraw(); C[i] <- draw GainDraw()`. -/
def drawGains (s : State) (q : Site) : State :=
  let r := drawLines q 0 s.n s.lines s.draws
  { s with lines := r.1, draws := r.2 }

/-- R200, R205: the prime search over the stored bounds, its result kept for the last phase. -/
def searchStored (s : State) (q : Site) : State :=
  let lo := (msToSamples s.cfg (0 :: q) s.lowMs s.fs).getD 0
  let hi := (msToSamples s.cfg (1 :: q) s.highMs s.fs).getD 0
  primeSearch { s with found := (primesIn lo hi s.n).length } lo hi s.n

/-- R200, R205: `for i = 0 .. N-1 ascending: Seed(i)`. -/
def seedActive (s : State) (q : Site) : State := forActive s fun i l => seedLine s (i :: q) l

/-! ### INIT (R200) -/

/-- R200: the validation of INIT, in the order written. -/
def initChecks (s : State) (order : Byte) (fs lowMs highMs : Word) : List (Bool × Code) :=
  let q : Site := [0, s.epoch]
  [domain (isFinite fs && isFinite lowMs && isFinite highMs),
    domain (supportedOrder s order),
    domain (flt (fmul s.cfg (0 :: q) f2 s.cfg.fFixed) fs),
    domain (flt fs f2p24),
    domain (flt f0 lowMs && fle lowMs highMs),
    domain (windowInRange (msToSamples s.cfg (1 :: q) lowMs fs) (msToSamples s.cfg (2 :: q) highMs fs))]

/-- R200, phase 2: what is cleared in every line: buffer, cursor, delay, filters, oscillator, offset, smoothing state. -/
def initLine (l : Line) : Line :=
  { dlReset l with
    w := 0, delay := f0
    ls := Filter.passThrough, hs := Filter.passThrough, fx := Filter.passThrough
    phase := f0, rate := f0, lfo := f0
    dcur := f0, dtgt := f0, dstep := f0, dcnt := 0 }

/-- R200, phase 2: the clearing of all lines, of `CM` and of the filter parameters. -/
def initClear (s : State) : State :=
  { forAll s initLine with
    cm := memCleared, lsValid := false, hsValid := false, lsT := f0, lsF := f0, hsT := f0, hsF := f0 }

/-- R200, phase 2: the operands are stored and RAMP_LEN derived. -/
def initParams (s : State) (q : Site) (order : Byte) (fs lowMs highMs : Word) : State :=
  { s with
    fs := fs, lowMs := lowMs, highMs := highMs, n := order.toNat
    rampLen := f2n (ffloor s.cfg (0 :: q) (fmul s.cfg (1 :: q) s.cfg.rampSec fs)) }

/-- R55, R200: the feedback state vectors are zeroed. -/
def zeroFeedback (l : Line) : Line := { l with fbin := f0, fo := f0 }

/-- R200, phase 2. -/
def initBody (s : State) (order : Byte) (fs lowMs highMs : Word) : State :=
  let q : Site := [s.epoch]
  let s := initParams (initClear { s with rphase := 2#3 }) (0 :: q) order fs lowMs highMs
  let s := seedActive (searchStored s (1 :: q)) (2 :: q)
  forAll { drawGains s (3 :: q) with topo := .identity } zeroFeedback

/-- R200, phase 3. -/
def initEnd (s : State) : State := endReconfig { s with rphase := 3#3, inited := true } 0x01#8

/-- INIT (R200): phase 1 after the validation, or the next phase of the INIT under way. -/
def execInit (order : Byte) (fs lowMs highMs : Word) (s : State) : Host.Outcome State Fault Refusal :=
  if s.running = some (.init order fs lowMs highMs) then
    .next (if s.rphase = 1#3 then initBody s order fs lowMs highMs else initEnd s)
  else
    command s 0x01#8 (initChecks s order fs lowMs highMs) (beginReconfig s (.init order fs lowMs highMs))

/-! ### UPDORD (R205, R206) -/

/-- R205: phase k of UPDORD, 2 <= k <= 7. -/
def updordPhase (newOrder selector : Byte) (s : State) : BitVec 3 → State
  | 2#3 => forAll { s with rphase := 2#3 } dlReset
  | 3#3 => drawGains { s with rphase := 3#3, n := newOrder.toNat } [0, s.epoch]
  | 4#3 => searchStored { s with rphase := 4#3 } [0, s.epoch]
  | 5#3 => seedActive { s with rphase := 5#3 } [0, s.epoch]
  | 6#3 => { s with rphase := 6#3, topo := topologyOf selector }
  | _ => endReconfig { s with rphase := 7#3 } 0x02#8

/-- UPDORD (R205): phase 1 after the validation, or the next phase of the UPDORD under way. -/
def execUpdord (newOrder selector : Byte) (s : State) : Host.Outcome State Fault Refusal :=
  if s.running = some (.updord newOrder selector) then .next (updordPhase newOrder selector s (s.rphase + 1#3))
  else
    command s 0x02#8 [needsInit s, domain (supportedOrder s newOrder && selectorOk selector)]
      (beginReconfig s (.updord newOrder selector))

/-! ### UPDDLY (R220) -/

/-- R220: the lower bound, 0.6 times the new upper one. -/
def lowBound (c : Cfg) (q : Site) (targetMs : Word) : Word := fmul c q c06 targetMs

/-- R220: the search window of UPDDLY, lower end first. -/
def delayWindow (s : State) (targetMs : Word) : Option Nat × Option Nat :=
  (msToSamples s.cfg [1, s.epoch] (lowBound s.cfg [0, s.epoch] targetMs) s.fs, msToSamples s.cfg [2, s.epoch] targetMs s.fs)

/-- R220: `for i = 0 .. N-1 ascending: RecomputeUser(i); StartRamp(i, u2f(L[i]))`. -/
def retargetActive (s : State) (q : Site) : State := forActive s fun i l => retarget s (i :: q) l

/-- R220: the effect of UPDDLY. -/
def updateDelay (targetMs : Word) (s : State) : State :=
  let win := delayWindow s targetMs
  let lo := win.1.getD 0
  let hi := win.2.getD 0
  let t := primeSearch { s with highMs := targetMs, lowMs := lowBound s.cfg [0, s.epoch] targetMs } lo hi s.n
  completeSearch (retargetActive t [3, s.epoch]) 0x03#8 (decide ((primesIn lo hi s.n).length < s.n))

/-- UPDDLY (R220). -/
def execUpddly (targetMs : Word) (s : State) : Host.Outcome State Fault Refusal :=
  command s 0x03#8
    [needsInit s, domain (isFinite targetMs && positive targetMs),
      domain (windowInRange (delayWindow s targetMs).1 (delayWindow s targetMs).2)]
    (updateDelay targetMs s)

/-! ### SETDLY, SETDLYS (R222, R223) -/

/-- SETDLY (R222). -/
def execSetdly (i : Byte) (ms : Word) (s : State) : Host.Outcome State Fault Refusal :=
  let n := (msToSamples s.cfg [0, s.epoch] ms s.fs).getD 0
  command s 0x04#8 [needsInit s, domain (lengthOk s.cfg [0, s.epoch] ms s.fs), indexBelow s i]
    (complete (setLine s i.toNat fun l => retarget s [1, s.epoch] (setLen l n)) 0x04#8 [])

/-- SETDLYS (R223): every element is checked before anything is written. -/
def execSetdlys (ms : List Word) (s : State) : Host.Outcome State Fault Refusal :=
  let ns := ms.map fun m => (msToSamples s.cfg [0, s.epoch] m s.fs).getD 0
  command s 0x05#8
    [needsInit s, domain (decide (ms.length = s.n)), domain (ms.all fun m => lengthOk s.cfg [0, s.epoch] m s.fs)]
    (complete (retargetActive { s with lines := setEach setLen ns s.lines } [1, s.epoch]) 0x05#8 [])

end Sys2Proof.Machine
end

