-- ==== Sys2Proof/Machine/Dispatch.lean ====
section
/-! DEFINITION. The meaning of every operation: one arm per constructor of Instr. -/

namespace Sys2Proof.Machine

def exec (i : Instr) (s : State) : Host.Outcome State Fault Refusal :=
  match i with
  | .nop => Sys2Proof.Machine.execNop s
  | .init order fs lowMs highMs => Sys2Proof.Machine.execInit order fs lowMs highMs s
  | .updord newOrder selector => Sys2Proof.Machine.execUpdord newOrder selector s
  | .upddly targetMs => Sys2Proof.Machine.execUpddly targetMs s
  | .setdly i1 ms => Sys2Proof.Machine.execSetdly i1 ms s
  | .setdlys ms => Sys2Proof.Machine.execSetdlys ms s
  | .setls t f => Sys2Proof.Machine.execSetls t f s
  | .seths t f => Sys2Proof.Machine.execSeths t f s
  | .updmod depth rate => Sys2Proof.Machine.execUpdmod depth rate s
  | .updmodl i1 depth rate => Sys2Proof.Machine.execUpdmodl i1 depth rate s
  | .setmix w => Sys2Proof.Machine.execSetmix w s
  | .settopo selector => Sys2Proof.Machine.execSettopo selector s
  | .setb i1 v => Sys2Proof.Machine.execSetb i1 v s
  | .setbs v => Sys2Proof.Machine.execSetbs v s
  | .setc i1 v => Sys2Proof.Machine.execSetc i1 v s
  | .setcs v => Sys2Proof.Machine.execSetcs v s
  | .setcell r c v => Sys2Proof.Machine.execSetcell r c v s
  | .setmat m => Sys2Proof.Machine.execSetmat m s
  | .getb i1 => Sys2Proof.Machine.execGetb i1 s
  | .getbs => Sys2Proof.Machine.execGetbs s
  | .getc i1 => Sys2Proof.Machine.execGetc i1 s
  | .getcs => Sys2Proof.Machine.execGetcs s
  | .getdlys => Sys2Proof.Machine.execGetdlys s
  | .getmat => Sys2Proof.Machine.execGetmat s
  | .getstat => Sys2Proof.Machine.execGetstat s
  | .clrerr => Sys2Proof.Machine.execClrerr s
  | .proc ch x => Sys2Proof.Machine.execProc ch x s

end Sys2Proof.Machine
end

