-- ==== Sys2Proof/Machine/Agents.lean ====
section
/-! DEFINITION. The two agents and the host (spec/20_memory.md R90, R91; spec/70_reset_and_hazards.md R379, R380): what one host event
does to the machine. -/

namespace Sys2Proof.Machine

/-- The state in which an event is handled: it has left the inbox, and every free value it uses is fresh (log 7). -/
def takeEvent (s : State) (later : List HostEvent) : State := { s with inbox := later, epoch := s.epoch + 1 }

/-- One transaction of the control agent (R91): the next phase of the command under way, else the packet at the head of `CMDQ`
(R112): a command runs, an illegal packet is consumed and rejected (R121, R122), an incomplete one is waited for (R124). -/
def controlTurn (s : State) : Host.Outcome State Fault Refusal :=
  match s.running with
  | some i => exec i s
  | none =>
    match decodePacket s.cmdq with
    | .incomplete => .next s
    | .command i rest => exec i { s with cmdq := rest }
    | .illegal opc _ rest => .next (raiseCode { s with cmdq := rest } opc .illegalCmd)

/-- One transaction of the audio agent (R91, R116). -/
def audioTurn (req : BitVec 40) (s : State) : Host.Outcome State Fault Refusal := exec (decodeAudio req) s

/-- What a host event does. -/
def handleEvent (e : HostEvent) (s : State) : Host.Outcome State Fault Refusal :=
  match e with
  | .word w => .next { s with cmdq := s.cmdq ++ [w] }
  | .audio req => audioTurn req s
  | .control => controlTurn s
  | .drain k => .next { s with rspq := s.rspq.drop k }
  | .reset => .next (hardReset s)

/-- One step: the next host event; an engine to which nothing happens holds its state (spec/60_exceptions.md R350). -/
def hostStep (s : State) : Host.Outcome State Fault Refusal :=
  match s.inbox with
  | [] => .next s
  | e :: later => handleEvent e (takeEvent s later)

/-- A request placed where the next step takes it: an audio request is presented (R110); a control packet stands at the head of
`CMDQ`, no other command is under way, and the control agent has the next turn. -/
def placeTableWord (s : State) (nbits w : Nat) : State :=
  if nbits = 40 then { s with inbox := .audio (BitVec.ofNat 40 w) :: s.inbox }
  else
    { s with
      inbox := .control :: s.inbox, cmdq := packetImage w ++ s.cmdq, running := none, rphase := 0#3 }

end Sys2Proof.Machine
end

