-- ==== Sys2Proof/Machine/Step.lean ====
section
/-! DEFINITION. One step of the machine. -/

namespace Sys2Proof.Machine

/-- One step: one host event of the inbox (log 2). -/
def step (s : State) : Host.Outcome State Fault Refusal := hostStep s

/-- The state in which the next step fetches and runs the instruction whose table bits are `w` (log 3). -/
def State.withFetchWord (s : State) (nbits w : Nat) : State := placeTableWord s nbits w

end Sys2Proof.Machine
end

