-- ==== Sys2Proof/Safety.lean ====
section
/-! DEFINITION. What a legal state of the engine is, in the terms the claims use: the constraints on the configuration, the structure
of the state, the sequencing of INIT and UPDORD, and the ranges of the values the rules bound. -/

namespace Sys2Proof.Machine

/-- The constraints of spec/00_scope.md R7 to R13 on the configuration record. -/
def cfgOk (c : Cfg) : Bool :=
  decide (1 ≤ c.nmax) && decide (c.nmax ≤ 63)
    && c.orders.all (fun m => decide (1 ≤ m) && decide (m ≤ c.nmax))
    && decide (1 ≤ c.cap) && decide (c.cap < 2 ^ 24)
    && (isFinite c.rampSec && fle f0 c.rampSec && fle c.rampSec f1)
    && (isFinite c.outAtt && flt f0 c.outAtt && fle c.outAtt f1)
    && (isFinite c.fFixed && flt f0 c.fFixed) && (isFinite c.tFixed && flt f0 c.tFixed)

/-- One line: the cursor lies in the buffer (R38), the buffer has its canonical form, the table entry converts exactly (R37). -/
def lineOk (c : Cfg) (l : Line) : Bool :=
  decide (l.w < c.buflen) && memWf c.buflen l.buf && decide (l.len < 2 ^ 24)

/-- R30, R31: there are NMAX lines, N of them at most are active, every line and the matrix store are in form. -/
def structureOk (s : State) : Bool :=
  decide (s.lines.length = s.cfg.nmax) && decide (s.n ≤ s.cfg.nmax) && s.lines.all (lineOk s.cfg)
    && memWf (s.cfg.nmax * s.cfg.nmax) s.cm

/-- The search window of a pair of millisecond bounds is valid (R200, R220); the site does not matter, no NaN leaves MsToSamples. -/
def windowOk (c : Cfg) (lowMs highMs fs : Word) : Bool := windowInRange (msToSamples c [] lowMs fs) (msToSamples c [] highMs fs)

/-- R33, R34: RPHASE, RECONF and INITED agree with the command under way. With none under way RECONF is up exactly until the first
INIT has completed. -/
def sequencerOk (s : State) : Bool :=
  match s.running with
  | none => (s.rphase == 0#3) && (s.reconf == !s.inited)
  | some (.init order fs lowMs highMs) =>
    s.reconf && (s.rphase == 1#3 || s.rphase == 2#3) && s.cfg.orders.contains order.toNat && windowOk s.cfg lowMs highMs fs
  | some (.updord newOrder _) =>
    s.reconf && s.inited && (decide (1 ≤ s.rphase.toNat) && decide (s.rphase.toNat ≤ 6)) && s.cfg.orders.contains newOrder.toNat
  | some _ => false

/-- The body of an INIT has run: INITED is set, or the INIT under way is past phase 2. -/
def initialised (s : State) : Bool :=
  s.inited || (match s.running with
    | some (.init _ _ _ _) => s.rphase == 2#3
    | _ => false)

/-- A memory has been cleared since the hardware reset: no free value is left in it. -/
def isCleared (m : Mem) : Bool := decide (m.fill = .zeros)

/-- R200, R361: what an initialised engine holds: a supported order, cleared memories, and bounds whose window is valid (R205: "`lo`
and `hi` cannot be invalid here"). -/
def initialisedOk (s : State) : Bool :=
  !initialised s ||
    (s.cfg.orders.contains s.n && windowOk s.cfg s.lowMs s.highMs s.fs && isCleared s.cm && s.lines.all fun l => isCleared l.buf)

/-- The invariant of the machine. -/
structure Inv (s : State) : Prop where
  config : cfgOk s.cfg = true
  structural : structureOk s = true
  sequencer : sequencerOk s = true
  contents : initialisedOk s = true

/-- R38: 0 <= DL[i].delay <= CAP, never NaN. R50: 0 <= OSC[i].phase < 1. -/
def lineRanges (c : Cfg) (l : Line) : Bool := fle f0 l.delay && fle l.delay (u2f c c.cap) && fle f0 l.phase && flt l.phase f1

/-- R32: 0 <= W <= 1; and the ranges of every line. -/
def Ranges (s : State) : Prop := (fle f0 s.wet && fle s.wet f1 && s.lines.all (lineRanges s.cfg)) = true

/-- The control agent is between two packets and the audio is live: the state a running engine is in most of the time. -/
def Live (s : State) : Prop := Inv s ∧ s.running = none ∧ s.inited = true

/-! ### The words of the statements -/

/-- R120: the opcode in the header of a command. `PROC` has none: it is given 0xFF, which no command has (R121). -/
def opcodeOf : Instr → Byte
  | .nop => 0x00#8
  | .init _ _ _ _ => 0x01#8
  | .updord _ _ => 0x02#8
  | .upddly _ => 0x03#8
  | .setdly _ _ => 0x04#8
  | .setdlys _ => 0x05#8
  | .setls _ _ => 0x06#8
  | .seths _ _ => 0x07#8
  | .updmod _ _ => 0x08#8
  | .updmodl _ _ _ => 0x09#8
  | .setmix _ => 0x0A#8
  | .settopo _ => 0x0B#8
  | .setb _ _ => 0x10#8
  | .setbs _ => 0x11#8
  | .setc _ _ => 0x12#8
  | .setcs _ => 0x13#8
  | .setcell _ _ _ => 0x14#8
  | .setmat _ => 0x15#8
  | .getb _ => 0x20#8
  | .getbs => 0x21#8
  | .getc _ => 0x22#8
  | .getcs => 0x23#8
  | .getdlys => 0x24#8
  | .getmat => 0x25#8
  | .getstat => 0x26#8
  | .clrerr => 0x27#8
  | .proc _ _ => 0xFF#8

/-- R113 to R115, R120: for each opcode, the header bits that must be zero and the number of payload words (`none`: LEN of them). -/
def headerForms : List (Byte × Word × Option Nat) := [
  (0x00#8, 0x00FFFFFF#32, some 0), (0x01#8, 0x0000FFFF#32, some 3), (0x02#8, 0x000000FF#32, some 0),
  (0x03#8, 0x00FFFFFF#32, some 1), (0x04#8, 0x0000FFFF#32, some 1), (0x05#8, 0x00FFF000#32, none),
  (0x06#8, 0x00FFFFFF#32, some 2), (0x07#8, 0x00FFFFFF#32, some 2), (0x08#8, 0x00FFFFFF#32, some 2),
  (0x09#8, 0x0000FFFF#32, some 2), (0x0A#8, 0x00FFFFFF#32, some 1), (0x0B#8, 0x00FF00FF#32, some 0),
  (0x10#8, 0x0000FFFF#32, some 1), (0x11#8, 0x00FFF000#32, none), (0x12#8, 0x0000FFFF#32, some 1),
  (0x13#8, 0x00FFF000#32, none), (0x14#8, 0x000000FF#32, some 1), (0x15#8, 0x00FFF000#32, none),
  (0x20#8, 0x0000FFFF#32, some 0), (0x21#8, 0x00FFFFFF#32, some 0), (0x22#8, 0x0000FFFF#32, some 0),
  (0x23#8, 0x00FFFFFF#32, some 0), (0x24#8, 0x00FFFFFF#32, some 0), (0x25#8, 0x00FFFFFF#32, some 0),
  (0x26#8, 0x00FFFFFF#32, some 0), (0x27#8, 0x00FFFFFF#32, some 0)]

/-- R334: the commands accepted in every state, and `PROC`, which the rule does not speak of. -/
def acceptedBeforeInit : Instr → Bool
  | .init _ _ _ _ | .nop | .getstat | .clrerr | .proc _ _ => true
  | .updord _ _ | .upddly _ | .setdly _ _ | .setdlys _ | .setls _ _ | .seths _ _ | .updmod _ _ | .updmodl _ _ _ | .setmix _
  | .settopo _ | .setb _ _ | .setbs _ | .setc _ _ | .setcs _ | .setcell _ _ _ | .setmat _ | .getb _ | .getbs | .getc _
  | .getcs | .getdlys | .getmat => false

/-- The state in which the machine handles the event at the head of its inbox (log 2, log 7). -/
def handling (s : State) (later : List HostEvent) : State := { s with inbox := later, epoch := s.epoch + 1 }

/-- R332: what a rejection with code number n of the command with opcode `opc` leaves. -/
def rejectedAs (s : State) (opc : Byte) (n : Nat) : State :=
  { s with
    err := s.err ||| BitVec.ofNat 5 (2 ^ (n - 1)), lastErr := BitVec.ofNat 8 n
    rspq := s.rspq ++ [opc ++ 0#12 ++ 0#4 ++ BitVec.ofNat 8 n] }

/-- R118, R332: a command that completes in the state s with data words. -/
def answeredOk (s : State) (opc : Byte) (data : List Word) : State :=
  { s with lastErr := 0#8, rspq := s.rspq ++ ((opc ++ BitVec.ofNat 12 data.length ++ 0#4 ++ 0#8) :: data) }

/-- R21, R118: a command that completes with `PrimeShort` in the state s. -/
def answeredShort (s : State) (opc : Byte) : State :=
  { s with err := s.err ||| 0b10000#5, lastErr := 5#8, rspq := s.rspq ++ [opc ++ 0#12 ++ 0#4 ++ 5#8] }

/-- The lines of s, the active ones changed. -/
def activeLines (s : State) (f : Nat → Line → Line) : List Line := s.lines.mapIdx fun i l => if i < s.n then f i l else l

/-- The lines of s, given one value each from line 0 on. -/
def givenLines {α : Type} (s : State) (f : Line → α → Line) (vs : List α) : List Line :=
  s.lines.mapIdx fun i l => match vs[i]? with
    | some v => f l v
    | none => l

/-- R240: a prime number. -/
def PrimeNumber (c : Nat) : Prop := 2 ≤ c ∧ ∀ d, 2 ≤ d → d * d ≤ c → ¬d ∣ c

/-- R202: ms * fs / 1000, before it is floored; the site does not matter where it is valid. -/
def samplesExact (c : Cfg) (ms fs : Word) : Word := fdiv c [] (fmul c [] ms fs) 0x447A0000#32

/-- R202: `MsToSamples(ms, fs)` is not `invalid`. -/
def samplesValid (c : Cfg) (ms fs : Word) : Prop := isFinite (samplesExact c ms fs) = true ∧ flt (samplesExact c ms fs) f0 = false

/-- R202: the number of samples of a length in milliseconds, 0 where it is invalid (log 6). -/
def samplesOf (c : Cfg) (ms fs : Word) : Nat :=
  if isFinite (samplesExact c ms fs) && !flt (samplesExact c ms fs) f0 then f2n (ffloor c [] (samplesExact c ms fs)) else 0

/-- R200: the operands INIT accepts. -/
def initAccepts (c : Cfg) (order : Byte) (fs lowMs highMs : Word) : Prop :=
  isFinite fs = true ∧ isFinite lowMs = true ∧ isFinite highMs = true ∧ order.toNat ∈ c.orders
    ∧ flt (fmul c [] f2 c.fFixed) fs = true ∧ flt fs f2p24 = true ∧ flt f0 lowMs = true ∧ fle lowMs highMs = true
    ∧ samplesValid c lowMs fs ∧ samplesValid c highMs fs
    ∧ 1 ≤ samplesOf c highMs fs ∧ samplesOf c highMs fs < 2 ^ 24

/-- R222: a length in milliseconds that SETDLY accepts. -/
def lengthAccepted (c : Cfg) (ms fs : Word) : Prop :=
  isFinite ms = true ∧ flt f0 ms = true ∧ samplesValid c ms fs ∧ 1 ≤ samplesOf c ms fs ∧ samplesOf c ms fs < 2 ^ 24

/-- R290, R291: the operands SETLS and SETHS accept. -/
def shelfAccepted (c : Cfg) (t f fs : Word) : Prop :=
  isFinite t = true ∧ isFinite f = true ∧ flt f0 t = true ∧ flt f0 f = true ∧ flt (fmul c [] f2 f) fs = true

/-- R144 to R147: v is the interpolation of the line's taps at its effective delay, under the configured kernel. -/
def Popped (c : Cfg) (l : Line) (v : Word) : Prop :=
  ∃ q : Nat → Site,
    let whole := ffloor c (q 0) l.delay
    let part := fsub c (q 1) l.delay whole
    let n := f2n whole
    let s : Nat → Word := fun k => memRead l.buf ((l.w + (c.cap + 3) - k) % (c.cap + 3))
    match c.kernel with
    | .linear => v = fadd c (q 2) (s n) (fmul c (q 3) part (fsub c (q 4) (s (n + 1)) (s n)))
    | .lagrange3 =>
      let base := n - 1
      let dl := if n = 0 then part else fadd c (q 2) part 0x3F800000#32
      let d1 := fsub c (q 3) dl 0x3F800000#32
      let d2 := fsub c (q 4) dl 0x40000000#32
      let d3 := fsub c (q 5) dl 0x40400000#32
      let c1 := fdiv c (q 6) (fmul c (q 7) (fmul c (q 8) (d1 ^^^ 0x80000000#32) d2) d3) 0x40C00000#32
      let c2 := fmul c (q 9) (fmul c (q 10) d2 d3) 0x3F000000#32
      let c3 := fmul c (q 11) (fmul c (q 12) (d1 ^^^ 0x80000000#32) d3) 0x3F000000#32
      let c4 := fdiv c (q 13) (fmul c (q 14) d1 d2) 0x40C00000#32
      v = fadd c (q 15) (fmul c (q 16) (s base) c1) (fmul c (q 17) dl (fadd c (q 18)
        (fadd c (q 19) (fmul c (q 20) (s (base + 1)) c2) (fmul c (q 21) (s (base + 2)) c3)) (fmul c (q 22) (s (base + 3)) c4)))

/-- R167: y is the output of the filter f for the input x. -/
def Filtered (c : Cfg) (f : Filter) (x y : Word) : Prop :=
  ∃ q1 q2 q3 q4 q5 : Site,
    y = fsub c q1 (fadd c q2 (fmul c q3 f.b0 x) (fmul c q4 f.b1 f.x1)) (fmul c q5 f.a1 f.y1)

/-- R250: the work of one line in a `PROC` that is not silent: a ramp step, a push, a pop and the three filters; the sites of the
free NaN payloads are left open. -/
def ProcLine (s : State) (x : Word) (l l' : Line) : Prop :=
  ∃ (q1 q2 q3 : Site) (v y1 y2 y3 : Word),
    let r := rampStep s q1 l
    let p := { r with buf := memWrite l.buf l.w (fadd s.cfg q2 (fmul s.cfg q3 l.b x) l.fbin) }
    Popped s.cfg p v ∧ Filtered s.cfg r.ls v y1 ∧ Filtered s.cfg r.hs y1 y2 ∧ Filtered s.cfg r.fx y2 y3 ∧
      l' = { p with
        w := (l.w + 1) % (s.cfg.cap + 3)
        ls := { r.ls with x1 := v, y1 := y1 }
        hs := { r.hs with x1 := y1, y1 := y2 }
        fx := { r.fx with x1 := y2, y1 := y3 }
        fo := y3 }

/-- R161: g is `ShelfGain(T, lsamp, fs)`. -/
def GainIs (c : Cfg) (t lsamp fs g : Word) : Prop :=
  ∃ q1 q2 q3 q4 : Site,
    g = numPow c (numPow c 0x41200000#32 (fdiv c q1 (fdiv c q2 0xC2700000#32 (fmul c q3 t fs)) 0x41A00000#32)) (ffloor c q4 lsamp)

/-- R162: t is `ShelfTan(f, fs)`. -/
def TanIs (c : Cfg) (f fs t : Word) : Prop := ∃ q1 q2 : Site, t = numTan c (fdiv c q1 (fmul c q2 0x40490FDB#32 f) fs)

/-- R163: the low-shelf coefficients of a gain g and a tangent t. -/
def LowFormula (c : Cfg) (g t : Word) (k : Coeffs) : Prop :=
  ∃ q : Nat → Site,
    let inv := fdiv c (q 0) 0x3F800000#32 (fadd c (q 1) 0x3F800000#32 t)
    let gt := fmul c (q 2) g t
    k = (fmul c (q 3) (fadd c (q 4) 0x3F800000#32 gt) inv, fmul c (q 5) (fsub c (q 6) gt 0x3F800000#32) inv,
      fmul c (q 7) (fsub c (q 8) t 0x3F800000#32) inv)

/-- R164: the high-shelf coefficients of a gain g and a tangent t. -/
def HighFormula (c : Cfg) (g t : Word) (k : Coeffs) : Prop :=
  ∃ q : Nat → Site,
    let r := fsqrt c (q 0) g
    let rt := fmul c (q 1) r t
    let rr := fmul c (q 2) r r
    let inv := fdiv c (q 3) 0x3F800000#32 (fadd c (q 4) rt 0x3F800000#32)
    k = (fmul c (q 5) (fadd c (q 6) rt rr) inv, fmul c (q 7) (fsub c (q 8) rt rr) inv,
      fmul c (q 9) (fsub c (q 10) rt 0x3F800000#32) inv)

/-- R70: every register of the state at its reset value, both memories unspecified, both queues empty. -/
def AtReset (s : State) : Prop :=
  s.fs = 0#32 ∧ s.n = 0 ∧ s.lowMs = 0#32 ∧ s.highMs = 0#32 ∧ s.wet = 0#32 ∧ s.modDepth = 0#32 ∧ s.modRate = 0#32
    ∧ s.lsT = 0#32 ∧ s.lsF = 0#32 ∧ s.hsT = 0#32 ∧ s.hsF = 0#32 ∧ s.rampLen = 0 ∧ s.lsValid = false ∧ s.hsValid = false
    ∧ s.topo = .identity ∧ s.reconf = true ∧ s.inited = false ∧ s.err = 0#5 ∧ s.lastErr = 0#8 ∧ s.rphase = 0#3
    ∧ s.cmdq = [] ∧ s.rspq = [] ∧ s.running = none
    ∧ s.lines.length = s.cfg.nmax
    ∧ (∃ q, s.cm = ⟨.powerOn q, []⟩)
    ∧ ∀ l ∈ s.lines, l.b = 0#32 ∧ l.c = 0#32 ∧ l.len = 0 ∧ l.w = 0 ∧ l.delay = 0#32 ∧ l.dcur = 0#32 ∧ l.dtgt = 0#32
      ∧ l.dstep = 0#32 ∧ l.dcnt = 0 ∧ l.lfo = 0#32
      ∧ l.ls = ⟨0x3F800000#32, 0#32, 0#32, 0#32, 0#32⟩ ∧ l.hs = ⟨0x3F800000#32, 0#32, 0#32, 0#32, 0#32⟩
      ∧ l.fx = ⟨0x3F800000#32, 0#32, 0#32, 0#32, 0#32⟩
      ∧ l.phase = 0#32 ∧ l.rate = 0#32 ∧ l.fo = 0#32 ∧ l.fbin = 0#32 ∧ ∃ q, l.buf = ⟨.powerOn q, []⟩

end Sys2Proof.Machine
end

