-- ==== Sys2Proof/Certificates/Slice0/Obligations.lean ====
section
/-! DEFINITION. The statements for the provers. A free value is never named in them: a site that only chooses the payload of a NaN is
bound by a quantifier. -/

open Sys2Proof Sys2Proof.Machine

/-! ### Encoding -/

/-- R112 to R116, R120: decoding the words of a well-formed instruction gives it back, whatever words follow. -/
def Obligations.DecodeEncodeRoundTrip : Prop :=
  ∀ i : Instr, i.wf = true →
    decodeRequest (encode i) = some i ∧ ∀ ws, encode i = .packet ws → ∀ later, decodePacket (ws ++ later) = .command i later

/-- R112 to R116, R120: a packet that decodes to an instruction is the encoding of that instruction; so is every audio request. -/
def Obligations.DecodedWordsAreEncodings : Prop :=
  (∀ q i later, decodePacket q = .command i later → i.wf = true ∧ ∃ ws, encode i = .packet ws ∧ q = ws ++ later) ∧
    ∀ req, encode (decodeAudio req) = .audio req

/-- Words printed in the examples of R200, R205, R220, R280, R294, R295, R272, R281 and R311. -/
def Obligations.SpecWordsDecode : Prop :=
  decodePacket [0x01020000#32, 0x473B8000#32, 0x3E800000#32, 0x3F000000#32] =
      .command (.init 2#8 0x473B8000#32 0x3E800000#32 0x3F000000#32) [] ∧
    decodePacket [0x02200000#32] = .command (.updord 32#8 0#8) [] ∧
    decodePacket [0x03000000#32, 0x3F800000#32] = .command (.upddly 0x3F800000#32) [] ∧
    decodePacket [0x10010000#32, 0xBF400000#32] = .command (.setb 1#8 0xBF400000#32) [] ∧
    decodePacket [0x0B000100#32] = .command (.settopo 1#8) [] ∧
    decodePacket [0x14010000#32, 0x3F000000#32] = .command (.setcell 1#8 0#8 0x3F000000#32) [] ∧
    decodePacket [0x09010000#32, 0xC1A00000#32, 0x463B8000#32] = .command (.updmodl 1#8 0xC1A00000#32 0x463B8000#32) [] ∧
    decodePacket [0x11000002#32, 0x3F000000#32, 0x3E800000#32] = .command (.setbs [0x3F000000#32, 0x3E800000#32]) [] ∧
    decodePacket [0x20010000#32] = .command (.getb 1#8) []

/-- R121: a header with an unknown opcode is consumed alone and rejected with `IllegalCmd`. The inbox and the epoch are the model's
own (log 2, log 7, DESIGN CHOICE). -/
def Obligations.UnknownOpcodeRejected : Prop :=
  ∀ (s : State) (later : List HostEvent) (h : Word) (ws : List Word),
    s.inbox = .control :: later → s.running = none → s.cmdq = h :: ws →
    ((0x0C ≤ h.toNat / 2 ^ 24 ∧ h.toNat / 2 ^ 24 ≤ 0x0F) ∨ (0x16 ≤ h.toNat / 2 ^ 24 ∧ h.toNat / 2 ^ 24 ≤ 0x1F) ∨
      0x28 ≤ h.toNat / 2 ^ 24) →
    step s = .next (rejectedAs { handling s later with cmdq := ws } (BitVec.ofNat 8 (h.toNat / 2 ^ 24)) 1)

/-- R122: a known opcode with a must-be-zero bit set: the whole packet is consumed and rejected with `IllegalCmd`. The inbox and the
epoch are the model's own (log 2, log 7, DESIGN CHOICE). -/
def Obligations.ReservedFieldRejected : Prop :=
  ∀ (s : State) (later : List HostEvent) (h : Word) (payload ws : List Word) (opc : Byte) (mbz : Word) (p : Option Nat),
    s.inbox = .control :: later → s.running = none → s.cmdq = h :: (payload ++ ws) →
    (opc, mbz, p) ∈ headerForms → h.toNat / 2 ^ 24 = opc.toNat → h &&& mbz ≠ 0#32 →
    payload.length = p.getD (h.toNat % 2 ^ 12) →
    step s = .next (rejectedAs { handling s later with cmdq := ws } opc 1)

/-- R112: a packet whose last word has not been received changes nothing; the control agent waits. -/
def Obligations.PartialPacketWaits : Prop :=
  ∀ (s : State) (later : List HostEvent), s.inbox = .control :: later → s.running = none →
    (s.cmdq = [] ∨ ∃ h ws opc mbz p, s.cmdq = h :: ws ∧ (opc, mbz, p) ∈ headerForms ∧ h.toNat / 2 ^ 24 = opc.toNat ∧
      ws.length < p.getD (h.toNat % 2 ^ 12)) →
    step s = .next (handling s later)

/-! ### Steps -/

/-- R91, R112: the control agent's turn: the command to which the packet at the head of `CMDQ` decodes; while INIT or UPDORD is
under way its next phase, and no packet is taken. -/
def Obligations.StepRunsDecodedCommand : Prop :=
  (∀ (s : State) (later : List HostEvent) (i : Instr) (rest : List Word), s.inbox = .control :: later → s.running = none →
    decodePacket s.cmdq = .command i rest → step s = exec i { handling s later with cmdq := rest }) ∧
  ∀ (s : State) (later : List HostEvent) (i : Instr), s.inbox = .control :: later → s.running = some i →
    step s = exec i (handling s later)

/-- R91, R116: a request on the audio port is a `PROC`. -/
def Obligations.StepRunsAudioRequest : Prop :=
  ∀ (s : State) (later : List HostEvent) (ch : Byte) (x : Word), s.inbox = .audio (ch ++ x) :: later →
    step s = exec (.proc ch x) (handling s later)

/-- R18, R339: no step faults and none is refused. -/
def Obligations.EveryStepAnswersNext : Prop := ∀ s : State, ∃ t, step s = .next t

/-- The host's events (log 2): a word written to `CMDQ`, words read from `RSPQ`; R350: an idle engine holds its state. -/
def Obligations.HostQueueEvents : Prop :=
  (∀ s : State, s.inbox = [] → step s = .next s) ∧
    (∀ (s : State) later w, s.inbox = .word w :: later → step s = .next { handling s later with cmdq := s.cmdq ++ [w] }) ∧
    ∀ (s : State) later (taken left : List Word), s.inbox = .drain taken.length :: later → s.rspq = taken ++ left →
      step s = .next { handling s later with rspq := left }

/-- R70, R360: what the reset input leaves, at power-up and at any later time, and what such an engine does: it answers every
`PROC` with +0.0 and refuses every command that needs `INITED` (R334). The reset event, which is taken in any state, the inbox and
the configuration that a reset keeps are the model's own (log 2, log 4, log 1); so are the command under way, none after a reset
(log 5), and the free values that stand for the unspecified memories (log 11). -/
def Obligations.ResetState : Prop :=
  AtReset State.reset ∧
    (∀ (s : State) later, s.inbox = .reset :: later → ∃ t, step s = .next t ∧ AtReset t ∧ t.cfg = s.cfg ∧ t.inbox = later) ∧
    ∀ s : State, AtReset s →
      (∀ ch x, exec (.proc ch x) s = .next { s with audY := some 0#32 }) ∧
      ∀ i, acceptedBeforeInit i = false → exec i s = .next (rejectedAs s (opcodeOf i) 2)

/-! ### Rejections and responses -/

/-- R334: before the first INIT has completed, every command but INIT, NOP, GETSTAT and CLRERR is rejected with `NotInit`, and those
three are answered; no operation clears INITED. -/
def Obligations.CommandsNeedInit : Prop :=
  (∀ (i : Instr) (s : State), acceptedBeforeInit i = false → s.inited = false → s.running = none →
    exec i s = .next (rejectedAs s (opcodeOf i) 2)) ∧
  (∀ (i : Instr) (s : State), i = .nop ∨ i = .getstat ∨ i = .clrerr → ∃ t data,
    exec i s = .next t ∧ t.rspq = s.rspq ++ (opcodeOf i ++ BitVec.ofNat 12 data.length ++ 0#12) :: data) ∧
  ∀ (i : Instr) (s t : State), s.inited = true → exec i s = .next t → t.inited = true

/-- R21, R332: a command that ends with the code of a rejection has written the sticky flag, LASTERR and one response word, and
nothing else. -/
def Obligations.RejectionIsAtomic : Prop :=
  ∀ (i : Instr) (s t : State), (∀ ch x, i ≠ .proc ch x) → i ≠ .getstat → s.running = none → exec i s = .next t →
    t.running = none → t.lastErr = 2#8 ∨ t.lastErr = 3#8 ∨ t.lastErr = 4#8 →
    t = rejectedAs s (opcodeOf i) t.lastErr.toNat

/-- R332, R340: only CLRERR clears an `ERR` bit; a bit is set together with its code in LASTERR; no code above 5 is produced. -/
def Obligations.ErrorFlagsSticky : Prop :=
  ∀ (i : Instr) (s t : State), exec i s = .next t →
    (t.err = s.err ∧ (t.lastErr = s.lastErr ∨ t.lastErr = 0#8)) ∨
    (i = .clrerr ∧ t.err = 0#5 ∧ t.lastErr = 0#8) ∨
    ∃ n, 2 ≤ n ∧ n ≤ 5 ∧ t.err = s.err ||| BitVec.ofNat 5 (2 ^ (n - 1)) ∧ t.lastErr = BitVec.ofNat 8 n

/-- R118: a command that ends appends one response packet: the opcode, the number of data words and the code in the header, then
the data words; a code other than 0 carries no data. `PROC` produces no response. -/
def Obligations.OneResponsePerCommand : Prop :=
  ∀ (i : Instr) (s t : State), s.n ≤ 63 → exec i s = .next t →
    ((∃ ch x, i = .proc ch x) → t.rspq = s.rspq) ∧
    ((∀ ch x, i ≠ .proc ch x) →
      (t.running = some i ∧ t.rspq = s.rspq) ∨
      ∃ (data : List Word) (code : Byte), data.length < 4096 ∧ (code ≠ 0#8 → data = []) ∧
        t.rspq = s.rspq ++ (opcodeOf i ++ BitVec.ofNat 12 data.length ++ 0#4 ++ code) :: data)

/-- R32, the column "written by": each global register is written by the operations the table names and by no other. -/
def Obligations.GlobalRegisterWriters : Prop :=
  ∀ (i : Instr) (s t : State), exec i s = .next t →
    (t.fs ≠ s.fs → opcodeOf i = 0x01#8) ∧
    (t.n ≠ s.n → opcodeOf i ∈ [0x01#8, 0x02#8]) ∧
    (t.lowMs ≠ s.lowMs ∨ t.highMs ≠ s.highMs → opcodeOf i ∈ [0x01#8, 0x03#8]) ∧
    (t.wet ≠ s.wet → opcodeOf i = 0x0A#8) ∧
    (t.modDepth ≠ s.modDepth ∨ t.modRate ≠ s.modRate → opcodeOf i = 0x08#8) ∧
    (t.lsT ≠ s.lsT ∨ t.lsF ≠ s.lsF ∨ t.lsValid ≠ s.lsValid → opcodeOf i ∈ [0x01#8, 0x06#8]) ∧
    (t.hsT ≠ s.hsT ∨ t.hsF ≠ s.hsF ∨ t.hsValid ≠ s.hsValid → opcodeOf i ∈ [0x01#8, 0x07#8]) ∧
    (t.rampLen ≠ s.rampLen → opcodeOf i = 0x01#8) ∧
    (t.topo ≠ s.topo → opcodeOf i ∈ [0x01#8, 0x02#8, 0x0B#8]) ∧
    (t.reconf ≠ s.reconf ∨ t.rphase ≠ s.rphase → opcodeOf i ∈ [0x01#8, 0x02#8]) ∧
    (t.inited ≠ s.inited → opcodeOf i = 0x01#8 ∧ t.inited = true) ∧
    (t.err ≠ s.err ∨ t.lastErr ≠ s.lastErr → opcodeOf i ∉ [0x26#8, 0xFF#8]) ∧
    t.cfg = s.cfg ∧ t.cmdq = s.cmdq ∧ t.inbox = s.inbox ∧ t.epoch = s.epoch

/-- R36 to R40, R45, R46, R50, R55, R60, R165, R166: each register of a line, the coefficients and the history of its filters among
them, and its buffer are written by the operations the rules name and by no other; the lines stay NMAX in number. -/
def Obligations.LineRegisterWriters : Prop :=
  ∀ (i : Instr) (s t : State), exec i s = .next t → t.lines.length = s.lines.length ∧
    ∀ (j : Nat) (l l' : Line), s.lines[j]? = some l → t.lines[j]? = some l' →
      (l'.b ≠ l.b → opcodeOf i ∈ [0x01#8, 0x02#8, 0x10#8, 0x11#8]) ∧
      (l'.c ≠ l.c → opcodeOf i ∈ [0x01#8, 0x02#8, 0x12#8, 0x13#8]) ∧
      (l'.len ≠ l.len → opcodeOf i ∈ [0x01#8, 0x02#8, 0x03#8, 0x04#8, 0x05#8]) ∧
      (l'.w ≠ l.w → opcodeOf i ∈ [0x01#8, 0xFF#8]) ∧
      (l'.delay ≠ l.delay → opcodeOf i ∈ [0x01#8, 0x02#8, 0x03#8, 0x04#8, 0x05#8, 0x08#8, 0x09#8, 0xFF#8]) ∧
      (l'.dcur ≠ l.dcur ∨ l'.dcnt ≠ l.dcnt → opcodeOf i ∈ [0x01#8, 0x02#8, 0x03#8, 0x04#8, 0x05#8, 0xFF#8]) ∧
      (l'.dtgt ≠ l.dtgt ∨ l'.dstep ≠ l.dstep → opcodeOf i ∈ [0x01#8, 0x02#8, 0x03#8, 0x04#8, 0x05#8]) ∧
      (l'.lfo ≠ l.lfo → opcodeOf i ∈ [0x01#8, 0x02#8, 0x08#8, 0x09#8]) ∧
      (l'.phase ≠ l.phase ∨ l'.rate ≠ l.rate → opcodeOf i ∈ [0x01#8, 0x08#8, 0x09#8]) ∧
      (l'.fo ≠ l.fo ∨ l'.fbin ≠ l.fbin → opcodeOf i ∈ [0x01#8, 0xFF#8]) ∧
      ((l'.ls.x1, l'.ls.y1, l'.hs.x1, l'.hs.y1, l'.fx.x1, l'.fx.y1) ≠ (l.ls.x1, l.ls.y1, l.hs.x1, l.hs.y1, l.fx.x1, l.fx.y1) →
        opcodeOf i ∈ [0x01#8, 0xFF#8]) ∧
      ((l'.ls.b0, l'.ls.b1, l'.ls.a1) ≠ (l.ls.b0, l.ls.b1, l.ls.a1) ∨ (l'.hs.b0, l'.hs.b1, l'.hs.a1) ≠ (l.hs.b0, l.hs.b1, l.hs.a1) →
        opcodeOf i ∈ [0x01#8, 0x02#8, 0x03#8, 0x04#8, 0x05#8, 0x06#8, 0x07#8]) ∧
      ((l'.fx.b0, l'.fx.b1, l'.fx.a1) ≠ (l.fx.b0, l.fx.b1, l.fx.a1) →
        opcodeOf i ∈ [0x01#8, 0x02#8, 0x03#8, 0x04#8, 0x05#8, 0xFF#8]) ∧
      (l'.buf ≠ l.buf → opcodeOf i ∈ [0x01#8, 0x02#8, 0xFF#8])

/-- R81: every operation but INIT, SETCELL and SETMAT leaves every word of the matrix store, and every operation but INIT, UPDORD
and PROC every word of every delay buffer. -/
def Obligations.MemoryWriters : Prop :=
  ∀ (i : Instr) (s t : State), exec i s = .next t →
    (opcodeOf i ∉ [0x01#8, 0x14#8, 0x15#8] → ∀ k, memRead t.cm k = memRead s.cm k) ∧
    (opcodeOf i ∉ [0x01#8, 0x02#8, 0xFF#8] → ∀ j k, readDelayWord t j k = readDelayWord s j k)

/-! ### Parameter commands -/

/-- SETB and SETC (R280, R282): the whole next state, for every state and operand. -/
def Obligations.SetGain : Prop :=
  ∀ (s : State) (i : Byte) (v : Word),
    exec (.setb i v) s = .next (
      if s.inited = false then rejectedAs s 0x10#8 2
      else if isFinite v = false then rejectedAs s 0x10#8 3
      else if s.n ≤ i.toNat then rejectedAs s 0x10#8 4
      else answeredOk { s with lines := s.lines.modify i.toNat fun l => { l with b := v } } 0x10#8 []) ∧
    exec (.setc i v) s = .next (
      if s.inited = false then rejectedAs s 0x12#8 2
      else if isFinite v = false then rejectedAs s 0x12#8 3
      else if s.n ≤ i.toNat then rejectedAs s 0x12#8 4
      else answeredOk { s with lines := s.lines.modify i.toNat fun l => { l with c := v } } 0x12#8 [])

/-- SETBS and SETCS (R281, R283, R123): the whole next state. -/
def Obligations.SetGains : Prop :=
  ∀ (s : State) (v : List Word),
    exec (.setbs v) s = .next (
      if s.inited = false then rejectedAs s 0x11#8 2
      else if v.length ≠ s.n then rejectedAs s 0x11#8 3
      else if v.all isFinite = true then answeredOk { s with lines := givenLines s (fun l x => { l with b := x }) v } 0x11#8 []
      else rejectedAs s 0x11#8 3) ∧
    exec (.setcs v) s = .next (
      if s.inited = false then rejectedAs s 0x13#8 2
      else if v.length ≠ s.n then rejectedAs s 0x13#8 3
      else if v.all isFinite = true then answeredOk { s with lines := givenLines s (fun l x => { l with c := x }) v } 0x13#8 []
      else rejectedAs s 0x13#8 3)

/-- SETMIX (R288): the whole next state; under the default numerics -0.0 is stored as +0.0 and every other accepted fraction as it
is, under any other record (R14, log 23) what its `fadd` makes of the fraction and +0.0. -/
def Obligations.SetMix : Prop :=
  ∀ (s : State) (w : Word), ∃ q : Site,
    exec (.setmix w) s = .next (
      if s.inited = false then rejectedAs s 0x0A#8 2
      else if isFinite w = true ∧ fle 0x00000000#32 w = true ∧ fle w 0x3F800000#32 = true then
        answeredOk { s with
          wet := if s.cfg.num.ieee = false then fadd s.cfg q w 0x00000000#32
            else if w = 0x80000000#32 then 0x00000000#32 else w } 0x0A#8 []
      else rejectedAs s 0x0A#8 3)

/-- SETLS and SETHS (R290, R291, R165): the parameters are stored and the user shelves of every active line recomputed from its
table entry. -/
def Obligations.SetShelf : Prop :=
  ∀ (s : State) (t f : Word),
    (s.inited = false → exec (.setls t f) s = .next (rejectedAs s 0x06#8 2) ∧ exec (.seths t f) s = .next (rejectedAs s 0x07#8 2)) ∧
    (s.inited = true → ¬shelfAccepted s.cfg t f s.fs →
      exec (.setls t f) s = .next (rejectedAs s 0x06#8 3) ∧ exec (.seths t f) s = .next (rejectedAs s 0x07#8 3)) ∧
    (s.inited = true → shelfAccepted s.cfg t f s.fs → ∃ q q' : Nat → Site,
      exec (.setls t f) s = .next (answeredOk { s with
        lsT := t, lsF := f, lsValid := true
        lines := activeLines s fun i l => { l with
          ls := setCoeffs (shelfLow s.cfg (q i) t f (u2f s.cfg l.len) s.fs) l.ls
          hs := if s.hsValid then setCoeffs (shelfHigh s.cfg (q' i) s.hsT s.hsF (u2f s.cfg l.len) s.fs) l.hs else l.hs } } 0x06#8 []) ∧
      exec (.seths t f) s = .next (answeredOk { s with
        hsT := t, hsF := f, hsValid := true
        lines := activeLines s fun i l => { l with
          ls := if s.lsValid then setCoeffs (shelfLow s.cfg (q i) s.lsT s.lsF (u2f s.cfg l.len) s.fs) l.ls else l.ls
          hs := setCoeffs (shelfHigh s.cfg (q' i) t f (u2f s.cfg l.len) s.fs) l.hs } } 0x07#8 []))

/-- SETTOPO (R294): the whole next state. -/
def Obligations.SetTopology : Prop :=
  ∀ (s : State) (selector : Byte),
    exec (.settopo selector) s = .next (
      if s.inited = false then rejectedAs s 0x0B#8 2
      else if selector = 0#8 then answeredOk { s with topo := .identity } 0x0B#8 []
      else if selector = 1#8 then answeredOk { s with topo := .custom } 0x0B#8 []
      else rejectedAs s 0x0B#8 3)

/-- SETCELL (R295, R82): an accepted command writes the one word r*NMAX + c of the matrix store; every other word, and everything
else, is as before. -/
def Obligations.SetCell : Prop :=
  ∀ (s : State) (r c : Byte) (v : Word), memWf (s.cfg.nmax * s.cfg.nmax) s.cm = true →
    (s.inited = false → exec (.setcell r c v) s = .next (rejectedAs s 0x14#8 2)) ∧
    (s.inited = true → isFinite v = false → exec (.setcell r c v) s = .next (rejectedAs s 0x14#8 3)) ∧
    (s.inited = true → isFinite v = true → s.n ≤ r.toNat ∨ s.n ≤ c.toNat →
      exec (.setcell r c v) s = .next (rejectedAs s 0x14#8 4)) ∧
    (s.inited = true → isFinite v = true → r.toNat < s.n → c.toNat < s.n →
      ∃ m : Mem, exec (.setcell r c v) s = .next (answeredOk { s with cm := m } 0x14#8 []) ∧
        ∀ k, memRead m k = if k = r.toNat * s.cfg.nmax + c.toNat then v else memRead s.cm k)

/-- SETMAT (R296, R82): an accepted command writes word k of its payload to cell (k div N, k mod N); every cell outside the N by N
corner, and everything else, is as before. -/
def Obligations.SetMatrix : Prop :=
  ∀ (s : State) (m : List Word), s.n ≤ s.cfg.nmax → memWf (s.cfg.nmax * s.cfg.nmax) s.cm = true →
    (s.inited = false → exec (.setmat m) s = .next (rejectedAs s 0x15#8 2)) ∧
    (s.inited = true → m.length ≠ s.n * s.n ∨ (∃ x ∈ m, isFinite x = false) →
      exec (.setmat m) s = .next (rejectedAs s 0x15#8 3)) ∧
    (s.inited = true → m.length = s.n * s.n → (∀ x ∈ m, isFinite x = true) →
      ∃ cm' : Mem, exec (.setmat m) s = .next (answeredOk { s with cm := cm' } 0x15#8 []) ∧
        ∀ r c, r < s.cfg.nmax → c < s.cfg.nmax →
          memRead cm' (r * s.cfg.nmax + c) =
            if r < s.n ∧ c < s.n then m.getD (r * s.n + c) 0#32 else memRead s.cm (r * s.cfg.nmax + c))

/-- NOP and CLRERR (R300, R301): accepted in every state; the whole next state. -/
def Obligations.NopAndClrerr : Prop :=
  ∀ s : State, exec .nop s = .next (answeredOk s 0x00#8 []) ∧ exec .clrerr s = .next (answeredOk { s with err := 0#5 } 0x27#8 [])

/-! ### Read-back -/

/-- GETSTAT (R317, R35): one data word, the STATUS view with every field at its bits; LASTERR and everything else as before. -/
def Obligations.GetStatus : Prop :=
  ∀ s : State, s.n ≤ 63 → ∃ st : Word,
    exec .getstat s = .next { s with rspq := s.rspq ++ [0x26001000#32, st] } ∧
      st.getLsbD 0 = s.inited ∧ st.getLsbD 1 = s.reconf ∧ (st.getLsbD 2 = true ↔ s.topo = .custom) ∧
      st.getLsbD 3 = s.lsValid ∧ st.getLsbD 4 = s.hsValid ∧ st.extractLsb' 5 3 = 0#3 ∧
      (st.extractLsb' 8 6).toNat = s.n ∧ st.extractLsb' 14 2 = 0#2 ∧ st.extractLsb' 16 5 = s.err ∧
      st.extractLsb' 21 3 = 0#3 ∧ st.extractLsb' 24 8 = s.lastErr

/-- GETB and GETC (R311, R313): the exact bits of one gain. -/
def Obligations.GetGain : Prop :=
  ∀ (s : State) (i : Byte), s.n ≤ s.lines.length →
    exec (.getb i) s = .next (
      if s.inited = false then rejectedAs s 0x20#8 2
      else match (s.lines.take s.n)[i.toNat]? with
        | none => rejectedAs s 0x20#8 4
        | some l => answeredOk s 0x20#8 [l.b]) ∧
    exec (.getc i) s = .next (
      if s.inited = false then rejectedAs s 0x22#8 2
      else match (s.lines.take s.n)[i.toNat]? with
        | none => rejectedAs s 0x22#8 4
        | some l => answeredOk s 0x22#8 [l.c])

/-- GETBS, GETCS and GETDLYS (R312, R314, R315): N data words, word j that of line j. -/
def Obligations.GetVectors : Prop :=
  ∀ s : State, s.n ≤ s.lines.length →
    (s.inited = false → exec .getbs s = .next (rejectedAs s 0x21#8 2) ∧ exec .getcs s = .next (rejectedAs s 0x23#8 2) ∧
      exec .getdlys s = .next (rejectedAs s 0x24#8 2)) ∧
    (s.inited = true → ∃ bs cs ds : List Word,
      exec .getbs s = .next (answeredOk s 0x21#8 bs) ∧ exec .getcs s = .next (answeredOk s 0x23#8 cs) ∧
      exec .getdlys s = .next (answeredOk s 0x24#8 ds) ∧ bs.length = s.n ∧ cs.length = s.n ∧ ds.length = s.n ∧
      ∀ j < s.n, ∀ l, s.lines[j]? = some l →
        bs[j]? = some l.b ∧ cs[j]? = some l.c ∧ ds[j]? = some (BitVec.ofNat 32 l.len))

/-- GETMAT (R316, R191): N*N data words, row-major; the identity, or the corner of the matrix store. -/
def Obligations.GetMatrix : Prop :=
  ∀ s : State,
    (s.inited = false → exec .getmat s = .next (rejectedAs s 0x25#8 2)) ∧
    (s.inited = true → ∃ m : List Word, exec .getmat s = .next (answeredOk s 0x25#8 m) ∧ m.length = s.n * s.n ∧
      ∀ r < s.n, ∀ c < s.n, m[r * s.n + c]? = some (
        if s.topo = .custom then memRead s.cm (r * s.cfg.nmax + c)
        else if r = c then 0x3F800000#32 else 0x00000000#32))

/-! ### Modulation -/

/-- R270, R212: one modulation step of a line: the rate is stored, the phase advanced, the offset latched, and the effective delay
set to the nominal length plus the offset: kept when that is a NaN or a zero, clamped to [0, CAP] else (under a record that is not the
default, log 23, what its `fadd` makes of the sum and +0.0). -/
def Obligations.ModulationStep : Prop :=
  ∀ (s : State) (q : Site) (depth rate : Word) (l : Line), s.cfg.cap < 2 ^ 24 → ∃ q1 q2 q3 q4 q5 : Site,
    let p := advancePhase s.cfg q1 l.phase (fdiv s.cfg q2 rate s.fs)
    let offset := fmul s.cfg q3 depth (numSinTurns s.cfg p)
    let m := fadd s.cfg q4 l.dcur offset
    modLine s q depth rate l = { l with
      rate := rate, phase := p, lfo := offset
      delay :=
        if isNaN m = true ∨ feq m 0x00000000#32 = true then l.delay
        else if flt m 0x00000000#32 = true then 0x00000000#32
        else if flt (u2f s.cfg s.cfg.cap) m = true then u2f s.cfg s.cfg.cap
        else if s.cfg.num.ieee = true then m else fadd s.cfg q5 m 0x00000000#32 }

/-- UPDMOD and UPDMODL (R271, R272): the checks, the stored globals, and the modulation step of the lines they name. -/
def Obligations.Modulation : Prop :=
  ∀ (s : State) (depth rate : Word) (i : Byte),
    (∃ q : Nat → Site, exec (.updmod depth rate) s = .next (
      if s.inited = false then rejectedAs s 0x08#8 2
      else if isFinite depth = false ∨ isFinite rate = false then rejectedAs s 0x08#8 3
      else answeredOk { s with
        modDepth := depth, modRate := rate
        lines := activeLines s fun j l => modLine s (q j) depth rate l } 0x08#8 [])) ∧
    ∃ q : Site, exec (.updmodl i depth rate) s = .next (
      if s.inited = false then rejectedAs s 0x09#8 2
      else if isFinite depth = false ∨ isFinite rate = false then rejectedAs s 0x09#8 3
      else if s.n ≤ i.toNat then rejectedAs s 0x09#8 4
      else answeredOk { s with lines := s.lines.modify i.toNat (modLine s q depth rate) } 0x09#8 [])

/-- R181, R50: the phase after an advance: the fractional part of the sum, by the rule's operations; under the default numerics it
lies in [0, 1), whatever the old phase and the increment. -/
def Obligations.PhaseInRange : Prop :=
  ∀ (c : Cfg) (q : Site) (phase inc : Word),
    (∃ q1 q2 q3 q4 : Site,
      let t := fadd c q1 phase inc
      let p := fsub c q2 t (ffloor c q3 t)
      advancePhase c q phase inc =
        if isFinite t = true then fadd c q4 (if fle 0x3F800000#32 p = true then 0x00000000#32 else p) 0x00000000#32
        else 0x00000000#32) ∧
    (c.num.ieee = true → fle 0x00000000#32 (advancePhase c q phase inc) = true ∧
      flt (advancePhase c q phase inc) 0x3F800000#32 = true)

/-! ### Delay lengths -/

/-- SETDLY and SETDLYS (R222, R223): the table entry is stored, the user shelves recomputed and the ramp to the entry started. -/
def Obligations.SetDelay : Prop :=
  ∀ (s : State) (i : Byte) (ms : Word) (v : List Word),
    (s.inited = false → exec (.setdly i ms) s = .next (rejectedAs s 0x04#8 2) ∧ exec (.setdlys v) s = .next (rejectedAs s 0x05#8 2)) ∧
    (s.inited = true → ¬lengthAccepted s.cfg ms s.fs → exec (.setdly i ms) s = .next (rejectedAs s 0x04#8 3)) ∧
    (s.inited = true → lengthAccepted s.cfg ms s.fs → s.n ≤ i.toNat → exec (.setdly i ms) s = .next (rejectedAs s 0x04#8 4)) ∧
    (s.inited = true → lengthAccepted s.cfg ms s.fs → i.toNat < s.n → ∃ q q' : Site,
      exec (.setdly i ms) s = .next (answeredOk { s with
        lines := s.lines.modify i.toNat fun l =>
          startRamp s q (u2f s.cfg (samplesOf s.cfg ms s.fs))
            (recomputeUser s q' { l with len := samplesOf s.cfg ms s.fs }) } 0x04#8 [])) ∧
    (s.inited = true → v.length ≠ s.n ∨ (∃ x ∈ v, ¬lengthAccepted s.cfg x s.fs) →
      exec (.setdlys v) s = .next (rejectedAs s 0x05#8 3)) ∧
    (s.inited = true → v.length = s.n → (∀ x ∈ v, lengthAccepted s.cfg x s.fs) → ∃ q q' : Nat → Site,
      exec (.setdlys v) s = .next (answeredOk { s with
        lines := s.lines.mapIdx fun j l => match v[j]? with
          | some x => startRamp s (q j) (u2f s.cfg (samplesOf s.cfg x s.fs))
              (recomputeUser s (q' j) { l with len := samplesOf s.cfg x s.fs })
          | none => l } 0x05#8 []))

/-- UPDDLY (R220): the bounds are rescaled, the table searched again, and every active line recomputed and ramped to its entry,
written or stale. -/
def Obligations.UpdateDelay : Prop :=
  ∀ (s : State) (targetMs : Word),
    let low := fmul s.cfg [] 0x3F19999A#32 targetMs
    let accepted := isFinite targetMs = true ∧ flt 0x00000000#32 targetMs = true ∧ samplesValid s.cfg low s.fs ∧
      samplesValid s.cfg targetMs s.fs ∧ 1 ≤ samplesOf s.cfg targetMs s.fs ∧ samplesOf s.cfg targetMs s.fs < 2 ^ 24
    let found := primesIn (samplesOf s.cfg low s.fs) (samplesOf s.cfg targetMs s.fs) s.n
    (s.inited = false → exec (.upddly targetMs) s = .next (rejectedAs s 0x03#8 2)) ∧
    (s.inited = true → ¬accepted → exec (.upddly targetMs) s = .next (rejectedAs s 0x03#8 3)) ∧
    (s.inited = true → accepted → ∃ q q' : Nat → Site,
      let t := { s with
        highMs := targetMs, lowMs := low
        lines := activeLines s fun j l =>
          startRamp s (q j) (u2f s.cfg (found.getD j l.len)) (recomputeUser s (q' j) { l with len := found.getD j l.len }) }
      exec (.upddly targetMs) s = .next (if found.length < s.n then answeredShort t 0x03#8 else answeredOk t 0x03#8 []))

/-- R211, R212, R213: the start of a ramp, and each of its steps, by the rules' operations; a ramp of RAMP_LEN steps ends exactly on its
target, after exactly RAMP_LEN steps and not before. With no ramp to make the line is on its target at once, the fixed shelf follows
(R166) and the effective delay is set to the target plus the offset as R212 guards and R141 clamps it; nothing else is written. -/
def Obligations.RampEndsOnTarget : Prop :=
  ∀ (s : State) (q : Site) (qs : Nat → Site) (target : Word) (l : Line),
    let after : Nat → Line := fun k => (List.range k).foldl (fun a j => rampStep s (qs j) a) (startRamp s q target l)
    (s.rampLen = 0 ∨ feq target l.dcur = true →
      (∃ q1 q2 q3 : Site,
        let m := fadd s.cfg q1 target l.lfo
        after 0 = { l with
          dtgt := target, dcur := target, dstep := 0x00000000#32, dcnt := 0
          fx := setCoeffs (shelfHigh s.cfg q2 s.cfg.tFixed s.cfg.fFixed target s.fs) l.fx
          delay := if isNaN m = true ∨ feq m 0x00000000#32 = true then l.delay else (dlSetDelay s.cfg q3 m l).delay }) ∧
      ∀ k, after k = after 0) ∧
    (s.rampLen ≠ 0 → feq target l.dcur = false →
      (∃ q1 q2 : Site, after 0 = { l with
        dtgt := target, dcnt := s.rampLen, dstep := fdiv s.cfg q1 (fsub s.cfg q2 target l.dcur) (u2f s.cfg s.rampLen) }) ∧
      (∀ k, k + 1 < s.rampLen → ∃ q1 : Site, (after (k + 1)).dcur = fadd s.cfg q1 (after k).dcur (after 0).dstep) ∧
      (∀ k, (after k).dcnt = s.rampLen - k) ∧ (after s.rampLen).dcur = target ∧
      (∀ k, s.rampLen ≤ k → after k = after s.rampLen) ∧
      ∀ k < s.rampLen, ∃ q1 q2 q3 : Site,
        let old := after k
        let new := after (k + 1)
        let m := fadd s.cfg q1 new.dcur old.lfo
        new = { old with
          dcur := new.dcur, dcnt := new.dcnt
          fx := setCoeffs (shelfHigh s.cfg q2 s.cfg.tFixed s.cfg.fFixed new.dcur s.fs) old.fx
          delay := if isNaN m = true ∨ feq m 0x00000000#32 = true then old.delay else (dlSetDelay s.cfg q3 m old).delay })

/-! ### The prime search -/

/-- R240: `IsPrime` is the correct predicate. -/
def Obligations.IsPrimeCorrect : Prop := ∀ c : Nat, isPrime c = true ↔ PrimeNumber c

/-- R241, R242, R243: the search writes the first `count` primes of the window in rising order, all of them when there are fewer,
and leaves every other entry as it was. -/
def Obligations.PrimeSearchTable : Prop :=
  ∀ (s : State) (low high count : Nat),
    let found := primesIn low high count
    found.length ≤ count ∧ found.Pairwise (· < ·) ∧ (∀ p ∈ found, low ≤ p ∧ p ≤ high ∧ PrimeNumber p) ∧
    (found.length < count → ∀ p, low ≤ p → p ≤ high → PrimeNumber p → p ∈ found) ∧
    (found.length = count → ∀ p, low ≤ p → PrimeNumber p → p ∉ found → ∀ x ∈ found, x < p) ∧
    primeSearch s low high count = { s with
      lines := s.lines.mapIdx fun j l => { l with len := found.getD j l.len } }

/-! ### INIT and UPDORD -/

/-- INIT (R200), its ends. Validation and phase 1: an accepted INIT raises RECONF and goes on; another changes nothing but the
error registers. Phase 3: INITED set, RECONF cleared, RPHASE back to 0, and the response, `PrimeShort` when the search was short. -/
def Obligations.InitBeginsAndEnds : Prop :=
  ∀ (s : State) (order : Byte) (fs lowMs highMs : Word),
    let t := { s with inited := true, reconf := false, rphase := 0#3, running := none, found := 0 }
    (s.running = none → ¬initAccepts s.cfg order fs lowMs highMs →
      exec (.init order fs lowMs highMs) s = .next (rejectedAs s 0x01#8 3)) ∧
    (s.running = none → initAccepts s.cfg order fs lowMs highMs → exec (.init order fs lowMs highMs) s =
      .next { s with rphase := 1#3, reconf := true, running := some (.init order fs lowMs highMs) }) ∧
    (s.running = some (.init order fs lowMs highMs) → s.rphase = 2#3 → exec (.init order fs lowMs highMs) s =
      .next (if s.found < s.n then answeredShort t 0x01#8 else answeredOk t 0x01#8 []))

/-- INIT (R200), phase 2: every register of every line, the matrix store and the global registers; the gains of the active lines
are draws within [-1, 1], the table entries the search did not write are kept. Under a numerics record that is not the default
(log 23) the effective delay is what `DL_setDelay` makes of the table entry. -/
def Obligations.InitBody : Prop :=
  ∀ (s : State) (order : Byte) (fs lowMs highMs : Word), s.running = some (.init order fs lowMs highMs) → s.rphase = 1#3 →
    s.cfg.cap < 2 ^ 24 → initAccepts s.cfg order fs lowMs highMs → (∀ l ∈ s.lines, l.len < 2 ^ 24) →
    let found := primesIn (samplesOf s.cfg lowMs fs) (samplesOf s.cfg highMs fs) order.toNat
    ∃ t : State, exec (.init order fs lowMs highMs) s = .next t ∧
      t = { s with
        rphase := 2#3, fs := fs, lowMs := lowMs, highMs := highMs, n := order.toNat, rampLen := t.rampLen
        lsValid := false, hsValid := false, lsT := 0#32, lsF := 0#32, hsT := 0#32, hsF := 0#32, topo := .identity
        cm := memCleared, found := found.length, lines := t.lines, draws := t.draws } ∧
      (∃ q q', t.rampLen = f2n (ffloor s.cfg q (fmul s.cfg q' s.cfg.rampSec fs))) ∧
      t.lines.length = s.lines.length ∧
      ∀ j l, s.lines[j]? = some l → ∃ b c q q',
        let len := found.getD j l.len
        (j < order.toNat → isFinite b = true ∧ fle 0xBF800000#32 b = true ∧ fle b 0x3F800000#32 = true ∧
          isFinite c = true ∧ fle 0xBF800000#32 c = true ∧ fle c 0x3F800000#32 = true) ∧
        t.lines[j]? = some {
          b := if j < order.toNat then b else l.b
          c := if j < order.toNat then c else l.c
          len := len, w := 0
          delay :=
            if j < order.toNat then
              if s.cfg.num.ieee = true then u2f s.cfg (min len s.cfg.cap)
              else (dlSetDelay s.cfg q' (u2f s.cfg len) { l with delay := 0#32 }).delay
            else 0#32
          dcur := if j < order.toNat then u2f s.cfg len else 0#32
          dtgt := if j < order.toNat then u2f s.cfg len else 0#32
          dstep := 0#32, dcnt := 0, lfo := 0#32, ls := Filter.passThrough, hs := Filter.passThrough
          fx := if j < order.toNat then setCoeffs (shelfHigh s.cfg q s.cfg.tFixed s.cfg.fFixed (u2f s.cfg len) fs) Filter.passThrough
            else Filter.passThrough
          phase := 0#32, rate := 0#32, fo := 0#32, fbin := 0#32, buf := memCleared }

/-- UPDORD (R205), validation and phase 1. -/
def Obligations.UpdordBegins : Prop :=
  ∀ (s : State) (newOrder selector : Byte), s.running = none →
    exec (.updord newOrder selector) s = .next (
      if s.inited = false then rejectedAs s 0x02#8 2
      else if newOrder.toNat ∈ s.cfg.orders ∧ selector.toNat ≤ 1 then
        { s with rphase := 1#3, reconf := true, running := some (.updord newOrder selector) }
      else rejectedAs s 0x02#8 3)

/-- UPDORD (R205), phases 2 to 7, each the whole next state but for the gains drawn in phase 3, which lie in [-1, 1]. -/
def Obligations.UpdordPhases : Prop :=
  ∀ (s : State) (newOrder selector : Byte), s.running = some (.updord newOrder selector) →
    let found := primesIn (samplesOf s.cfg s.lowMs s.fs) (samplesOf s.cfg s.highMs s.fs) s.n
    let t := { s with reconf := false, rphase := 0#3, running := none, found := 0 }
    (s.rphase = 1#3 → exec (.updord newOrder selector) s =
      .next { s with rphase := 2#3, lines := s.lines.map fun l => { l with buf := memCleared } }) ∧
    (s.rphase = 2#3 → ∃ (b c : Nat → Word) (left : List Word),
      (∀ j, isFinite (b j) = true ∧ fle 0xBF800000#32 (b j) = true ∧ fle (b j) 0x3F800000#32 = true ∧
        isFinite (c j) = true ∧ fle 0xBF800000#32 (c j) = true ∧ fle (c j) 0x3F800000#32 = true) ∧
      exec (.updord newOrder selector) s = .next { s with
        rphase := 3#3, n := newOrder.toNat, draws := left
        lines := s.lines.mapIdx fun j l => if j < newOrder.toNat then { l with b := b j, c := c j } else l }) ∧
    (s.rphase = 3#3 → exec (.updord newOrder selector) s = .next { s with
      rphase := 4#3, found := found.length
      lines := s.lines.mapIdx fun j l => { l with len := found.getD j l.len } }) ∧
    (s.rphase = 4#3 → ∃ q : Nat → Site, exec (.updord newOrder selector) s =
      .next { s with rphase := 5#3, lines := activeLines s fun j l => seedLine s (q j) l }) ∧
    (s.rphase = 5#3 → exec (.updord newOrder selector) s =
      .next { s with rphase := 6#3, topo := if selector = 0#8 then .identity else .custom }) ∧
    (s.rphase = 6#3 → exec (.updord newOrder selector) s =
      .next (if s.found < s.n then answeredShort t 0x02#8 else answeredOk t 0x02#8 []))

/-- R210: seeding a line sets its nominal length and its target to the table entry at once, clears the offset and the ramp, clamps
the effective delay to CAP and recomputes the shelves; histories, gains, oscillator, cursor and buffer are kept. Under a
numerics record that is not the default (log 23) the effective delay is what `DL_setDelay` makes of the table entry. -/
def Obligations.SeedLine : Prop :=
  ∀ (s : State) (q : Site) (l : Line), s.cfg.cap < 2 ^ 24 → l.len < 2 ^ 24 → ∃ q1 q2 q3 q4 : Site,
    seedLine s q l = { l with
      dcur := u2f s.cfg l.len, dtgt := u2f s.cfg l.len, dstep := 0#32, dcnt := 0, lfo := 0#32
      delay :=
        if s.cfg.num.ieee = true then u2f s.cfg (min l.len s.cfg.cap) else (dlSetDelay s.cfg q4 (u2f s.cfg l.len) l).delay
      ls := if s.lsValid then setCoeffs (shelfLow s.cfg q1 s.lsT s.lsF (u2f s.cfg l.len) s.fs) l.ls else l.ls
      hs := if s.hsValid then setCoeffs (shelfHigh s.cfg q2 s.hsT s.hsF (u2f s.cfg l.len) s.fs) l.hs else l.hs
      fx := setCoeffs (shelfHigh s.cfg q3 s.cfg.tFixed s.cfg.fFixed (u2f s.cfg l.len) s.fs) l.fx }

/-! ### PROC -/

/-- R251: while RECONF is set, PROC answers +0.0 and writes nothing. -/
def Obligations.ProcSilent : Prop :=
  ∀ (s : State) (ch : Byte) (x : Word), s.reconf = true → exec (.proc ch x) s = .next { s with audY := some 0x00000000#32 }

/-- PROC (R250, R252, R253, R254): every active line is processed, the lines' outputs are summed in ascending order and mixed, the
feedback inputs are replaced by the matrix product; every other register is as before. The channel does not matter. The pop (R144 to
R147, both kernels) and the filters (R167) are spelled out in `ProcLine`. -/
def Obligations.ProcEffect : Prop :=
  ∀ (s : State) (ch : Byte) (x : Word), s.reconf = false → s.n ≤ s.lines.length →
    ∃ (mid : List Line) (fb : List Word) (wet y : Word) (q : Nat → Site) (q1 q2 q3 q4 q5 q6 : Site),
      exec (.proc ch x) s = .next { s with
        audY := some y, lines := mid.mapIdx fun j l => if j < s.n then { l with fbin := fb.getD j 0#32 } else l } ∧
      mid.length = s.lines.length ∧
      (∀ j l l', s.lines[j]? = some l → mid[j]? = some l' → if j < s.n then ProcLine s x l l' else l' = l) ∧
      wet = (mid.take s.n).zipIdx.foldl (fun acc e => fadd s.cfg (q (2 * e.2)) acc (fmul s.cfg (q (2 * e.2 + 1)) e.1.c e.1.fo)) 0#32 ∧
      y = fmul s.cfg q1 s.cfg.outAtt (fadd s.cfg q2 (fmul s.cfg q3 s.wet wet) (fmul s.cfg q4 (fsub s.cfg q5 0x3F800000#32 s.wet) x)) ∧
      fb.length = s.n ∧ fb = matApply s q6 ((mid.take s.n).map fun l => l.fo)

/-- R192: the matrix product: a copy for the identity; else each row's sum over ascending columns, from +0.0. -/
def Obligations.MatrixProduct : Prop :=
  ∀ (s : State) (q : Site) (v : List Word), ∃ p : Nat → Nat → Site,
    (s.topo = .identity → matApply s q v = v) ∧
    (s.topo = .custom → (matApply s q v).length = v.length ∧ ∀ r < v.length, (matApply s q v)[r]? = some (
      v.zipIdx.foldl (fun acc e =>
        fadd s.cfg (p r (2 * e.2)) acc (fmul s.cfg (p r (2 * e.2 + 1)) (memRead s.cm (r * s.cfg.nmax + e.2)) e.1)) 0#32))

/-- R143, R145, R250: what a PROC stores: the one word of each active line's buffer at its cursor; every other word of every
buffer is as before, and the cursor moves on by one modulo BUFLEN. -/
def Obligations.ProcStores : Prop :=
  ∀ (s t : State) (ch : Byte) (x : Word), Inv s → s.reconf = false → exec (.proc ch x) s = .next t →
    ∀ j l l', s.lines[j]? = some l → t.lines[j]? = some l' →
      (j < s.n → l'.w = (l.w + 1) % s.cfg.buflen ∧ ∃ q q', ∀ k, readDelayWord t j k =
        if k = l.w then fadd s.cfg q (fmul s.cfg q' l.b x) l.fbin else readDelayWord s j k) ∧
      (s.n ≤ j → l' = l)

/-- R256: the ends of the mix: with W = +0.0 the output is the scaled dry input, with W = 1.0 the scaled wet sum (of a zero, up to
its sign), for finite values under the default numerics. -/
def Obligations.DryWetBoundary : Prop :=
  ∀ (s : State) (q q' : Site) (wet x : Word), s.cfg.num.ieee = true → isFinite s.cfg.outAtt = true →
    isFinite wet = true → isFinite x = true →
    (s.wet = 0x00000000#32 → val x ≠ 0 → mixOut s q wet x = fmul s.cfg q' s.cfg.outAtt x) ∧
    (s.wet = 0x3F800000#32 → val wet ≠ 0 → mixOut s q wet x = fmul s.cfg q' s.cfg.outAtt wet) ∧
    (s.wet = 0x00000000#32 → val x = 0 → val (mixOut s q wet x) = 0) ∧
    (s.wet = 0x3F800000#32 → val wet = 0 → val (mixOut s q wet x) = 0)

/-- R257: with the identity matrix, what a PROC leaves in line i depends on line i and on the input alone, whatever the other
lines, the matrix store, the mix and the order hold. -/
def Obligations.IdentityDecoupling : Prop :=
  ∀ (s u s' u' : State) (ch ch' : Byte) (x : Word) (i : Nat), s.topo = .identity → u.topo = .identity → s.reconf = false →
    u.reconf = false → s.cfg = u.cfg → s.fs = u.fs → s.epoch = u.epoch → i < s.n → i < u.n → s.lines[i]? = u.lines[i]? →
    exec (.proc ch x) s = .next s' → exec (.proc ch' x) u = .next u' → s'.lines[i]? = u'.lines[i]?

/-- R194 (d): the custom topology with the cleared matrix store kills all feedback of finite outputs, under the default numerics. -/
def Obligations.ZeroMatrixKillsFeedback : Prop :=
  ∀ (s : State) (q : Site) (v : List Word), s.cfg.num.ieee = true → s.topo = .custom → s.cm = memCleared →
    (∀ x ∈ v, isFinite x = true) → matApply s q v = List.replicate v.length 0x00000000#32

/-! ### The delay line -/

/-- R141: `DL_setDelay`: a NaN changes nothing; a request below 0 or above CAP is clamped; under the default numerics -0.0 becomes +0.0
and every other value is kept as it is. The result lies in [0, CAP] when the length is no NaN, and for every length when the old delay
lay there. Under a record that is not the default (log 23) the last case is what its `fadd` makes of the length and +0.0. -/
def Obligations.SetDelayClamps : Prop :=
  ∀ (c : Cfg) (q : Site) (len : Word) (l : Line), c.cap < 2 ^ 24 → ∃ q' : Site,
    dlSetDelay c q len l = (
      if isNaN len = true then l
      else if flt len 0x00000000#32 = true then { l with delay := 0x00000000#32 }
      else if flt (u2f c c.cap) len = true then { l with delay := u2f c c.cap }
      else if c.num.ieee = false then { l with delay := fadd c q' len 0x00000000#32 }
      else if len = 0x80000000#32 then { l with delay := 0x00000000#32 }
      else { l with delay := len }) ∧
    (c.num.ieee = true → isNaN len = false ∨ (fle 0x00000000#32 l.delay = true ∧ fle l.delay (u2f c c.cap) = true) →
      fle 0x00000000#32 (dlSetDelay c q len l).delay = true ∧ fle (dlSetDelay c q len l).delay (u2f c c.cap) = true ∧
      isNaN (dlSetDelay c q len l).delay = false)

/-- R83, R140, R143, R144: tap 0 is the word just pushed, the taps 0 to CAP + 2 are distinct words, and after the next push tap
k + 1 is what tap k was. -/
def Obligations.TapsShift : Prop :=
  ∀ (c : Cfg) (l : Line) (u : Word), l.w < c.buflen → memWf c.buflen l.buf = true →
    tap c (dlPush u l) 0 = u ∧
    (∀ k ≤ c.cap + 2, ∀ j ≤ c.cap + 2, (l.w + c.buflen - k) % c.buflen = (l.w + c.buflen - j) % c.buflen → k = j) ∧
    ∀ k < c.cap + 2, tap c (dlPush u (dlAdvance c l)) (k + 1) = tap c l k

/-- R148 (a): at a delay of n whole samples, 0 <= n <= CAP, both kernels return the sample pushed n pushes before, up to the sign of a
zero, when the taps they read are finite, under the default numerics. `LINEAR`, and `LAGRANGE3` at n = 0, also need the intermediate
sum of R147 and R146 to be finite: for finite taps near the largest value it can overflow. -/
def Obligations.IntegerDelayExact : Prop :=
  ∀ (c : Cfg) (q : Site) (l : Line) (n : Nat), c.num.ieee = true → c.cap < 2 ^ 24 → n ≤ c.cap → l.delay = u2f c n →
    let exact := feq (dlRead c q l) (tap c l n) = true ∧ (val (tap c l n) ≠ 0 → dlRead c q l = tap c l n)
    (c.kernel = .lagrange3 → 1 ≤ n → (∀ k, n - 1 ≤ k → k ≤ n + 2 → isFinite (tap c l k) = true) → exact) ∧
    (c.kernel = .lagrange3 → n = 0 → (∀ k ≤ 3, isFinite (tap c l k) = true) →
      isFinite (fadd c [] (fadd c [] (fmul c [] (tap c l 1) 0x40400000#32) (fmul c [] (tap c l 2) 0xBFC00000#32))
        (fmul c [] (tap c l 3) 0x3EAAAAAB#32)) = true → exact) ∧
    (c.kernel = .linear → isFinite (tap c l n) = true → isFinite (tap c l (n + 1)) = true →
      isFinite (fsub c [] (tap c l (n + 1)) (tap c l n)) = true → exact)

/-! ### Numerics -/

/-- R19: under the default numerics the sum and the difference of finite values are the value of the format nearest the exact one, a
tie going to the even pattern; they are infinite exactly when the exact magnitude is at least that of the largest finite value and half
a unit more. The threshold and the details of rounding, which R19 does not spell out, are those of IEEE 754 (log 20, PRESUMED). -/
def Obligations.SumRoundsToNearestEven : Prop :=
  ∀ (cfg : Cfg) (q : Site) (a b : Word), cfg.num.ieee = true → isFinite a = true → isFinite b = true →
    let rounded : Int → Word → Prop := fun x r =>
      (isFinite r = false ↔ (2 ^ 25 - 1) * 2 ^ 252 ≤ x.natAbs) ∧ isNaN r = false ∧
      (isFinite r = true → ∀ c, isFinite c = true →
        |x - val r| ≤ |x - val c| ∧ (|x - val r| = |x - val c| → val c ≠ val r → r.getLsbD 0 = false))
    rounded (val a + val b) (fadd cfg q a b) ∧ rounded (val a - val b) (fsub cfg q a b)

/-- R19: the same of a product, whose exact value is compared in units of 2^-298, of a quotient r of a and b, whose exact value is
compared by way of r * b, and of the root r of a positive value, which is compared with another value c by way of the square of their
midpoint. The sign of a product or quotient is that of the operands' signs. A nonzero value over a zero is an infinity, a zero over a
zero a NaN; the root of a zero is that zero, of a negative value a NaN. The threshold, the sign, these special cases and the details
of rounding, which R19 does not spell out, are those of IEEE 754 (log 20, PRESUMED). -/
def Obligations.ProductRoundsToNearestEven : Prop :=
  ∀ (cfg : Cfg) (q : Site) (a b : Word), cfg.num.ieee = true → isFinite a = true → isFinite b = true →
    (let r := fmul cfg q a b
      let x := val a * val b
      (isFinite r = false ↔ (2 ^ 25 - 1) * 2 ^ 401 ≤ x.natAbs) ∧ isNaN r = false ∧ signOf r = (signOf a != signOf b) ∧
      (isFinite r = true → ∀ c, isFinite c = true →
        |x - val r * 2 ^ 149| ≤ |x - val c * 2 ^ 149| ∧
          (|x - val r * 2 ^ 149| = |x - val c * 2 ^ 149| → val c ≠ val r → r.getLsbD 0 = false))) ∧
    (let r := fdiv cfg q a b
      let x := val a * 2 ^ 149
      (val b ≠ 0 →
        (isFinite r = false ↔ (2 ^ 25 - 1) * 2 ^ 103 * (val b).natAbs ≤ (val a).natAbs) ∧ isNaN r = false ∧
        signOf r = (signOf a != signOf b) ∧
        (isFinite r = true → ∀ c, isFinite c = true →
          |x - val r * val b| ≤ |x - val c * val b| ∧
            (|x - val r * val b| = |x - val c * val b| → val c ≠ val r → r.getLsbD 0 = false))) ∧
      (val b = 0 → val a ≠ 0 → isInf r = true ∧ signOf r = (signOf a != signOf b)) ∧
      (val b = 0 → val a = 0 → isNaN r = true)) ∧
    (let r := fsqrt cfg q a
      let x := 4 * (val a * 2 ^ 149)
      (0 < val a → isFinite r = true ∧ signOf r = false ∧ ∀ c, isFinite c = true → 0 ≤ val c →
        (val r < val c → x ≤ (val r + val c) ^ 2) ∧ (val c < val r → (val r + val c) ^ 2 ≤ x) ∧
        (x = (val r + val c) ^ 2 → val c ≠ val r → r.getLsbD 0 = false)) ∧
      (val a = 0 → r = a) ∧ (val a < 0 → isNaN r = true))

/-- R20, P1 to P5: what may be assumed of the transcendental configuration functions, whatever the free values are. R14, R19: under the
default numerics `ffloor` of a finite value is the largest integral value not above it, an infinity is its own floor, and `u2f` is
exact below 2^24; a NaN operand gives a NaN under every record. -/
def Obligations.NumericProperties : Prop :=
  ∀ (c : Cfg) (q : Site) (a b : Word) (n : Nat),
    (isFinite a = true → fle 0xBF800000#32 (numSinTurns c a) = true ∧ fle (numSinTurns c a) 0x3F800000#32 = true) ∧
    numSinTurns c 0x00000000#32 = 0x00000000#32 ∧
    numPow c a 0x00000000#32 = 0x3F800000#32 ∧
    (isFinite b = true → numPow c 0x3F800000#32 b = 0x3F800000#32) ∧
    (flt 0x00000000#32 a = true → flt a 0x3FC90FDA#32 = true →
      flt 0x00000000#32 (numTan c a) = true ∧ isFinite (numTan c a) = true) ∧
    (c.num.ieee = true → isFinite a = true → isFinite (ffloor c q a) = true ∧ (2 ^ 149 : Int) ∣ val (ffloor c q a) ∧
      val (ffloor c q a) ≤ val a ∧ val a < val (ffloor c q a) + 2 ^ 149) ∧
    (c.num.ieee = true → isInf a = true → ffloor c q a = a) ∧
    (c.num.ieee = true → n < 2 ^ 24 → isFinite (u2f c n) = true ∧ val (u2f c n) = n * 2 ^ 149) ∧
    (isNaN a = true ∨ isNaN b = true → isNaN (fadd c q a b) = true ∧ isNaN (fsub c q a b) = true ∧ isNaN (fmul c q a b) = true ∧
      isNaN (fdiv c q a b) = true) ∧
    (isNaN a = true → isNaN (fsqrt c q a) = true ∧ isNaN (ffloor c q a) = true)

/-! ### Invariants -/

/-- The invariant holds after reset. -/
def Obligations.ResetInv : Prop := Inv State.reset ∧ Ranges State.reset

/-- Every step keeps the invariant: the constraints on the configuration, NMAX lines of which at most N are active, cursors inside
the buffers, memories in canonical form, table entries below 2^24, RPHASE, RECONF and INITED in agreement with the command under
way, and, once initialised, a supported order, cleared memories and valid delay bounds. -/
def Obligations.StepKeepsInv : Prop := ∀ s t : State, Inv s → step s = .next t → Inv t

/-- Every step keeps the ranges R32, R38 and R50 state, under the default numerics: 0 <= W <= 1, 0 <= DL[i].delay <= CAP,
0 <= OSC[i].phase < 1. -/
def Obligations.StepKeepsRanges : Prop :=
  ∀ s t : State, s.cfg.num.ieee = true → Inv s → Ranges s → step s = .next t → Ranges t

/-! ### Shelf coefficients -/

/-- R161 to R164: the coefficients of the reference instances of `ShelfLow` and `ShelfHigh`, by the rules' operations; R160: both are
configuration functions, so that operands the configuration lists have the coefficients it lists (log 24). -/
def Obligations.ShelfCoefficients : Prop :=
  ∀ (c : Cfg) (q : Site) (t f lsamp fs : Word),
    ((∀ k, ((t, f, lsamp, fs), k) ∉ c.shelf.low) → ∃ g x : Word,
      GainIs c t lsamp fs g ∧ TanIs c f fs x ∧ LowFormula c g x (shelfLow c q t f lsamp fs)) ∧
    ((∀ k, ((t, f, lsamp, fs), k) ∉ c.shelf.high) → ∃ g x : Word,
      GainIs c t lsamp fs g ∧ TanIs c f fs x ∧ HighFormula c g x (shelfHigh c q t f lsamp fs)) ∧
    (∀ k, (∀ k', ((t, f, lsamp, fs), k') ∈ c.shelf.low ↔ k' = k) → shelfLow c q t f lsamp fs = k) ∧
    (∀ k, (∀ k', ((t, f, lsamp, fs), k') ∈ c.shelf.high ↔ k' = k) → shelfHigh c q t f lsamp fs = k)
end

