-- ==== Sys2Proof/Laws/Commands.lean ====
section
/-! SUPPORT. What the shared operations can do, said once: a command of the control port, the end of a command, one host event. -/

namespace Sys2Proof.Machine

/-- A command answers a next state: the rejection with the first failing check's code, or its effect. -/
theorem command_next {s e t : State} {opc : Byte} {checks : List (Bool × Code)} (h : command s opc checks e = .next t) :
    (∃ c, firstFailure checks = some c ∧ t = raiseCode s opc c) ∨ (firstFailure checks = none ∧ t = e) := by
  unfold command at h
  split at h
  · rename_i c hc
    cases h
    exact Or.inl ⟨c, hc, rfl⟩
  · rename_i hc
    cases h
    exact Or.inr ⟨hc, rfl⟩

/-- A command whose checks all hold has its effect. -/
theorem command_accepted {s e : State} {opc : Byte} {checks : List (Bool × Code)} (h : firstFailure checks = none) :
    command s opc checks e = .next e := by simp [command, h]

/-- A command is rejected with the code of the first check that fails. -/
theorem command_rejected {s e : State} {opc : Byte} {checks : List (Bool × Code)} {c : Code}
    (h : firstFailure checks = some c) : command s opc checks e = .next (raiseCode s opc c) := by simp [command, h]

/-- Whatever its checks, a command answers a next state. -/
theorem command_total (s e : State) (opc : Byte) (checks : List (Bool × Code)) : ∃ t, command s opc checks e = .next t := by
  unfold command
  split <;> exact ⟨_, rfl⟩

@[simp] theorem firstFailure_nil : firstFailure [] = none := rfl

@[simp] theorem firstFailure_cons (ok : Bool) (c : Code) (rest : List (Bool × Code)) :
    firstFailure ((ok, c) :: rest) = if ok then firstFailure rest else some c := rfl

/-- No check fails exactly when all hold. -/
theorem firstFailure_none_iff {checks : List (Bool × Code)} : firstFailure checks = none ↔ ∀ e ∈ checks, e.1 = true := by
  induction checks with
  | nil => simp
  | cons e rest ih =>
    obtain ⟨ok, c⟩ := e
    cases ok <;> simp [ih]

/-- The code of a rejection is one of the codes the rule lists. -/
theorem firstFailure_mem {checks : List (Bool × Code)} {c : Code} (h : firstFailure checks = some c) :
    (false, c) ∈ checks := by
  induction checks with
  | nil => simp at h
  | cons e rest ih =>
    obtain ⟨ok, d⟩ := e
    cases ok
    · simp_all
    · simp only [firstFailure_cons, if_true] at h
      simp [ih h]

@[simp] theorem needsInit_fst (s : State) : (needsInit s).1 = s.inited := rfl
@[simp] theorem needsInit_snd (s : State) : (needsInit s).2 = .notInit := rfl
@[simp] theorem domain_fst (b : Bool) : (domain b).1 = b := rfl
@[simp] theorem domain_snd (b : Bool) : (domain b).2 = .badParam := rfl
@[simp] theorem indexBelow_fst (s : State) (i : Byte) : (indexBelow s i).1 = decide (i.toNat < s.n) := rfl
@[simp] theorem indexBelow_snd (s : State) (i : Byte) : (indexBelow s i).2 = .outOfRange := rfl

/-- What one step can do: nothing without an event; else what the event at the head of the inbox says. -/
theorem step_cases (s : State) :
    (s.inbox = [] ∧ step s = .next s) ∨
    (∃ w later, s.inbox = .word w :: later ∧
      step s = .next { takeEvent s later with cmdq := s.cmdq ++ [w] }) ∨
    (∃ req later, s.inbox = .audio req :: later ∧ step s = exec (decodeAudio req) (takeEvent s later)) ∨
    (∃ later, s.inbox = .control :: later ∧ step s = controlTurn (takeEvent s later)) ∨
    (∃ k later, s.inbox = .drain k :: later ∧
      step s = .next { takeEvent s later with rspq := s.rspq.drop k }) ∨
    (∃ later, s.inbox = .reset :: later ∧ step s = .next (hardReset (takeEvent s later))) := by
  rcases h : s.inbox with _ | ⟨e, later⟩
  · exact Or.inl ⟨rfl, by simp [step, hostStep, h]⟩
  · right
    cases e <;> simp [step, hostStep, h, handleEvent, audioTurn, takeEvent]

/-- What one transaction of the control agent can do. -/
theorem controlTurn_cases (s : State) :
    (∃ i, s.running = some i ∧ controlTurn s = exec i s) ∨
    (s.running = none ∧ decodePacket s.cmdq = .incomplete ∧ controlTurn s = .next s) ∨
    (∃ i rest, s.running = none ∧ decodePacket s.cmdq = .command i rest ∧
      controlTurn s = exec i { s with cmdq := rest }) ∨
    (∃ opc why rest, s.running = none ∧ decodePacket s.cmdq = .illegal opc why rest ∧
      controlTurn s = .next (raiseCode { s with cmdq := rest } opc .illegalCmd)) := by
  rcases h : s.running with _ | i
  · rcases d : decodePacket s.cmdq with _ | ⟨i, rest⟩ | ⟨opc, why, rest⟩ <;> simp [controlTurn, h, d]
  · exact Or.inl ⟨i, rfl, by simp [controlTurn, h]⟩

end Sys2Proof.Machine
end

