-- ==== Sys2Proof/Laws/Float.lean ====
section
/-! SUPPORT. The numerics: the fields of a bit pattern, the value of a pattern of magnitude bits, and rounding to nearest. -/

namespace Sys2Proof.Machine

/-! ### Fields -/

theorem signOf_eq (a : Word) : signOf a = decide (2 ^ 31 ≤ a.toNat) := by
  have h := a.isLt
  simp only [signOf, BitVec.getLsbD, Nat.testBit_eq_decide_div_mod_eq]
  congr 1
  simp only [eq_iff_iff]
  omega

theorem expOf_eq (a : Word) : expOf a = a.toNat % 2 ^ 31 / 2 ^ 23 := by
  have h := a.isLt
  simp only [expOf, BitVec.extractLsb'_toNat, Nat.shiftRight_eq_div_pow]
  omega

theorem fracOf_eq (a : Word) : fracOf a = a.toNat % 2 ^ 23 := by
  simp [fracOf, BitVec.extractLsb'_toNat]

/-- The value of the magnitude bits m in units of 2^-149, the exponent field unbounded. -/
def patMag (m : Nat) : Nat := if m / 2 ^ 23 = 0 then m else (2 ^ 23 + m % 2 ^ 23) * 2 ^ (m / 2 ^ 23 - 1)

theorem mag_eq (a : Word) : mag a = patMag (a.toNat % 2 ^ 31) := by
  have hf : a.toNat % 2 ^ 31 % 2 ^ 23 = a.toNat % 2 ^ 23 := by omega
  simp only [mag, patMag, expOf_eq, fracOf_eq, hf]
  split
  · omega
  · rfl

/-- The infinities are the pattern 0x7F800000. -/
theorem isFinite_iff (a : Word) : isFinite a = true ↔ a.toNat % 2 ^ 31 < 0x7F800000 := by
  simp only [isFinite, expOf_eq, bne_iff_ne, ne_eq]
  omega

theorem isNaN_iff (a : Word) : isNaN a = true ↔ 0x7F800000 < a.toNat % 2 ^ 31 := by
  simp only [isNaN, expOf_eq, fracOf_eq, Bool.and_eq_true, beq_iff_eq, bne_iff_ne, ne_eq]
  omega

theorem isInf_iff (a : Word) : isInf a = true ↔ a.toNat % 2 ^ 31 = 0x7F800000 := by
  simp only [isInf, expOf_eq, fracOf_eq, Bool.and_eq_true, beq_iff_eq]
  omega

theorem not_isNaN_of_isFinite {a : Word} (h : isFinite a = true) : isNaN a = false := by
  rw [isFinite_iff] at h
  rw [← Bool.not_eq_true, isNaN_iff]
  omega

theorem not_isInf_of_isFinite {a : Word} (h : isFinite a = true) : isInf a = false := by
  rw [isFinite_iff] at h
  rw [← Bool.not_eq_true, isInf_iff]
  omega

/-- R19: the NaN of a site is a NaN, whatever the free value is. -/
theorem isNaN_nanAt (q : Site) : isNaN (nanAt q) = true := by
  have h : (nanAt q).extractLsb' 22 9 = 0x1FF#9 := by
    simp only [nanAt]
    ext i hi
    simp only [BitVec.getElem_extractLsb', BitVec.getLsbD_or]
    have : i < 9 := hi
    interval_cases i <;> simp
  have h2 := congrArg BitVec.toNat h
  simp only [BitVec.extractLsb'_toNat, Nat.shiftRight_eq_div_pow] at h2
  have := (nanAt q).isLt
  rw [isNaN_iff]
  simp at h2
  omega

/-! ### Packing -/

theorem packBits_toNat (neg : Bool) (m : Nat) :
    (packBits neg m).toNat = (if neg then 2 ^ 31 else 0) + min m 0x7F800000 := by
  simp only [packBits, BitVec.toNat_ofNat]
  cases neg
  · rw [if_neg (by decide)]
    omega
  · rw [if_pos rfl]
    omega

theorem packBits_mod (neg : Bool) (m : Nat) : (packBits neg m).toNat % 2 ^ 31 = min m 0x7F800000 := by
  rw [packBits_toNat]
  cases neg
  · rw [if_neg (by decide)]
    omega
  · rw [if_pos rfl]
    omega

theorem signOf_packBits (neg : Bool) (m : Nat) : signOf (packBits neg m) = neg := by
  rw [signOf_eq, packBits_toNat]
  cases neg <;> simp

theorem mag_packBits (neg : Bool) (m : Nat) : mag (packBits neg m) = patMag (min m 0x7F800000) := by
  rw [mag_eq, packBits_mod]

theorem isNaN_packBits (neg : Bool) (m : Nat) : isNaN (packBits neg m) = false := by
  rw [← Bool.not_eq_true, isNaN_iff, packBits_mod]
  omega

theorem isFinite_packBits (neg : Bool) (m : Nat) : isFinite (packBits neg m) = true ↔ m < 0x7F800000 := by
  rw [isFinite_iff, packBits_mod]
  omega

/-- A pattern that is no NaN is its sign and its magnitude bits. -/
theorem packBits_self {a : Word} (h : isNaN a = false) : packBits (signOf a) (a.toNat % 2 ^ 31) = a := by
  rw [← Bool.not_eq_true, isNaN_iff] at h
  apply BitVec.eq_of_toNat_eq
  rw [packBits_toNat, signOf_eq]
  have := a.isLt
  by_cases hs : 2 ^ 31 ≤ a.toNat
  · rw [decide_eq_true hs, if_pos rfl]
    omega
  · rw [decide_eq_false hs, if_neg (by decide)]
    omega

/-! ### The order of the patterns -/

theorem patMag_low {m : Nat} (h : m < 2 ^ 24) : patMag m = m := by
  unfold patMag
  split
  · rfl
  · have : m / 2 ^ 23 = 1 := by omega
    rw [this]
    omega

/-- The value of the pattern of quotient q at binade k. -/
theorem patMag_binade {k q : Nat} (h1 : k = 0 ∨ 2 ^ 23 ≤ q) (h2 : q ≤ 2 ^ 24) : patMag (k * 2 ^ 23 + q) = q * 2 ^ k := by
  rcases Nat.eq_zero_or_pos k with rfl | hk
  · rcases Nat.lt_or_ge q (2 ^ 24) with h | h
    · simpa using patMag_low h
    · have : q = 2 ^ 24 := by omega
      subst this
      norm_num [patMag]
  · have hq : 2 ^ 23 ≤ q := by omega
    unfold patMag
    rcases Nat.lt_or_ge q (2 ^ 24) with h | h
    · have e1 : (k * 2 ^ 23 + q) / 2 ^ 23 = k + 1 := by omega
      have e2 : (k * 2 ^ 23 + q) % 2 ^ 23 = q - 2 ^ 23 := by omega
      have e3 : 2 ^ 23 + (q - 2 ^ 23) = q := by omega
      rw [e1, e2, if_neg (by omega), e3, Nat.add_sub_cancel]
    · have e1 : (k * 2 ^ 23 + q) / 2 ^ 23 = k + 2 := by omega
      have e2 : (k * 2 ^ 23 + q) % 2 ^ 23 = 0 := by omega
      rw [e1, e2, if_neg (by omega)]
      have e3 : q = 2 ^ 23 * 2 := by omega
      have e4 : k + 2 - 1 = k + 1 := by omega
      rw [e3, e4, Nat.mul_assoc, ← Nat.pow_succ', Nat.add_zero]

theorem patMag_succ (m : Nat) : patMag m < patMag (m + 1) := by
  rcases Nat.lt_or_ge m (2 ^ 23) with h | h
  · rw [patMag_low (by omega), patMag_low (by omega)]
    omega
  · have e : m = (m / 2 ^ 23 - 1) * 2 ^ 23 + (2 ^ 23 + m % 2 ^ 23) := by omega
    rw [e, Nat.add_assoc, patMag_binade (by omega) (by omega), patMag_binade (by omega) (by omega)]
    exact Nat.mul_lt_mul_of_pos_right (by omega) (by positivity)

theorem patMag_strictMono : StrictMono patMag := strictMono_nat_of_lt_succ patMag_succ

/-! ### Rounding -/

/-- What `roundQ` computes: the pattern just below n/d, or the next one when the remainder is past the middle or, in the middle,
the quotient is odd. -/
theorem roundQ_spec {n d : Nat} (hd : 0 < d) :
    ∃ p, patMag p * d ≤ n ∧ n < patMag (p + 1) * d ∧
      ((2 * n < patMag p * d + patMag (p + 1) * d ∧ roundQ n d = p) ∨
        (patMag p * d + patMag (p + 1) * d < 2 * n ∧ roundQ n d = p + 1) ∨
        (2 * n = patMag p * d + patMag (p + 1) * d ∧ roundQ n d = p + p % 2)) := by
  obtain ⟨k, hk⟩ : ∃ k, k = Nat.log2 (n / d) - 23 := ⟨_, rfl⟩
  obtain ⟨u, hu⟩ : ∃ u, u = d * 2 ^ k := ⟨_, rfl⟩
  obtain ⟨q, hq⟩ : ∃ q, q = n / u := ⟨_, rfl⟩
  have hpos : 0 < 2 ^ k := by positivity
  have hu0 : 0 < u := hu ▸ Nat.mul_pos hd hpos
  have hqe : q = n / d / 2 ^ k := by rw [hq, hu, Nat.div_div_eq_div_mul]
  have hlow : k = 0 ∨ 2 ^ 23 ≤ q := by
    rcases Nat.eq_zero_or_pos k with h | h
    · exact Or.inl h
    · right
      have hne : n / d ≠ 0 := by
        intro h0
        rw [h0] at hk
        simp at hk
        omega
      rw [hqe, Nat.le_div_iff_mul_le hpos, ← Nat.pow_add]
      calc 2 ^ (23 + k) = 2 ^ Nat.log2 (n / d) := by congr 1; omega
        _ ≤ n / d := Nat.log2_self_le hne
  have hhigh : q < 2 ^ 24 := by
    rw [hqe, Nat.div_lt_iff_lt_mul hpos, ← Nat.pow_add]
    exact lt_of_lt_of_le Nat.lt_log2_self (Nat.pow_le_pow_right (by omega) (by omega))
  have e0 : patMag (k * 2 ^ 23 + q) * d = q * u := by
    rw [patMag_binade hlow (by omega), hu, Nat.mul_assoc, Nat.mul_comm d]
  have e1 : patMag (k * 2 ^ 23 + q + 1) * d = q * u + u := by
    rw [Nat.add_assoc, patMag_binade (by omega) (by omega), hu]
    ring
  have hdiv : q * u + n % u = n := by
    rw [hq, Nat.mul_comm]
    exact Nat.div_add_mod n u
  have hmod : n % u < u := Nat.mod_lt _ hu0
  have hr : roundQ n d = k * 2 ^ 23 + q + (if u < 2 * (n % u) ∨ (2 * (n % u) = u ∧ q % 2 = 1) then 1 else 0) := by
    simp only [roundQ, ← hk, ← hu, ← hq]
  refine ⟨k * 2 ^ 23 + q, by omega, by omega, ?_⟩
  rw [e0, e1, hr]
  have hpar : (k * 2 ^ 23 + q) % 2 = q % 2 := by omega
  by_cases h1 : u < 2 * (n % u)
  · right
    left
    simp only [h1, true_or, if_true, and_true]
    omega
  · by_cases h2 : 2 * (n % u) = u
    · right
      right
      refine ⟨by omega, ?_⟩
      rw [hpar]
      rcases Nat.mod_two_eq_zero_or_one q with h3 | h3 <;> simp [h2, h3]
    · left
      refine ⟨by omega, ?_⟩
      simp [h1, h2]

/-- A value of the format is rounded to itself. -/
theorem roundQ_exact {n d m : Nat} (hd : 0 < d) (h : n = patMag m * d) : roundQ n d = m := by
  obtain ⟨p, h1, h2, h3⟩ := roundQ_spec (n := n) hd
  rw [h] at h1 h2
  have a1 := patMag_strictMono.le_iff_le.mp (Nat.le_of_mul_le_mul_right h1 hd)
  have a2 := patMag_strictMono.lt_iff_lt.mp (Nat.lt_of_mul_lt_mul_right h2)
  have : p = m := by omega
  subst this
  have h4 := patMag_succ p
  have h5 := Nat.mul_lt_mul_of_pos_right h4 hd
  omega

/-- R19: no pattern lies closer to n/d than `roundQ n d`, and a pattern of another value that lies as close is beaten by an even
one. -/
theorem roundQ_nearest {n d : Nat} (hd : 0 < d) (m : Nat) :
    |(n : Int) - (patMag (roundQ n d) * d : Nat)| ≤ |(n : Int) - (patMag m * d : Nat)| ∧
      (|(n : Int) - (patMag (roundQ n d) * d : Nat)| = |(n : Int) - (patMag m * d : Nat)| → m ≠ roundQ n d →
        roundQ n d % 2 = 0) := by
  obtain ⟨p, h1, h2, h3⟩ := roundQ_spec (n := n) hd
  have hm : (m ≤ p ∧ patMag m * d ≤ patMag p * d) ∨ (p + 1 ≤ m ∧ patMag (p + 1) * d ≤ patMag m * d) := by
    rcases Nat.lt_or_ge p m with h | h
    · exact Or.inr ⟨h, Nat.mul_le_mul_right d (patMag_strictMono.monotone h)⟩
    · exact Or.inl ⟨h, Nat.mul_le_mul_right d (patMag_strictMono.monotone h)⟩
  have hstrict : ∀ {a b : Nat}, a < b → patMag a * d < patMag b * d := fun h =>
    Nat.mul_lt_mul_of_pos_right (patMag_strictMono h) hd
  have hlt : m < p → patMag m * d < patMag p * d := hstrict
  have hgt : p + 1 < m → patMag (p + 1) * d < patMag m * d := hstrict
  rcases h3 with ⟨h3, h4⟩ | ⟨h3, h4⟩ | ⟨h3, h4⟩
  · rw [h4]
    constructor <;> simp only [abs_le, abs_eq_abs, le_abs] <;> omega
  · rw [h4]
    constructor <;> simp only [abs_le, abs_eq_abs, le_abs] <;> omega
  · rw [h4]
    rcases Nat.mod_two_eq_zero_or_one p with h5 | h5 <;> rw [h5] <;>
      constructor <;> simp only [Nat.add_zero, abs_le, abs_eq_abs, le_abs] <;> omega

/-- A finite value packed from its own sign and magnitude. -/
theorem roundPack_self {a : Word} (h : isFinite a = true) {n d : Nat} (hd : 0 < d) (hn : n = mag a * d) :
    roundPack (signOf a) n d = a := by
  rw [roundPack, roundQ_exact (m := a.toNat % 2 ^ 31) hd (by rw [hn, mag_eq]), packBits_self (not_isNaN_of_isFinite h)]

end Sys2Proof.Machine
end

