-- ==== Sys2Proof/Laws/Exact.lean ====
section
/-! SUPPORT. Comparisons as comparisons of values, the operations whose result the format holds exactly, and what the
numerics record makes of them. -/

namespace Sys2Proof.Machine

/-! ### Values -/

theorem mag_zero_iff {a : Word} : mag a = 0 ↔ a = 0#32 ∨ a = 0x80000000#32 := by
  have hz : mag a = 0 ↔ a.toNat % 2 ^ 31 = 0 := by
    rw [mag_eq]
    exact patMag_strictMono.injective.eq_iff (a := a.toNat % 2 ^ 31) (b := 0)
  rw [hz]
  constructor
  · intro h
    have := a.isLt
    rcases Nat.lt_or_ge a.toNat (2 ^ 31) with h1 | h1
    · exact Or.inl (BitVec.eq_of_toNat_eq (by simp; omega))
    · exact Or.inr (BitVec.eq_of_toNat_eq (by simp; omega))
  · rintro (rfl | rfl) <;> rfl

theorem zeroOf_false : zeroOf false = 0#32 := rfl
theorem zeroOf_true : zeroOf true = 0x80000000#32 := rfl

theorem isFinite_zeroOf (b : Bool) : isFinite (zeroOf b) = true := by cases b <;> rfl
theorem mag_zeroOf (b : Bool) : mag (zeroOf b) = 0 := by cases b <;> rfl
theorem signOf_zeroOf (b : Bool) : signOf (zeroOf b) = b := by cases b <;> rfl
theorem val_zeroOf (b : Bool) : val (zeroOf b) = 0 := by simp [val, mag_zeroOf]

theorem val_natAbs (a : Word) : (val a).natAbs = mag a := by
  unfold val
  split <;> simp

theorem val_eq_zero {a : Word} : val a = 0 ↔ mag a = 0 := by
  rw [← val_natAbs, Int.natAbs_eq_zero]

theorem signOf_of_val {a : Word} (h : val a ≠ 0) : signOf a = decide (val a < 0) := by
  have h2 : mag a ≠ 0 := fun e => h (val_eq_zero.mpr e)
  unfold val at *
  cases signOf a
  · simp
  · simp
    omega

/-- Two finite values with the same sign and the same magnitude are the same pattern. -/
theorem eq_of_sign_mag {a b : Word} (hs : signOf a = signOf b) (hm : mag a = mag b) : a = b := by
  rw [mag_eq, mag_eq, patMag_strictMono.injective.eq_iff] at hm
  rw [signOf_eq, signOf_eq, decide_eq_decide] at hs
  have := a.isLt
  have := b.isLt
  exact BitVec.eq_of_toNat_eq (by omega)

/-! ### Comparisons (R19) -/

theorem ordKey_eq (a : Word) : ordKey a = if signOf a then -((a.toNat % 2 ^ 31 : Nat) : Int) else ((a.toNat % 2 ^ 31 : Nat) : Int) :=
  rfl

theorem ordKey_lt_iff (a b : Word) : ordKey a < ordKey b ↔ val a < val b := by
  have h0 : patMag 0 = 0 := rfl
  have h1 := patMag_strictMono.lt_iff_lt (a := a.toNat % 2 ^ 31) (b := b.toNat % 2 ^ 31)
  have h2 := patMag_strictMono.lt_iff_lt (a := b.toNat % 2 ^ 31) (b := a.toNat % 2 ^ 31)
  have h3 := patMag_strictMono.lt_iff_lt (a := 0) (b := a.toNat % 2 ^ 31)
  have h4 := patMag_strictMono.lt_iff_lt (a := 0) (b := b.toNat % 2 ^ 31)
  rw [ordKey_eq, ordKey_eq, val, val, mag_eq, mag_eq]
  rw [h0] at h3 h4
  generalize patMag (a.toNat % 2 ^ 31) = x at *
  generalize patMag (b.toNat % 2 ^ 31) = y at *
  cases signOf a <;> cases signOf b <;> simp <;> omega

/-- R19: `a < b` of two values that are no NaN compares their reals (an infinity counts as 2^128). -/
theorem flt_iff {a b : Word} (ha : isNaN a = false) (hb : isNaN b = false) : flt a b = true ↔ val a < val b := by
  simp [flt, ha, hb, ordKey_lt_iff]

theorem fle_iff {a b : Word} (ha : isNaN a = false) (hb : isNaN b = false) : fle a b = true ↔ val a ≤ val b := by
  have := ordKey_lt_iff b a
  simp [fle, ha, hb]
  omega

theorem feq_iff {a b : Word} (ha : isNaN a = false) (hb : isNaN b = false) : feq a b = true ↔ val a = val b := by
  have := ordKey_lt_iff b a
  have := ordKey_lt_iff a b
  simp [feq, ha, hb]
  omega

/-! ### Sums -/

theorem ieeeAdd_finite {q : Site} {a b : Word} (ha : isFinite a = true) (hb : isFinite b = true) :
    ieeeAdd q a b = if val a + val b = 0 then zeroOf (signOf a && signOf b)
      else roundPack (decide (val a + val b < 0)) (val a + val b).natAbs 1 := by
  simp [ieeeAdd, not_isNaN_of_isFinite ha, not_isNaN_of_isFinite hb, not_isInf_of_isFinite ha, not_isInf_of_isFinite hb]

/-- A sum the format holds is exact. -/
theorem ieeeAdd_exact {q : Site} {a b c : Word} (ha : isFinite a = true) (hb : isFinite b = true) (hc : isFinite c = true)
    (h : val a + val b = val c) (h0 : val c ≠ 0) : ieeeAdd q a b = c := by
  rw [ieeeAdd_finite ha hb, h, if_neg h0, ← signOf_of_val h0]
  exact roundPack_self hc (by omega) (by rw [val_natAbs]; omega)

/-- R141, R288: adding +0.0 turns -0.0 into +0.0 and keeps every other finite value. -/
theorem ieeeAdd_zero_right {q : Site} {a : Word} (ha : isFinite a = true) : ieeeAdd q a 0#32 = if a = 0x80000000#32 then 0#32 else a := by
  have hv : val 0#32 = 0 := rfl
  by_cases h0 : val a = 0
  · rw [ieeeAdd_finite ha rfl, hv, Int.add_zero, if_pos h0]
    rcases mag_zero_iff.mp (val_eq_zero.mp h0) with rfl | rfl <;> rfl
  · have hne : a ≠ 0x80000000#32 := by
      rintro rfl
      exact h0 rfl
    rw [if_neg hne]
    exact ieeeAdd_exact ha rfl ha (by rw [hv, Int.add_zero]) h0

/-- The value of a sum with a zero. -/
theorem val_ieeeAdd_zero {q : Site} {a z : Word} (ha : isFinite a = true) (hz : isFinite z = true) (h : val z = 0) :
    isFinite (ieeeAdd q a z) = true ∧ val (ieeeAdd q a z) = val a ∧ (val a ≠ 0 → ieeeAdd q a z = a) := by
  by_cases h0 : val a = 0
  · rw [ieeeAdd_finite ha hz, h, Int.add_zero, if_pos h0]
    exact ⟨isFinite_zeroOf _, by rw [val_zeroOf, h0], fun h => absurd h0 h⟩
  · have : ieeeAdd q a z = a := ieeeAdd_exact ha hz ha (by omega) h0
    rw [this]
    exact ⟨ha, rfl, fun _ => rfl⟩

theorem val_zero_ieeeAdd {q : Site} {a z : Word} (ha : isFinite a = true) (hz : isFinite z = true) (h : val z = 0) :
    isFinite (ieeeAdd q z a) = true ∧ val (ieeeAdd q z a) = val a ∧ (val a ≠ 0 → ieeeAdd q z a = a) := by
  have hc : ieeeAdd q z a = ieeeAdd q a z := by
    rw [ieeeAdd_finite hz ha, ieeeAdd_finite ha hz, Int.add_comm, Bool.and_comm]
  rw [hc]
  exact val_ieeeAdd_zero ha hz h

theorem isFinite_fneg (a : Word) : isFinite (fneg a) = isFinite a := by
  have h : (fneg a).toNat % 2 ^ 31 = a.toNat % 2 ^ 31 := by
    simp only [fneg, BitVec.toNat_xor, BitVec.toNat_ofNat]
    rw [Nat.xor_mod_two_pow]
    simp
  rw [Bool.eq_iff_iff, isFinite_iff, isFinite_iff, h]

theorem signOf_fneg (a : Word) : signOf (fneg a) = !signOf a := by
  simp [signOf, fneg]

theorem mag_fneg (a : Word) : mag (fneg a) = mag a := by
  have h : (fneg a).toNat % 2 ^ 31 = a.toNat % 2 ^ 31 := by
    simp only [fneg, BitVec.toNat_xor, BitVec.toNat_ofNat]
    rw [Nat.xor_mod_two_pow]
    simp
  rw [mag_eq, mag_eq, h]

theorem val_fneg (a : Word) : val (fneg a) = -val a := by
  simp only [val, signOf_fneg, mag_fneg]
  cases signOf a <;> simp

/-! ### Products -/

theorem ieeeMul_finite {q : Site} {a b : Word} (ha : isFinite a = true) (hb : isFinite b = true) :
    ieeeMul q a b = roundPack (signOf a != signOf b) (mag a * mag b) (2 ^ 149) := by
  simp [ieeeMul, not_isNaN_of_isFinite ha, not_isNaN_of_isFinite hb, not_isInf_of_isFinite ha, not_isInf_of_isFinite hb]

/-- A product the format holds is exact. -/
theorem ieeeMul_exact {q : Site} {a b c : Word} (ha : isFinite a = true) (hb : isFinite b = true) (hc : isFinite c = true)
    (hs : signOf c = (signOf a != signOf b)) (h : mag a * mag b = mag c * 2 ^ 149) : ieeeMul q a b = c := by
  rw [ieeeMul_finite ha hb, ← hs]
  exact roundPack_self hc (by positivity) h

theorem mag_one : mag f1 = 2 ^ 149 := by
  have h : f1.toNat % 2 ^ 31 = 126 * 2 ^ 23 + 2 ^ 23 := by decide
  rw [mag_eq, h, patMag_binade (by omega) (by omega), ← Nat.pow_add]

theorem one_ieeeMul {q : Site} {a : Word} (ha : isFinite a = true) : ieeeMul q f1 a = a :=
  ieeeMul_exact rfl ha ha (by rw [show signOf f1 = false from rfl]; simp) (by rw [mag_one, Nat.mul_comm])

theorem ieeeMul_one {q : Site} {a : Word} (ha : isFinite a = true) : ieeeMul q a f1 = a :=
  ieeeMul_exact ha rfl ha (by rw [show signOf f1 = false from rfl]; simp) (by rw [mag_one])

/-- The product of finite values with a zero among them is a zero. -/
theorem ieeeMul_zero {q : Site} {a b : Word} (ha : isFinite a = true) (hb : isFinite b = true) (h : mag a = 0 ∨ mag b = 0) :
    ieeeMul q a b = zeroOf (signOf a != signOf b) :=
  ieeeMul_exact ha hb (isFinite_zeroOf _) (signOf_zeroOf _) (by rw [mag_zeroOf]; rcases h with h | h <;> simp [h])

/-! ### Differences and quotients -/

theorem ieeeSub_finite {q : Site} {a b : Word} (ha : isFinite a = true) (hb : isFinite b = true) :
    ieeeSub q a b = if val a - val b = 0 then zeroOf (signOf a && !signOf b)
      else roundPack (decide (val a - val b < 0)) (val a - val b).natAbs 1 := by
  rw [ieeeSub, ieeeAdd_finite ha (by rw [isFinite_fneg]; exact hb), val_fneg, signOf_fneg, ← Int.sub_eq_add_neg]

theorem ieeeDiv_finite {q : Site} {a b : Word} (ha : isFinite a = true) (hb : isFinite b = true) (h0 : mag b ≠ 0) :
    ieeeDiv q a b = roundPack (signOf a != signOf b) (mag a * 2 ^ 149) (mag b) := by
  simp [ieeeDiv, not_isNaN_of_isFinite ha, not_isNaN_of_isFinite hb, not_isInf_of_isFinite ha, not_isInf_of_isFinite hb, h0]

/-! ### Conversions (R19) -/

/-- A natural number below 2^24 is a value of the format. -/
theorem exists_pattern {n : Nat} (h : n < 2 ^ 24) : ∃ m, m < 0x7F800000 ∧ patMag m = n * 2 ^ 149 := by
  rcases Nat.eq_zero_or_pos n with rfl | h0
  · exact ⟨0, by omega, rfl⟩
  · have hk : Nat.log2 n < 24 := (Nat.log2_lt (by omega)).mpr h
    have h1 := Nat.log2_self_le (n := n) (by omega)
    have h2 := Nat.lt_log2_self (n := n)
    obtain ⟨j, hj⟩ : ∃ j, Nat.log2 n + j = 23 := ⟨23 - Nat.log2 n, by omega⟩
    have e : (2 : Nat) ^ Nat.log2 n * 2 ^ j = 2 ^ 23 := by rw [← Nat.pow_add, hj]
    have hj0 : 0 < 2 ^ j := by positivity
    have b1 : 2 ^ 23 ≤ n * 2 ^ j := e ▸ Nat.mul_le_mul_right _ h1
    have b2 : n * 2 ^ j ≤ 2 ^ 24 := by
      have := Nat.mul_le_mul_right (2 ^ j) h2.le
      rw [Nat.pow_succ, Nat.mul_right_comm, e] at this
      exact this
    refine ⟨(149 - j) * 2 ^ 23 + n * 2 ^ j, by omega, ?_⟩
    rw [patMag_binade (Or.inr b1) b2, Nat.mul_assoc, ← Nat.pow_add]
    congr 2
    omega

/-- R19: `u2f` of the default is exact below 2^24. -/
theorem ieeeU2f_exact {n : Nat} (h : n < 2 ^ 24) :
    isFinite (ieeeU2f n) = true ∧ signOf (ieeeU2f n) = false ∧ mag (ieeeU2f n) = n * 2 ^ 149 := by
  obtain ⟨m, hm, hv⟩ := exists_pattern h
  have hr : roundQ (n * 2 ^ 149) 1 = m := roundQ_exact (by omega) (by omega)
  have he : ieeeU2f n = packBits false m := by rw [ieeeU2f, roundPack, hr]
  rw [he]
  refine ⟨(isFinite_packBits _ _).mpr hm, signOf_packBits _ _, ?_⟩
  rw [mag_packBits, Nat.min_eq_left (by omega), hv]

theorem val_ieeeU2f {n : Nat} (h : n < 2 ^ 24) : val (ieeeU2f n) = (n * 2 ^ 149 : Nat) := by
  rw [val, (ieeeU2f_exact h).2.1, (ieeeU2f_exact h).2.2]
  simp

/-- R19: `f2n` after `u2f`. -/
theorem f2n_ieeeU2f {n : Nat} (h : n < 2 ^ 24) : f2n (ieeeU2f n) = n := by
  obtain ⟨h1, h2, h3⟩ := ieeeU2f_exact h
  rw [f2n, h1, h2, h3, Nat.mul_mod_left, Nat.mul_div_cancel _ (by positivity)]
  simp

/-! ### The numerics record (R14) -/

/-- What a table makes of a function: a result it lists for the operand, else the function's own, when it lists none. -/
theorem numEntry_cases {α β : Type} [DecidableEq α] (table : List (α × β)) (f : α → β) (a : α) :
    (a, numEntry table f a) ∈ table ∨ ((∀ b, (a, b) ∉ table) ∧ numEntry table f a = f a) := by
  unfold numEntry
  split
  · rename_i e he
    have h := List.find?_some he
    simp only [decide_eq_true_eq] at h
    exact Or.inl (h ▸ List.mem_of_find?_eq_some he)
  · rename_i he
    exact Or.inr ⟨fun b hb => by simpa using List.find?_eq_none.mp he _ hb, rfl⟩

/-- A function that a table replaces nowhere is itself. -/
@[simp] theorem numEntry_nil {α β : Type} [DecidableEq α] (f : α → β) (a : α) : numEntry [] f a = f a := rfl

/-- The default record replaces none of the first seven functions. -/
theorem NumTable.ieee_iff (t : NumTable) : t.ieee = true ↔
    t.add = [] ∧ t.sub = [] ∧ t.mul = [] ∧ t.div = [] ∧ t.sqrt = [] ∧ t.floor = [] ∧ t.u2f = [] := by
  simp [NumTable.ieee, and_assoc]

theorem numBinary_nil {f : Site → Word → Word → Word} (hf : ∀ q a b, isNaN a = true ∨ isNaN b = true → f q a b = nanAt q)
    (q : Site) (a b : Word) : numBinary [] f q a b = f q a b := by
  unfold numBinary
  split
  · rename_i h
    exact (hf q a b (by simpa using h)).symm
  · rfl

theorem numUnary_nil {f : Site → Word → Word} (hf : ∀ q a, isNaN a = true → f q a = nanAt q) (q : Site) (a : Word) :
    numUnary [] f q a = f q a := by
  unfold numUnary
  split
  · exact (hf q a ‹_›).symm
  · rfl

theorem isNaN_fneg (a : Word) : isNaN (fneg a) = isNaN a := by
  have h : (fneg a).toNat % 2 ^ 31 = a.toNat % 2 ^ 31 := by
    simp only [fneg, BitVec.toNat_xor, BitVec.toNat_ofNat]
    rw [Nat.xor_mod_two_pow]
    simp
  rw [Bool.eq_iff_iff, isNaN_iff, isNaN_iff, h]

/-- R14: under the default record the operations are the IEEE 754 ones. -/
theorem fadd_ieee {c : Cfg} (h : c.num.ieee = true) (q : Site) (a b : Word) : fadd c q a b = ieeeAdd q a b := by
  rw [fadd, (NumTable.ieee_iff _).mp h |>.1]
  exact numBinary_nil (fun q a b hn => by rcases hn with hn | hn <;> simp [ieeeAdd, hn]) q a b

theorem fsub_ieee {c : Cfg} (h : c.num.ieee = true) (q : Site) (a b : Word) : fsub c q a b = ieeeSub q a b := by
  rw [fsub, (NumTable.ieee_iff _).mp h |>.2.1]
  exact numBinary_nil (fun q a b hn => by rcases hn with hn | hn <;> simp [ieeeSub, ieeeAdd, isNaN_fneg, hn]) q a b

theorem fmul_ieee {c : Cfg} (h : c.num.ieee = true) (q : Site) (a b : Word) : fmul c q a b = ieeeMul q a b := by
  rw [fmul, (NumTable.ieee_iff _).mp h |>.2.2.1]
  exact numBinary_nil (fun q a b hn => by rcases hn with hn | hn <;> simp [ieeeMul, hn]) q a b

theorem fdiv_ieee {c : Cfg} (h : c.num.ieee = true) (q : Site) (a b : Word) : fdiv c q a b = ieeeDiv q a b := by
  rw [fdiv, (NumTable.ieee_iff _).mp h |>.2.2.2.1]
  exact numBinary_nil (fun q a b hn => by rcases hn with hn | hn <;> simp [ieeeDiv, hn]) q a b

theorem fsqrt_ieee {c : Cfg} (h : c.num.ieee = true) (q : Site) (a : Word) : fsqrt c q a = ieeeSqrt q a := by
  rw [fsqrt, (NumTable.ieee_iff _).mp h |>.2.2.2.2.1]
  exact numUnary_nil (fun q a hn => by simp [ieeeSqrt, hn]) q a

theorem ffloor_ieee {c : Cfg} (h : c.num.ieee = true) (q : Site) (a : Word) : ffloor c q a = ieeeFloor q a := by
  rw [ffloor, (NumTable.ieee_iff _).mp h |>.2.2.2.2.2.1]
  exact numUnary_nil (fun q a hn => by simp [ieeeFloor, hn]) q a

theorem u2f_ieee {c : Cfg} (h : c.num.ieee = true) (n : Nat) : u2f c n = ieeeU2f n := by
  rw [u2f, (NumTable.ieee_iff _).mp h |>.2.2.2.2.2.2, numEntry_nil]

/-- R19: a NaN operand gives a NaN, under every record. -/
theorem isNaN_fadd {c : Cfg} {q : Site} {a b : Word} (h : isNaN a = true ∨ isNaN b = true) : isNaN (fadd c q a b) = true := by
  rw [fadd, numBinary, if_pos (by simpa using h)]
  exact isNaN_nanAt q

theorem isNaN_fsub {c : Cfg} {q : Site} {a b : Word} (h : isNaN a = true ∨ isNaN b = true) : isNaN (fsub c q a b) = true := by
  rw [fsub, numBinary, if_pos (by simpa using h)]
  exact isNaN_nanAt q

theorem isNaN_fmul {c : Cfg} {q : Site} {a b : Word} (h : isNaN a = true ∨ isNaN b = true) : isNaN (fmul c q a b) = true := by
  rw [fmul, numBinary, if_pos (by simpa using h)]
  exact isNaN_nanAt q

theorem isNaN_fdiv {c : Cfg} {q : Site} {a b : Word} (h : isNaN a = true ∨ isNaN b = true) : isNaN (fdiv c q a b) = true := by
  rw [fdiv, numBinary, if_pos (by simpa using h)]
  exact isNaN_nanAt q

/-- R141, R288: under the default record adding +0.0 turns -0.0 into +0.0 and keeps every other finite value. -/
theorem fadd_zero_right {c : Cfg} (h : c.num.ieee = true) {q : Site} {a : Word} (ha : isFinite a = true) :
    fadd c q a 0#32 = if a = 0x80000000#32 then 0#32 else a := by
  rw [fadd_ieee h, ieeeAdd_zero_right ha]

theorem val_u2f {c : Cfg} (h : c.num.ieee = true) {n : Nat} (hn : n < 2 ^ 24) : val (u2f c n) = (n * 2 ^ 149 : Nat) := by
  rw [u2f_ieee h, val_ieeeU2f hn]

theorem f2n_u2f {c : Cfg} (h : c.num.ieee = true) {n : Nat} (hn : n < 2 ^ 24) : f2n (u2f c n) = n := by
  rw [u2f_ieee h, f2n_ieeeU2f hn]

/-- R160: with the reference instances the shelf functions are R163 and R164. -/
theorem shelfLow_reference {c : Cfg} (h : c.shelf = ShelfTable.reference) (q : Site) (t f n fs : Word) :
    shelfLow c q t f n fs = shelfLowRef c q t f n fs := by
  rw [shelfLow, h]
  rfl

theorem shelfHigh_reference {c : Cfg} (h : c.shelf = ShelfTable.reference) (q : Site) (t f n fs : Word) :
    shelfHigh c q t f n fs = shelfHighRef c q t f n fs := by
  rw [shelfHigh, h]
  rfl

end Sys2Proof.Machine
end

