-- ==== Sys2Proof/Laws/Lines.lean ====
section
/-! SUPPORT. The per-line loops: lengths, and what each does to the line at one index. -/

namespace Sys2Proof.Machine

@[simp] theorem updateAt_length (f : Line → Line) (i : Nat) (ls : List Line) : (updateAt f i ls).length = ls.length := by
  induction ls generalizing i with
  | nil => cases i <;> rfl
  | cons l ls ih => cases i <;> simp [updateAt, ih]

theorem updateAt_getElem? (f : Line → Line) (i : Nat) (ls : List Line) (j : Nat) :
    (updateAt f i ls)[j]? = if j = i then (ls[j]?).map f else ls[j]? := by
  induction ls generalizing i j with
  | nil => cases i <;> simp [updateAt]
  | cons l ls ih => cases i <;> cases j <;> simp [updateAt, ih]

@[simp] theorem updateFrom_length (f : Nat → Line → Line) (st c : Nat) (ls : List Line) :
    (updateFrom f st c ls).length = ls.length := by
  induction ls generalizing st c with
  | nil => cases c <;> rfl
  | cons l ls ih => cases c <;> simp [updateFrom, ih]

theorem updateFrom_getElem? (f : Nat → Line → Line) (st c : Nat) (ls : List Line) (j : Nat) :
    (updateFrom f st c ls)[j]? = if j < c then (ls[j]?).map (f (st + j)) else ls[j]? := by
  induction ls generalizing st c j with
  | nil => cases c <;> simp [updateFrom]
  | cons l ls ih =>
    cases c with
    | zero => simp [updateFrom]
    | succ c =>
      cases j with
      | zero => simp [updateFrom]
      | succ j => simp [updateFrom, ih, Nat.add_assoc, Nat.add_comm 1 j]

@[simp] theorem setEach_length {α : Type} (f : Line → α → Line) (as : List α) (ls : List Line) :
    (setEach f as ls).length = ls.length := by
  induction as generalizing ls with
  | nil => simp [setEach]
  | cons a as ih => cases ls <;> simp [setEach, ih]

theorem setEach_getElem? {α : Type} (f : Line → α → Line) (as : List α) (ls : List Line) (j : Nat) :
    (setEach f as ls)[j]? = match as[j]?, ls[j]? with
      | some a, some l => some (f l a)
      | _, o => o := by
  induction as generalizing ls j with
  | nil => simp [setEach]
  | cons a as ih =>
    cases ls with
    | nil => simp [setEach]
    | cons l ls => cases j <;> simp [setEach, ih]

@[simp] theorem drawLines_length (q : Site) (st c : Nat) (ls : List Line) (ds : List Word) :
    (drawLines q st c ls ds).1.length = ls.length := by
  induction ls generalizing st c ds with
  | nil => cases c <;> rfl
  | cons l ls ih => cases c <;> simp [drawLines, ih]

/-- R15: what a draw of gains does to the line at index j: lawful gains below the count, nothing from it on. -/
theorem drawLines_getElem? (q : Site) (st c : Nat) (ls : List Line) (ds : List Word) (j : Nat) :
    ∃ vb vc, (drawLines q st c ls ds).1[j]? =
      if j < c then (ls[j]?).map (fun l => { l with b := lawfulGain vb, c := lawfulGain vc }) else ls[j]? := by
  have draw : ∀ (q : Site) (ds : List Word), ∃ v, (gainDraw q ds).1 = lawfulGain v := by
    intro q ds
    cases ds <;> exact ⟨_, rfl⟩
  induction ls generalizing st c ds j with
  | nil => cases c <;> exact ⟨0, 0, by simp [drawLines]⟩
  | cons l ls ih =>
    cases c with
    | zero => exact ⟨0, 0, by simp [drawLines]⟩
    | succ c =>
      cases j with
      | zero =>
        obtain ⟨vb, hb⟩ := draw (0 :: st :: q) ds
        obtain ⟨vc, hc⟩ := draw (1 :: st :: q) (gainDraw (0 :: st :: q) ds).2
        exact ⟨vb, vc, by simp [drawLines, hb, hc]⟩
      | succ j =>
        obtain ⟨vb, vc, h⟩ := ih (st + 1) c (gainDraw (1 :: st :: q) (gainDraw (0 :: st :: q) ds).2).2 j
        exact ⟨vb, vc, by simpa [drawLines] using h⟩

/-- A property of lines that a loop's body keeps holds of every line after the loop. -/
theorem updateFrom_forall {P : Line → Prop} {f : Nat → Line → Line} (hf : ∀ i l, P l → P (f i l)) (st c : Nat)
    {ls : List Line} (h : ∀ l ∈ ls, P l) : ∀ l ∈ updateFrom f st c ls, P l := by
  induction ls generalizing st c with
  | nil => cases c <;> simp [updateFrom]
  | cons l ls ih =>
    cases c with
    | zero => simpa [updateFrom] using h
    | succ c =>
      simp only [List.mem_cons, forall_eq_or_imp] at h
      simp only [updateFrom, List.mem_cons, forall_eq_or_imp]
      exact ⟨hf _ _ h.1, ih _ _ h.2⟩

theorem updateAt_forall {P : Line → Prop} {f : Line → Line} (hf : ∀ l, P l → P (f l)) (i : Nat)
    {ls : List Line} (h : ∀ l ∈ ls, P l) : ∀ l ∈ updateAt f i ls, P l := by
  induction ls generalizing i with
  | nil => cases i <;> simp [updateAt]
  | cons l ls ih =>
    simp only [List.mem_cons, forall_eq_or_imp] at h
    cases i with
    | zero => simpa [updateAt] using ⟨hf _ h.1, h.2⟩
    | succ i => simpa only [updateAt, List.mem_cons, forall_eq_or_imp] using ⟨h.1, ih _ h.2⟩

theorem setEach_forall {α : Type} {P : Line → Prop} {f : Line → α → Line} {as : List α}
    (hf : ∀ l, ∀ a ∈ as, P l → P (f l a)) {ls : List Line} (h : ∀ l ∈ ls, P l) : ∀ l ∈ setEach f as ls, P l := by
  induction as generalizing ls with
  | nil => simpa [setEach] using h
  | cons a as ih =>
    cases ls with
    | nil => simp [setEach]
    | cons l ls =>
      simp only [List.mem_cons, forall_eq_or_imp] at h
      simp only [setEach, List.mem_cons, forall_eq_or_imp]
      exact ⟨hf _ _ (by simp) h.1, ih (fun l a ha => hf l a (by simp [ha])) h.2⟩

theorem drawLines_forall {P : Line → Prop} (hP : ∀ (l : Line) (b c : Word), P l → P { l with b := b, c := c }) (q : Site)
    (st c : Nat) {ls : List Line} (ds : List Word) (h : ∀ l ∈ ls, P l) : ∀ l ∈ (drawLines q st c ls ds).1, P l := by
  induction ls generalizing st c ds with
  | nil => cases c <;> simp [drawLines]
  | cons l ls ih =>
    cases c with
    | zero => simpa [drawLines] using h
    | succ c =>
      simp only [List.mem_cons, forall_eq_or_imp] at h
      simp only [drawLines, List.mem_cons, forall_eq_or_imp]
      exact ⟨hP _ _ _ h.1, ih _ _ _ h.2⟩

/-! ### The loops as maps -/

theorem updateAt_eq_modify (f : Line → Line) (i : Nat) (ls : List Line) : updateAt f i ls = ls.modify i f := by
  apply List.ext_getElem?
  intro j
  rw [updateAt_getElem?, List.getElem?_modify]
  by_cases h : j = i
  · subst h
    simp
  · have : ¬i = j := by omega
    simp [h, this]

/-- What a change of one line does to the state. -/
theorem setLine_eq (s : State) (i : Nat) (f : Line → Line) : setLine s i f = { s with lines := s.lines.modify i f } := by
  rw [setLine, updateAt_eq_modify]

/-- What a loop over the active lines does to the state. -/
theorem forActive_eq (s : State) (f : Nat → Line → Line) :
    forActive s f = { s with lines := s.lines.mapIdx fun i l => if i < s.n then f i l else l } := by
  rw [forActive]
  congr 1
  apply List.ext_getElem?
  intro j
  rw [updateFrom_getElem?, List.getElem?_mapIdx]
  by_cases h : j < s.n <;> cases s.lines[j]? <;> simp [h]

theorem setEach_eq_mapIdx {α : Type} (f : Line → α → Line) (vs : List α) (ls : List Line) :
    setEach f vs ls = ls.mapIdx fun i l => match vs[i]? with
      | some v => f l v
      | none => l := by
  apply List.ext_getElem?
  intro j
  rw [setEach_getElem?, List.getElem?_mapIdx]
  cases vs[j]? <;> cases ls[j]? <;> rfl

end Sys2Proof.Machine
end

