-- ==== Sys2Proof/Laws/Memory.lean ====
section
/-! SUPPORT. Memory words: a read after a write, and the canonical form, which every memory operation keeps. -/

namespace Sys2Proof.Machine

theorem findCell_insertCell (k j : Nat) (v : Word) (cs : List (Nat × Word)) :
    findCell j (insertCell k v cs) = if k = j then some v else findCell j cs := by
  induction cs with
  | nil => simp [insertCell, findCell]
  | cons e cs ih =>
    obtain ⟨i, u⟩ := e
    simp only [insertCell]
    split
    · simp [findCell]
    · split
      · rename_i h
        subst h
        by_cases hj : k = j <;> simp [findCell, hj]
      · by_cases hi : i = j
        · have : ¬k = j := by omega
          simp [findCell, hi, this]
        · simp [findCell, hi, ih]

/-- The indices of a rising list lie above its lower bound. -/
theorem risingFrom_above {lo : Nat} {cs : List (Nat × Word)} (h : risingFrom (some lo) cs = true) :
    ∀ e ∈ cs, lo < e.1 := by
  induction cs generalizing lo with
  | nil => simp
  | cons e cs ih =>
    obtain ⟨i, u⟩ := e
    simp only [risingFrom, Bool.and_eq_true, decide_eq_true_eq] at h
    intro e he
    simp only [List.mem_cons] at he
    rcases he with rfl | he
    · exact h.1
    · exact lt_trans h.1 (ih h.2 e he)

theorem findCell_none_of_above {k : Nat} {cs : List (Nat × Word)} (h : ∀ e ∈ cs, k < e.1) : findCell k cs = none := by
  induction cs with
  | nil => rfl
  | cons e cs ih =>
    obtain ⟨i, u⟩ := e
    simp only [List.mem_cons, forall_eq_or_imp] at h
    have : ¬i = k := by omega
    simp [findCell, this, ih h.2]

theorem findCell_eraseCell {lo : Option Nat} {cs : List (Nat × Word)} (h : risingFrom lo cs = true) (k j : Nat) :
    findCell j (eraseCell k cs) = if k = j then none else findCell j cs := by
  induction cs generalizing lo with
  | nil => simp [eraseCell, findCell]
  | cons e cs ih =>
    obtain ⟨i, u⟩ := e
    simp only [risingFrom, Bool.and_eq_true] at h
    simp only [eraseCell]
    split
    · rename_i hi
      subst hi
      by_cases hj : i = j
      · subst hj
        simpa using findCell_none_of_above (risingFrom_above h.2)
      · simp [findCell, hj]
    · by_cases hi : i = j
      · have : ¬k = j := by omega
        simp [findCell, hi, this]
      · simp [findCell, hi, ih h.2]

theorem risingFrom_insertCell {lo : Option Nat} {k : Nat} {v : Word} {cs : List (Nat × Word)}
    (h : risingFrom lo cs = true) (hk : ∀ j, lo = some j → j < k) : risingFrom lo (insertCell k v cs) = true := by
  induction cs generalizing lo with
  | nil => cases lo <;> simp_all [insertCell, risingFrom]
  | cons e cs ih =>
    obtain ⟨i, u⟩ := e
    have hlo : risingFrom lo [(k, v)] = true := by
      cases lo with
      | none => rfl
      | some j => simpa [risingFrom] using hk j rfl
    simp only [risingFrom, Bool.and_true] at hlo
    simp only [risingFrom, Bool.and_eq_true] at h
    simp only [insertCell]
    split
    · rename_i hki
      simp only [risingFrom, Bool.and_eq_true, decide_eq_true_eq]
      exact ⟨hlo, hki, h.2⟩
    · split
      · rename_i hki
        subst hki
        simp only [risingFrom, Bool.and_eq_true]
        exact ⟨hlo, h.2⟩
      · have : i < k := by omega
        simp only [risingFrom, Bool.and_eq_true]
        exact ⟨h.1, ih h.2 (by intro j hj; simp only [Option.some.injEq] at hj; omega)⟩

theorem risingFrom_weaken {lo : Option Nat} {i : Nat} {cs : List (Nat × Word)} (h : risingFrom (some i) cs = true)
    (hlo : ∀ j, lo = some j → j < i) : risingFrom lo cs = true := by
  cases cs with
  | nil => cases lo <;> rfl
  | cons e cs =>
    obtain ⟨a, b⟩ := e
    simp only [risingFrom, Bool.and_eq_true, decide_eq_true_eq] at h ⊢
    refine ⟨?_, h.2⟩
    cases lo with
    | none => rfl
    | some j => have := hlo j rfl; simp; omega

theorem risingFrom_eraseCell {lo : Option Nat} {k : Nat} {cs : List (Nat × Word)} (h : risingFrom lo cs = true) :
    risingFrom lo (eraseCell k cs) = true := by
  induction cs generalizing lo with
  | nil => simp [eraseCell, risingFrom]
  | cons e cs ih =>
    obtain ⟨i, u⟩ := e
    simp only [risingFrom, Bool.and_eq_true] at h
    simp only [eraseCell]
    split
    · refine risingFrom_weaken h.2 ?_
      rintro j rfl
      simpa using h.1
    · simp only [risingFrom, Bool.and_eq_true]
      exact ⟨h.1, ih h.2⟩

theorem mem_insertCell {k : Nat} {v : Word} {cs : List (Nat × Word)} {e : Nat × Word} (h : e ∈ insertCell k v cs) :
    e = (k, v) ∨ e ∈ cs := by
  induction cs with
  | nil => simpa [insertCell] using h
  | cons d cs ih =>
    obtain ⟨i, u⟩ := d
    simp only [insertCell] at h
    split at h
    · simpa using h
    · split at h
      · simp only [List.mem_cons] at h ⊢
        tauto
      · simp only [List.mem_cons] at h ⊢
        rcases h with h | h
        · exact Or.inr (Or.inl h)
        · rcases ih h with h | h
          · exact Or.inl h
          · exact Or.inr (Or.inr h)

theorem mem_eraseCell {k : Nat} {cs : List (Nat × Word)} {e : Nat × Word} (h : e ∈ eraseCell k cs) : e ∈ cs := by
  induction cs with
  | nil => simp [eraseCell] at h
  | cons d cs ih =>
    obtain ⟨i, u⟩ := d
    simp only [eraseCell] at h
    split at h
    · exact List.mem_cons_of_mem _ h
    · simp only [List.mem_cons] at h ⊢
      rcases h with h | h
      · exact Or.inl h
      · exact Or.inr (ih h)

@[simp] theorem memWrite_fill (m : Mem) (k : Nat) (v : Word) : (memWrite m k v).fill = m.fill := by
  unfold memWrite
  split <;> rfl

/-- R18: a read after a write: the written word at its index, the old word everywhere else. -/
theorem memRead_memWrite {m : Mem} (h : risingFrom none m.cells = true) (k j : Nat) (v : Word) :
    memRead (memWrite m k v) j = if k = j then v else memRead m j := by
  unfold memWrite
  split
  · rename_i hv
    by_cases hj : k = j
    · subst hj
      simp [memRead, findCell_eraseCell h, hv]
    · simp [memRead, findCell_eraseCell h, hj]
  · by_cases hj : k = j <;> simp [memRead, findCell_insertCell, hj]

/-- Every write keeps the canonical form of a memory. -/
theorem memWf_memWrite {size : Nat} {m : Mem} {k : Nat} {v : Word} (h : memWf size m = true) (hk : k < size) :
    memWf size (memWrite m k v) = true := by
  simp only [memWf, Bool.and_eq_true, List.all_eq_true, decide_eq_true_eq, bne_iff_ne, ne_eq] at h ⊢
  obtain ⟨hr, ha⟩ := h
  unfold memWrite
  split
  · exact ⟨risingFrom_eraseCell hr, fun e he => ha e (mem_eraseCell he)⟩
  · rename_i hv
    refine ⟨risingFrom_insertCell hr (by simp), fun e he => ?_⟩
    rcases mem_insertCell he with rfl | he
    · exact ⟨hk, hv⟩
    · exact ha e he

/-- A cleared memory has the canonical form and reads +0.0 everywhere. -/
theorem memWf_cleared (size : Nat) : memWf size memCleared = true := rfl

@[simp] theorem memRead_cleared (k : Nat) : memRead memCleared k = 0#32 := rfl

/-- A memory right after a hardware reset has the canonical form. -/
theorem memWf_powerOn (size : Nat) (q : Site) : memWf size ⟨.powerOn q, []⟩ = true := rfl

theorem memWf_rising {size : Nat} {m : Mem} (h : memWf size m = true) : risingFrom none m.cells = true := by
  simp only [memWf, Bool.and_eq_true] at h
  exact h.1

end Sys2Proof.Machine
end

