-- ==== Sys2Proof/Laws/Micro.lean ====
section
/-! SUPPORT. The micro-operations of a line: which registers each one can write, said once. -/

namespace Sys2Proof.Machine

/-- R141: `DL_setDelay` writes the effective delay only. -/
theorem dlSetDelay_writes (c : Cfg) (q : Site) (len : Word) (l : Line) : ∃ d, dlSetDelay c q len l = { l with delay := d } := by
  unfold dlSetDelay
  split_ifs <;> exact ⟨_, rfl⟩

/-- R212: `ApplyDelay` writes the effective delay only. -/
theorem applyDelay_writes (s : State) (q : Site) (l : Line) : ∃ d, applyDelay s q l = { l with delay := d } := by
  unfold applyDelay
  dsimp only
  split_ifs
  · exact ⟨_, rfl⟩
  · exact ⟨_, rfl⟩
  · exact dlSetDelay_writes _ _ _ _

/-- R212: `FollowDelay` writes the fixed shelf's coefficients and the effective delay. -/
theorem followDelay_writes (s : State) (q : Site) (l : Line) :
    ∃ d k, followDelay s q l = { l with delay := d, fx := setCoeffs k l.fx } := by
  obtain ⟨d, h⟩ := applyDelay_writes s (1 :: q) (recomputeFixed s (0 :: q) l)
  exact ⟨d, _, h⟩

/-- R165: `RecomputeUser` writes the user shelves' coefficients, each only when its parameters are valid. -/
theorem recomputeUser_writes (s : State) (q : Site) (l : Line) :
    recomputeUser s q l = { l with
      ls := if s.lsValid then setCoeffs (shelfLow s.cfg (0 :: q) s.lsT s.lsF (u2f s.cfg l.len) s.fs) l.ls else l.ls
      hs := if s.hsValid then setCoeffs (shelfHigh s.cfg (1 :: q) s.hsT s.hsF (u2f s.cfg l.len) s.fs) l.hs else l.hs } := by
  unfold recomputeUser recomputeHigh recomputeLow
  cases s.lsValid <;> cases s.hsValid <;> rfl

/-- R165: `RecomputeUser` writes coefficients of the user shelves only. -/
theorem recomputeUser_writes_only (s : State) (q : Site) (l : Line) :
    ∃ f g : Filter, recomputeUser s q l = { l with ls := f, hs := g } ∧ f.x1 = l.ls.x1 ∧ f.y1 = l.ls.y1 ∧ g.x1 = l.hs.x1 ∧
      g.y1 = l.hs.y1 := by
  rw [recomputeUser_writes]
  refine ⟨_, _, rfl, ?_⟩
  cases s.lsValid <;> cases s.hsValid <;> exact ⟨rfl, rfl, rfl, rfl⟩

/-- R210: `Seed` sets the nominal length and the target to the table entry, clears ramp and offset, and writes the effective delay
and coefficients. -/
theorem seedLine_writes (s : State) (q : Site) (l : Line) : ∃ (d : Word) (f g h : Filter),
    seedLine s q l = { l with
      dcur := u2f s.cfg l.len, dtgt := u2f s.cfg l.len, dstep := f0, dcnt := 0, lfo := f0, delay := d, ls := f, hs := g, fx := h } ∧
      f.x1 = l.ls.x1 ∧ f.y1 = l.ls.y1 ∧ g.x1 = l.hs.x1 ∧ g.y1 = l.hs.y1 ∧ h.x1 = l.fx.x1 ∧ h.y1 = l.fx.y1 := by
  unfold seedLine
  dsimp only
  obtain ⟨d, h⟩ := dlSetDelay_writes s.cfg (0 :: q) (u2f s.cfg l.len)
    { l with dcur := u2f s.cfg l.len, dtgt := u2f s.cfg l.len, dstep := f0, dcnt := 0, lfo := f0 }
  rw [h]
  obtain ⟨f, g, h2, h3, h4, h5, h6⟩ := recomputeUser_writes_only s (1 :: q)
    { l with dcur := u2f s.cfg l.len, dtgt := u2f s.cfg l.len, dstep := f0, dcnt := 0, lfo := f0, delay := d }
  rw [h2]
  exact ⟨d, f, g, _, rfl, h3, h4, h5, h6, rfl, rfl⟩

/-- R211: `StartRamp` writes the smoothing state, the effective delay and the fixed shelf's coefficients. -/
theorem startRamp_writes (s : State) (q : Site) (target : Word) (l : Line) : ∃ (d cur step : Word) (k : Nat) (h : Filter),
    startRamp s q target l = { l with dtgt := target, dcur := cur, dstep := step, dcnt := k, delay := d, fx := h } ∧
      h.x1 = l.fx.x1 ∧ h.y1 = l.fx.y1 := by
  unfold startRamp
  split_ifs
  · obtain ⟨d, k, h⟩ := followDelay_writes s (0 :: q) { l with dtgt := target, dcur := target, dstep := f0, dcnt := 0 }
    rw [h]
    exact ⟨d, _, _, _, _, rfl, rfl, rfl⟩
  · exact ⟨_, _, _, _, _, rfl, rfl, rfl⟩

/-- R213: a step of a line that is not ramping does nothing. -/
theorem rampStep_idle {s : State} {q : Site} {l : Line} (h : l.dcnt = 0) : rampStep s q l = l := by
  unfold rampStep
  rw [h]

/-- R213: a step of a ramp takes one off the count, moves the nominal length (to the target in the last step) and writes the
effective delay and the fixed shelf's coefficients. -/
theorem rampStep_runs {s : State} {q : Site} {l : Line} (h : l.dcnt ≠ 0) : ∃ (d cur : Word) (k : Coeffs),
    rampStep s q l = { l with dcnt := l.dcnt - 1, dcur := cur, delay := d, fx := setCoeffs k l.fx } ∧
      (l.dcnt = 1 → cur = l.dtgt) := by
  unfold rampStep
  split
  · exact absurd ‹_› h
  · obtain ⟨d, k, e⟩ := followDelay_writes s (0 :: q) { l with dcnt := 0, dcur := l.dtgt }
    rw [e, show l.dcnt - 1 = 0 by omega]
    exact ⟨d, l.dtgt, k, rfl, fun _ => rfl⟩
  · rename_i n e0
    obtain ⟨d, k, e⟩ := followDelay_writes s (0 :: q) { l with dcnt := n + 1, dcur := fadd s.cfg (1 :: q) l.dcur l.dstep }
    rw [e, show l.dcnt - 1 = n + 1 by omega]
    exact ⟨d, _, k, rfl, by omega⟩

/-- R213: what a ramp step can write. -/
theorem rampStep_writes (s : State) (q : Site) (l : Line) : ∃ (d cur : Word) (n : Nat) (h : Filter),
    rampStep s q l = { l with dcnt := n, dcur := cur, delay := d, fx := h } ∧ h.x1 = l.fx.x1 ∧ h.y1 = l.fx.y1 := by
  by_cases h : l.dcnt = 0
  · exact ⟨_, _, _, _, rampStep_idle h, rfl, rfl⟩
  · obtain ⟨d, cur, k, e, -⟩ := rampStep_runs (s := s) (q := q) h
    exact ⟨d, cur, _, _, e, rfl, rfl⟩

/-- R220, R222, R223: what a line whose table entry has changed can have written. -/
theorem retarget_writes (s : State) (q : Site) (l : Line) : ∃ (d cur step : Word) (k : Nat) (f g h : Filter),
    retarget s q l = { l with
      dtgt := u2f s.cfg l.len, dcur := cur, dstep := step, dcnt := k, delay := d, ls := f, hs := g, fx := h } ∧
      f.x1 = l.ls.x1 ∧ f.y1 = l.ls.y1 ∧ g.x1 = l.hs.x1 ∧ g.y1 = l.hs.y1 ∧ h.x1 = l.fx.x1 ∧ h.y1 = l.fx.y1 := by
  unfold retarget
  obtain ⟨f, g, e, h1, h2, h3, h4⟩ := recomputeUser_writes_only s (0 :: q) l
  rw [e]
  obtain ⟨d, cur, step, k, h, e2, h5, h6⟩ := startRamp_writes s (1 :: q) (u2f s.cfg l.len) { l with ls := f, hs := g }
  rw [e2]
  exact ⟨d, cur, step, k, f, g, h, rfl, h1, h2, h3, h4, h5, h6⟩

/-- R270: `ModLine` writes the rate, the phase, the offset and the effective delay. -/
theorem modLine_writes (s : State) (q : Site) (depth rate : Word) (l : Line) : ∃ d : Word,
    modLine s q depth rate l = { l with
      rate := rate, phase := advancePhase s.cfg (1 :: q) l.phase (fdiv s.cfg (0 :: q) rate s.fs)
      lfo := fmul s.cfg (2 :: q) depth (numSinTurns s.cfg (advancePhase s.cfg (1 :: q) l.phase (fdiv s.cfg (0 :: q) rate s.fs)))
      delay := d } :=
  applyDelay_writes s (3 :: q) _

/-- R250: what the work of a line in a PROC writes: the ramp's registers, one word of the buffer at the cursor, the cursor, the
histories and the filtered output. -/
theorem procLine_writes (s : State) (q : Site) (x : Word) (l : Line) : ∃ (d cur o : Word) (n : Nat) (f g h : Filter),
    procLine s q x l = { l with
      dcnt := n, dcur := cur, delay := d, w := (l.w + 1) % s.cfg.buflen
      buf := memWrite l.buf l.w (fadd s.cfg (1 :: q) (fmul s.cfg (2 :: q) l.b x) l.fbin), ls := f, hs := g, fx := h, fo := o } := by
  unfold procLine
  obtain ⟨d, cur, n, h, e, -, -⟩ := rampStep_writes s (0 :: q) l
  rw [e]
  exact ⟨d, cur, _, n, _, _, _, rfl⟩

/-- R191: an operation that leaves topology, order, configuration and matrix store leaves the effective matrix. -/
theorem meff_congr {s t : State} (h1 : t.topo = s.topo) (h2 : t.cm = s.cm) (h3 : t.cfg = s.cfg) (r c : Nat) :
    meff t r c = meff s r c := by
  unfold meff readCell cellIndex
  rw [h1, h2, h3]

/-- R15: a draw of gains obeys the law. -/
theorem gainLaw_lawful (v : Word) : gainLaw (lawfulGain v) = true := by
  unfold lawfulGain
  split
  · assumption
  · decide

end Sys2Proof.Machine
end

