-- ==== Sys2Proof/Laws/PerInstr.lean ====
section
/-! SUPPORT. The header fields of the encoder's words, and the per-instruction family `HeaderForm`: the header an instruction is
encoded with carries its opcode and announces exactly the payload that follows it (R112 to R116, R120). -/

namespace Sys2Proof

/-! ### Header fields -/

theorem opcOf_headerZ (opc : Byte) : opcOf (headerZ opc) = opc := by
  apply BitVec.eq_of_getLsbD_eq
  intro i hi
  simp only [opcOf, headerZ, BitVec.getLsbD_extractLsb', BitVec.getLsbD_append]
  simp [hi]

theorem opcOf_headerI (opc a b : Byte) : opcOf (headerI opc a b) = opc := by
  apply BitVec.eq_of_getLsbD_eq
  intro i hi
  simp only [opcOf, headerI, BitVec.getLsbD_extractLsb', BitVec.getLsbD_append]
  have h1 : ¬24 + i < 8 := by omega
  have h2 : ¬24 + i - 8 < 8 := by omega
  have h3 : ¬24 + i - 8 - 8 < 8 := by omega
  have h4 : 24 + i - 8 - 8 - 8 = i := by omega
  simp [hi, h1, h2, h3, h4]

theorem fieldA_headerI (opc a b : Byte) : fieldA (headerI opc a b) = a := by
  apply BitVec.eq_of_getLsbD_eq
  intro i hi
  simp only [fieldA, headerI, BitVec.getLsbD_extractLsb', BitVec.getLsbD_append]
  have h1 : ¬16 + i < 8 := by omega
  have h2 : ¬16 + i - 8 < 8 := by omega
  have h3 : 16 + i - 8 - 8 < 8 := by omega
  have h4 : 16 + i - 8 - 8 = i := by omega
  simp [hi, h1, h2, h4]

theorem fieldB_headerI (opc a b : Byte) : fieldB (headerI opc a b) = b := by
  apply BitVec.eq_of_getLsbD_eq
  intro i hi
  simp only [fieldB, headerI, BitVec.getLsbD_extractLsb', BitVec.getLsbD_append]
  simp [hi]

theorem opcOf_headerL (opc : Byte) (ws : List Word) : opcOf (headerL opc ws) = opc := by
  apply BitVec.eq_of_getLsbD_eq
  intro i hi
  simp only [opcOf, headerL, BitVec.getLsbD_extractLsb', BitVec.getLsbD_append]
  have h1 : ¬24 + i < 12 := by omega
  have h2 : ¬24 + i - 12 < 12 := by omega
  have h3 : 24 + i - 12 - 12 = i := by omega
  simp [hi, h1, h2, h3]

theorem lenOf_headerL {opc : Byte} {ws : List Word} (h : ws.length < 4096) : lenOf (headerL opc ws) = ws.length := by
  have e : (headerL opc ws).extractLsb' 0 12 = BitVec.ofNat 12 ws.length := by
    apply BitVec.eq_of_getLsbD_eq
    intro i hi
    simp only [headerL, BitVec.getLsbD_extractLsb', BitVec.getLsbD_append]
    simp [hi]
  rw [lenOf, e, BitVec.toNat_ofNat]
  exact Nat.mod_eq_of_lt h

theorem bulkFits_iff (ws : List Word) : bulkFits ws = true ↔ ws.length < 4096 := by simp [bulkFits]

namespace Laws

open Sys2Proof.Machine

/-- R112, R120: of a well-formed instruction that is a packet: its header carries its opcode and announces its payload. -/
def HeaderForm.Statement (i : Instr) : Prop :=
  ∀ h ws, encode i = .packet (h :: ws) → i.wf = true → opcOf h = opcodeOf i ∧ payloadLen h = ws.length

theorem headerForm_z {opc : Byte} {r : Row} (h : Word) (ws : List Word) (hr : rowOf opc = some r) (hf : r.fmt = .z)
    (he : Request.packet [headerZ opc] = .packet (h :: ws)) : opcOf h = opc ∧ payloadLen h = ws.length := by
  simp only [Request.packet.injEq, List.cons.injEq] at he
  obtain ⟨rfl, rfl⟩ := he
  simp [payloadLen, opcOf_headerZ, hr, Row.payloadLen, hf]

theorem headerForm_i {opc a b : Byte} {r : Row} {payload : List Word} (h : Word) (ws : List Word) (hr : rowOf opc = some r)
    (hf : r.fmt = .i payload.length) (he : Request.packet (headerI opc a b :: payload) = .packet (h :: ws)) :
    opcOf h = opc ∧ payloadLen h = ws.length := by
  simp only [Request.packet.injEq, List.cons.injEq] at he
  obtain ⟨rfl, rfl⟩ := he
  simp [payloadLen, opcOf_headerI, hr, Row.payloadLen, hf]

theorem headerForm_l {opc : Byte} {r : Row} {payload : List Word} (h : Word) (ws : List Word) (hr : rowOf opc = some r)
    (hf : r.fmt = .l) (hl : bulkFits payload = true) (he : Request.packet (headerL opc payload :: payload) = .packet (h :: ws)) :
    opcOf h = opc ∧ payloadLen h = ws.length := by
  simp only [Request.packet.injEq, List.cons.injEq] at he
  obtain ⟨rfl, rfl⟩ := he
  simp [payloadLen, opcOf_headerL, hr, Row.payloadLen, hf, lenOf_headerL ((bulkFits_iff _).mp hl)]

theorem HeaderForm.nop : HeaderForm.Statement .nop := fun h ws he _ => headerForm_z h ws rfl rfl he

theorem HeaderForm.init (order : Byte) (fs lowMs highMs : Word) : HeaderForm.Statement (.init order fs lowMs highMs) :=
  fun h ws he _ => headerForm_i (payload := [fs, lowMs, highMs]) h ws rfl rfl he

theorem HeaderForm.updord (newOrder selector : Byte) : HeaderForm.Statement (.updord newOrder selector) :=
  fun h ws he _ => headerForm_i (payload := []) h ws rfl rfl he

theorem HeaderForm.upddly (targetMs : Word) : HeaderForm.Statement (.upddly targetMs) :=
  fun h ws he _ => headerForm_i (payload := [targetMs]) h ws rfl rfl he

theorem HeaderForm.setdly (i : Byte) (ms : Word) : HeaderForm.Statement (.setdly i ms) :=
  fun h ws he _ => headerForm_i (payload := [ms]) h ws rfl rfl he

theorem HeaderForm.setdlys (ms : List Word) : HeaderForm.Statement (.setdlys ms) :=
  fun h ws he hw => headerForm_l h ws rfl rfl hw he

theorem HeaderForm.setls (t f : Word) : HeaderForm.Statement (.setls t f) :=
  fun h ws he _ => headerForm_i (payload := [t, f]) h ws rfl rfl he

theorem HeaderForm.seths (t f : Word) : HeaderForm.Statement (.seths t f) :=
  fun h ws he _ => headerForm_i (payload := [t, f]) h ws rfl rfl he

theorem HeaderForm.updmod (depth rate : Word) : HeaderForm.Statement (.updmod depth rate) :=
  fun h ws he _ => headerForm_i (payload := [depth, rate]) h ws rfl rfl he

theorem HeaderForm.updmodl (i : Byte) (depth rate : Word) : HeaderForm.Statement (.updmodl i depth rate) :=
  fun h ws he _ => headerForm_i (payload := [depth, rate]) h ws rfl rfl he

theorem HeaderForm.setmix (w : Word) : HeaderForm.Statement (.setmix w) :=
  fun h ws he _ => headerForm_i (payload := [w]) h ws rfl rfl he

theorem HeaderForm.settopo (selector : Byte) : HeaderForm.Statement (.settopo selector) :=
  fun h ws he _ => headerForm_i (payload := []) h ws rfl rfl he

theorem HeaderForm.setb (i : Byte) (v : Word) : HeaderForm.Statement (.setb i v) :=
  fun h ws he _ => headerForm_i (payload := [v]) h ws rfl rfl he

theorem HeaderForm.setbs (v : List Word) : HeaderForm.Statement (.setbs v) :=
  fun h ws he hw => headerForm_l h ws rfl rfl hw he

theorem HeaderForm.setc (i : Byte) (v : Word) : HeaderForm.Statement (.setc i v) :=
  fun h ws he _ => headerForm_i (payload := [v]) h ws rfl rfl he

theorem HeaderForm.setcs (v : List Word) : HeaderForm.Statement (.setcs v) :=
  fun h ws he hw => headerForm_l h ws rfl rfl hw he

theorem HeaderForm.setcell (r c : Byte) (v : Word) : HeaderForm.Statement (.setcell r c v) :=
  fun h ws he _ => headerForm_i (payload := [v]) h ws rfl rfl he

theorem HeaderForm.setmat (m : List Word) : HeaderForm.Statement (.setmat m) :=
  fun h ws he hw => headerForm_l h ws rfl rfl hw he

theorem HeaderForm.getb (i : Byte) : HeaderForm.Statement (.getb i) :=
  fun h ws he _ => headerForm_i (payload := []) h ws rfl rfl he

theorem HeaderForm.getbs : HeaderForm.Statement .getbs := fun h ws he _ => headerForm_z h ws rfl rfl he

theorem HeaderForm.getc (i : Byte) : HeaderForm.Statement (.getc i) :=
  fun h ws he _ => headerForm_i (payload := []) h ws rfl rfl he

theorem HeaderForm.getcs : HeaderForm.Statement .getcs := fun h ws he _ => headerForm_z h ws rfl rfl he

theorem HeaderForm.getdlys : HeaderForm.Statement .getdlys := fun h ws he _ => headerForm_z h ws rfl rfl he

theorem HeaderForm.getmat : HeaderForm.Statement .getmat := fun h ws he _ => headerForm_z h ws rfl rfl he

theorem HeaderForm.getstat : HeaderForm.Statement .getstat := fun h ws he _ => headerForm_z h ws rfl rfl he

theorem HeaderForm.clrerr : HeaderForm.Statement .clrerr := fun h ws he _ => headerForm_z h ws rfl rfl he

theorem HeaderForm.proc (ch : Byte) (x : Word) : HeaderForm.Statement (.proc ch x) := fun _ _ he _ => by cases he

end Laws

end Sys2Proof
end

