-- ==== Sys2Proof/Laws/State.lean ====
section
/-! SUPPORT. The fields of the state after each shared update, one lemma per field per update, so that no later proof unfolds a record
update. -/

namespace Sys2Proof.Machine

/-! ### `setLine` -/

@[simp] theorem setLine_fs (s : State) (i : Nat) (f : Line → Line) :
    (setLine s i f).fs = s.fs := rfl
@[simp] theorem setLine_n (s : State) (i : Nat) (f : Line → Line) :
    (setLine s i f).n = s.n := rfl
@[simp] theorem setLine_lowMs (s : State) (i : Nat) (f : Line → Line) :
    (setLine s i f).lowMs = s.lowMs := rfl
@[simp] theorem setLine_highMs (s : State) (i : Nat) (f : Line → Line) :
    (setLine s i f).highMs = s.highMs := rfl
@[simp] theorem setLine_wet (s : State) (i : Nat) (f : Line → Line) :
    (setLine s i f).wet = s.wet := rfl
@[simp] theorem setLine_modDepth (s : State) (i : Nat) (f : Line → Line) :
    (setLine s i f).modDepth = s.modDepth := rfl
@[simp] theorem setLine_modRate (s : State) (i : Nat) (f : Line → Line) :
    (setLine s i f).modRate = s.modRate := rfl
@[simp] theorem setLine_lsT (s : State) (i : Nat) (f : Line → Line) :
    (setLine s i f).lsT = s.lsT := rfl
@[simp] theorem setLine_lsF (s : State) (i : Nat) (f : Line → Line) :
    (setLine s i f).lsF = s.lsF := rfl
@[simp] theorem setLine_hsT (s : State) (i : Nat) (f : Line → Line) :
    (setLine s i f).hsT = s.hsT := rfl
@[simp] theorem setLine_hsF (s : State) (i : Nat) (f : Line → Line) :
    (setLine s i f).hsF = s.hsF := rfl
@[simp] theorem setLine_rampLen (s : State) (i : Nat) (f : Line → Line) :
    (setLine s i f).rampLen = s.rampLen := rfl
@[simp] theorem setLine_lsValid (s : State) (i : Nat) (f : Line → Line) :
    (setLine s i f).lsValid = s.lsValid := rfl
@[simp] theorem setLine_hsValid (s : State) (i : Nat) (f : Line → Line) :
    (setLine s i f).hsValid = s.hsValid := rfl
@[simp] theorem setLine_topo (s : State) (i : Nat) (f : Line → Line) :
    (setLine s i f).topo = s.topo := rfl
@[simp] theorem setLine_reconf (s : State) (i : Nat) (f : Line → Line) :
    (setLine s i f).reconf = s.reconf := rfl
@[simp] theorem setLine_inited (s : State) (i : Nat) (f : Line → Line) :
    (setLine s i f).inited = s.inited := rfl
@[simp] theorem setLine_err (s : State) (i : Nat) (f : Line → Line) :
    (setLine s i f).err = s.err := rfl
@[simp] theorem setLine_lastErr (s : State) (i : Nat) (f : Line → Line) :
    (setLine s i f).lastErr = s.lastErr := rfl
@[simp] theorem setLine_rphase (s : State) (i : Nat) (f : Line → Line) :
    (setLine s i f).rphase = s.rphase := rfl
@[simp] theorem setLine_lines (s : State) (i : Nat) (f : Line → Line) :
    (setLine s i f).lines = updateAt f i s.lines := rfl
@[simp] theorem setLine_cm (s : State) (i : Nat) (f : Line → Line) :
    (setLine s i f).cm = s.cm := rfl
@[simp] theorem setLine_cmdq (s : State) (i : Nat) (f : Line → Line) :
    (setLine s i f).cmdq = s.cmdq := rfl
@[simp] theorem setLine_rspq (s : State) (i : Nat) (f : Line → Line) :
    (setLine s i f).rspq = s.rspq := rfl
@[simp] theorem setLine_running (s : State) (i : Nat) (f : Line → Line) :
    (setLine s i f).running = s.running := rfl
@[simp] theorem setLine_found (s : State) (i : Nat) (f : Line → Line) :
    (setLine s i f).found = s.found := rfl
@[simp] theorem setLine_audY (s : State) (i : Nat) (f : Line → Line) :
    (setLine s i f).audY = s.audY := rfl
@[simp] theorem setLine_cfg (s : State) (i : Nat) (f : Line → Line) :
    (setLine s i f).cfg = s.cfg := rfl
@[simp] theorem setLine_inbox (s : State) (i : Nat) (f : Line → Line) :
    (setLine s i f).inbox = s.inbox := rfl
@[simp] theorem setLine_draws (s : State) (i : Nat) (f : Line → Line) :
    (setLine s i f).draws = s.draws := rfl
@[simp] theorem setLine_epoch (s : State) (i : Nat) (f : Line → Line) :
    (setLine s i f).epoch = s.epoch := rfl

/-! ### `forActive` -/

@[simp] theorem forActive_fs (s : State) (f : Nat → Line → Line) :
    (forActive s f).fs = s.fs := rfl
@[simp] theorem forActive_n (s : State) (f : Nat → Line → Line) :
    (forActive s f).n = s.n := rfl
@[simp] theorem forActive_lowMs (s : State) (f : Nat → Line → Line) :
    (forActive s f).lowMs = s.lowMs := rfl
@[simp] theorem forActive_highMs (s : State) (f : Nat → Line → Line) :
    (forActive s f).highMs = s.highMs := rfl
@[simp] theorem forActive_wet (s : State) (f : Nat → Line → Line) :
    (forActive s f).wet = s.wet := rfl
@[simp] theorem forActive_modDepth (s : State) (f : Nat → Line → Line) :
    (forActive s f).modDepth = s.modDepth := rfl
@[simp] theorem forActive_modRate (s : State) (f : Nat → Line → Line) :
    (forActive s f).modRate = s.modRate := rfl
@[simp] theorem forActive_lsT (s : State) (f : Nat → Line → Line) :
    (forActive s f).lsT = s.lsT := rfl
@[simp] theorem forActive_lsF (s : State) (f : Nat → Line → Line) :
    (forActive s f).lsF = s.lsF := rfl
@[simp] theorem forActive_hsT (s : State) (f : Nat → Line → Line) :
    (forActive s f).hsT = s.hsT := rfl
@[simp] theorem forActive_hsF (s : State) (f : Nat → Line → Line) :
    (forActive s f).hsF = s.hsF := rfl
@[simp] theorem forActive_rampLen (s : State) (f : Nat → Line → Line) :
    (forActive s f).rampLen = s.rampLen := rfl
@[simp] theorem forActive_lsValid (s : State) (f : Nat → Line → Line) :
    (forActive s f).lsValid = s.lsValid := rfl
@[simp] theorem forActive_hsValid (s : State) (f : Nat → Line → Line) :
    (forActive s f).hsValid = s.hsValid := rfl
@[simp] theorem forActive_topo (s : State) (f : Nat → Line → Line) :
    (forActive s f).topo = s.topo := rfl
@[simp] theorem forActive_reconf (s : State) (f : Nat → Line → Line) :
    (forActive s f).reconf = s.reconf := rfl
@[simp] theorem forActive_inited (s : State) (f : Nat → Line → Line) :
    (forActive s f).inited = s.inited := rfl
@[simp] theorem forActive_err (s : State) (f : Nat → Line → Line) :
    (forActive s f).err = s.err := rfl
@[simp] theorem forActive_lastErr (s : State) (f : Nat → Line → Line) :
    (forActive s f).lastErr = s.lastErr := rfl
@[simp] theorem forActive_rphase (s : State) (f : Nat → Line → Line) :
    (forActive s f).rphase = s.rphase := rfl
@[simp] theorem forActive_lines (s : State) (f : Nat → Line → Line) :
    (forActive s f).lines = updateFrom f 0 s.n s.lines := rfl
@[simp] theorem forActive_cm (s : State) (f : Nat → Line → Line) :
    (forActive s f).cm = s.cm := rfl
@[simp] theorem forActive_cmdq (s : State) (f : Nat → Line → Line) :
    (forActive s f).cmdq = s.cmdq := rfl
@[simp] theorem forActive_rspq (s : State) (f : Nat → Line → Line) :
    (forActive s f).rspq = s.rspq := rfl
@[simp] theorem forActive_running (s : State) (f : Nat → Line → Line) :
    (forActive s f).running = s.running := rfl
@[simp] theorem forActive_found (s : State) (f : Nat → Line → Line) :
    (forActive s f).found = s.found := rfl
@[simp] theorem forActive_audY (s : State) (f : Nat → Line → Line) :
    (forActive s f).audY = s.audY := rfl
@[simp] theorem forActive_cfg (s : State) (f : Nat → Line → Line) :
    (forActive s f).cfg = s.cfg := rfl
@[simp] theorem forActive_inbox (s : State) (f : Nat → Line → Line) :
    (forActive s f).inbox = s.inbox := rfl
@[simp] theorem forActive_draws (s : State) (f : Nat → Line → Line) :
    (forActive s f).draws = s.draws := rfl
@[simp] theorem forActive_epoch (s : State) (f : Nat → Line → Line) :
    (forActive s f).epoch = s.epoch := rfl

/-! ### `forAll` -/

@[simp] theorem forAll_fs (s : State) (f : Line → Line) :
    (forAll s f).fs = s.fs := rfl
@[simp] theorem forAll_n (s : State) (f : Line → Line) :
    (forAll s f).n = s.n := rfl
@[simp] theorem forAll_lowMs (s : State) (f : Line → Line) :
    (forAll s f).lowMs = s.lowMs := rfl
@[simp] theorem forAll_highMs (s : State) (f : Line → Line) :
    (forAll s f).highMs = s.highMs := rfl
@[simp] theorem forAll_wet (s : State) (f : Line → Line) :
    (forAll s f).wet = s.wet := rfl
@[simp] theorem forAll_modDepth (s : State) (f : Line → Line) :
    (forAll s f).modDepth = s.modDepth := rfl
@[simp] theorem forAll_modRate (s : State) (f : Line → Line) :
    (forAll s f).modRate = s.modRate := rfl
@[simp] theorem forAll_lsT (s : State) (f : Line → Line) :
    (forAll s f).lsT = s.lsT := rfl
@[simp] theorem forAll_lsF (s : State) (f : Line → Line) :
    (forAll s f).lsF = s.lsF := rfl
@[simp] theorem forAll_hsT (s : State) (f : Line → Line) :
    (forAll s f).hsT = s.hsT := rfl
@[simp] theorem forAll_hsF (s : State) (f : Line → Line) :
    (forAll s f).hsF = s.hsF := rfl
@[simp] theorem forAll_rampLen (s : State) (f : Line → Line) :
    (forAll s f).rampLen = s.rampLen := rfl
@[simp] theorem forAll_lsValid (s : State) (f : Line → Line) :
    (forAll s f).lsValid = s.lsValid := rfl
@[simp] theorem forAll_hsValid (s : State) (f : Line → Line) :
    (forAll s f).hsValid = s.hsValid := rfl
@[simp] theorem forAll_topo (s : State) (f : Line → Line) :
    (forAll s f).topo = s.topo := rfl
@[simp] theorem forAll_reconf (s : State) (f : Line → Line) :
    (forAll s f).reconf = s.reconf := rfl
@[simp] theorem forAll_inited (s : State) (f : Line → Line) :
    (forAll s f).inited = s.inited := rfl
@[simp] theorem forAll_err (s : State) (f : Line → Line) :
    (forAll s f).err = s.err := rfl
@[simp] theorem forAll_lastErr (s : State) (f : Line → Line) :
    (forAll s f).lastErr = s.lastErr := rfl
@[simp] theorem forAll_rphase (s : State) (f : Line → Line) :
    (forAll s f).rphase = s.rphase := rfl
@[simp] theorem forAll_lines (s : State) (f : Line → Line) :
    (forAll s f).lines = s.lines.map f := rfl
@[simp] theorem forAll_cm (s : State) (f : Line → Line) :
    (forAll s f).cm = s.cm := rfl
@[simp] theorem forAll_cmdq (s : State) (f : Line → Line) :
    (forAll s f).cmdq = s.cmdq := rfl
@[simp] theorem forAll_rspq (s : State) (f : Line → Line) :
    (forAll s f).rspq = s.rspq := rfl
@[simp] theorem forAll_running (s : State) (f : Line → Line) :
    (forAll s f).running = s.running := rfl
@[simp] theorem forAll_found (s : State) (f : Line → Line) :
    (forAll s f).found = s.found := rfl
@[simp] theorem forAll_audY (s : State) (f : Line → Line) :
    (forAll s f).audY = s.audY := rfl
@[simp] theorem forAll_cfg (s : State) (f : Line → Line) :
    (forAll s f).cfg = s.cfg := rfl
@[simp] theorem forAll_inbox (s : State) (f : Line → Line) :
    (forAll s f).inbox = s.inbox := rfl
@[simp] theorem forAll_draws (s : State) (f : Line → Line) :
    (forAll s f).draws = s.draws := rfl
@[simp] theorem forAll_epoch (s : State) (f : Line → Line) :
    (forAll s f).epoch = s.epoch := rfl

/-! ### `writeCell` -/

@[simp] theorem writeCell_fs (s : State) (r c : Nat) (v : Word) :
    (writeCell s r c v).fs = s.fs := rfl
@[simp] theorem writeCell_n (s : State) (r c : Nat) (v : Word) :
    (writeCell s r c v).n = s.n := rfl
@[simp] theorem writeCell_lowMs (s : State) (r c : Nat) (v : Word) :
    (writeCell s r c v).lowMs = s.lowMs := rfl
@[simp] theorem writeCell_highMs (s : State) (r c : Nat) (v : Word) :
    (writeCell s r c v).highMs = s.highMs := rfl
@[simp] theorem writeCell_wet (s : State) (r c : Nat) (v : Word) :
    (writeCell s r c v).wet = s.wet := rfl
@[simp] theorem writeCell_modDepth (s : State) (r c : Nat) (v : Word) :
    (writeCell s r c v).modDepth = s.modDepth := rfl
@[simp] theorem writeCell_modRate (s : State) (r c : Nat) (v : Word) :
    (writeCell s r c v).modRate = s.modRate := rfl
@[simp] theorem writeCell_lsT (s : State) (r c : Nat) (v : Word) :
    (writeCell s r c v).lsT = s.lsT := rfl
@[simp] theorem writeCell_lsF (s : State) (r c : Nat) (v : Word) :
    (writeCell s r c v).lsF = s.lsF := rfl
@[simp] theorem writeCell_hsT (s : State) (r c : Nat) (v : Word) :
    (writeCell s r c v).hsT = s.hsT := rfl
@[simp] theorem writeCell_hsF (s : State) (r c : Nat) (v : Word) :
    (writeCell s r c v).hsF = s.hsF := rfl
@[simp] theorem writeCell_rampLen (s : State) (r c : Nat) (v : Word) :
    (writeCell s r c v).rampLen = s.rampLen := rfl
@[simp] theorem writeCell_lsValid (s : State) (r c : Nat) (v : Word) :
    (writeCell s r c v).lsValid = s.lsValid := rfl
@[simp] theorem writeCell_hsValid (s : State) (r c : Nat) (v : Word) :
    (writeCell s r c v).hsValid = s.hsValid := rfl
@[simp] theorem writeCell_topo (s : State) (r c : Nat) (v : Word) :
    (writeCell s r c v).topo = s.topo := rfl
@[simp] theorem writeCell_reconf (s : State) (r c : Nat) (v : Word) :
    (writeCell s r c v).reconf = s.reconf := rfl
@[simp] theorem writeCell_inited (s : State) (r c : Nat) (v : Word) :
    (writeCell s r c v).inited = s.inited := rfl
@[simp] theorem writeCell_err (s : State) (r c : Nat) (v : Word) :
    (writeCell s r c v).err = s.err := rfl
@[simp] theorem writeCell_lastErr (s : State) (r c : Nat) (v : Word) :
    (writeCell s r c v).lastErr = s.lastErr := rfl
@[simp] theorem writeCell_rphase (s : State) (r c : Nat) (v : Word) :
    (writeCell s r c v).rphase = s.rphase := rfl
@[simp] theorem writeCell_lines (s : State) (r c : Nat) (v : Word) :
    (writeCell s r c v).lines = s.lines := rfl
@[simp] theorem writeCell_cm (s : State) (r c : Nat) (v : Word) :
    (writeCell s r c v).cm = memWrite s.cm (r * s.cfg.nmax + c) v := rfl
@[simp] theorem writeCell_cmdq (s : State) (r c : Nat) (v : Word) :
    (writeCell s r c v).cmdq = s.cmdq := rfl
@[simp] theorem writeCell_rspq (s : State) (r c : Nat) (v : Word) :
    (writeCell s r c v).rspq = s.rspq := rfl
@[simp] theorem writeCell_running (s : State) (r c : Nat) (v : Word) :
    (writeCell s r c v).running = s.running := rfl
@[simp] theorem writeCell_found (s : State) (r c : Nat) (v : Word) :
    (writeCell s r c v).found = s.found := rfl
@[simp] theorem writeCell_audY (s : State) (r c : Nat) (v : Word) :
    (writeCell s r c v).audY = s.audY := rfl
@[simp] theorem writeCell_cfg (s : State) (r c : Nat) (v : Word) :
    (writeCell s r c v).cfg = s.cfg := rfl
@[simp] theorem writeCell_inbox (s : State) (r c : Nat) (v : Word) :
    (writeCell s r c v).inbox = s.inbox := rfl
@[simp] theorem writeCell_draws (s : State) (r c : Nat) (v : Word) :
    (writeCell s r c v).draws = s.draws := rfl
@[simp] theorem writeCell_epoch (s : State) (r c : Nat) (v : Word) :
    (writeCell s r c v).epoch = s.epoch := rfl

/-! ### `primeSearch` -/

@[simp] theorem primeSearch_fs (s : State) (lo hi k : Nat) :
    (primeSearch s lo hi k).fs = s.fs := rfl
@[simp] theorem primeSearch_n (s : State) (lo hi k : Nat) :
    (primeSearch s lo hi k).n = s.n := rfl
@[simp] theorem primeSearch_lowMs (s : State) (lo hi k : Nat) :
    (primeSearch s lo hi k).lowMs = s.lowMs := rfl
@[simp] theorem primeSearch_highMs (s : State) (lo hi k : Nat) :
    (primeSearch s lo hi k).highMs = s.highMs := rfl
@[simp] theorem primeSearch_wet (s : State) (lo hi k : Nat) :
    (primeSearch s lo hi k).wet = s.wet := rfl
@[simp] theorem primeSearch_modDepth (s : State) (lo hi k : Nat) :
    (primeSearch s lo hi k).modDepth = s.modDepth := rfl
@[simp] theorem primeSearch_modRate (s : State) (lo hi k : Nat) :
    (primeSearch s lo hi k).modRate = s.modRate := rfl
@[simp] theorem primeSearch_lsT (s : State) (lo hi k : Nat) :
    (primeSearch s lo hi k).lsT = s.lsT := rfl
@[simp] theorem primeSearch_lsF (s : State) (lo hi k : Nat) :
    (primeSearch s lo hi k).lsF = s.lsF := rfl
@[simp] theorem primeSearch_hsT (s : State) (lo hi k : Nat) :
    (primeSearch s lo hi k).hsT = s.hsT := rfl
@[simp] theorem primeSearch_hsF (s : State) (lo hi k : Nat) :
    (primeSearch s lo hi k).hsF = s.hsF := rfl
@[simp] theorem primeSearch_rampLen (s : State) (lo hi k : Nat) :
    (primeSearch s lo hi k).rampLen = s.rampLen := rfl
@[simp] theorem primeSearch_lsValid (s : State) (lo hi k : Nat) :
    (primeSearch s lo hi k).lsValid = s.lsValid := rfl
@[simp] theorem primeSearch_hsValid (s : State) (lo hi k : Nat) :
    (primeSearch s lo hi k).hsValid = s.hsValid := rfl
@[simp] theorem primeSearch_topo (s : State) (lo hi k : Nat) :
    (primeSearch s lo hi k).topo = s.topo := rfl
@[simp] theorem primeSearch_reconf (s : State) (lo hi k : Nat) :
    (primeSearch s lo hi k).reconf = s.reconf := rfl
@[simp] theorem primeSearch_inited (s : State) (lo hi k : Nat) :
    (primeSearch s lo hi k).inited = s.inited := rfl
@[simp] theorem primeSearch_err (s : State) (lo hi k : Nat) :
    (primeSearch s lo hi k).err = s.err := rfl
@[simp] theorem primeSearch_lastErr (s : State) (lo hi k : Nat) :
    (primeSearch s lo hi k).lastErr = s.lastErr := rfl
@[simp] theorem primeSearch_rphase (s : State) (lo hi k : Nat) :
    (primeSearch s lo hi k).rphase = s.rphase := rfl
@[simp] theorem primeSearch_lines (s : State) (lo hi k : Nat) :
    (primeSearch s lo hi k).lines = setEach setLen (primesIn lo hi k) s.lines := rfl
@[simp] theorem primeSearch_cm (s : State) (lo hi k : Nat) :
    (primeSearch s lo hi k).cm = s.cm := rfl
@[simp] theorem primeSearch_cmdq (s : State) (lo hi k : Nat) :
    (primeSearch s lo hi k).cmdq = s.cmdq := rfl
@[simp] theorem primeSearch_rspq (s : State) (lo hi k : Nat) :
    (primeSearch s lo hi k).rspq = s.rspq := rfl
@[simp] theorem primeSearch_running (s : State) (lo hi k : Nat) :
    (primeSearch s lo hi k).running = s.running := rfl
@[simp] theorem primeSearch_found (s : State) (lo hi k : Nat) :
    (primeSearch s lo hi k).found = s.found := rfl
@[simp] theorem primeSearch_audY (s : State) (lo hi k : Nat) :
    (primeSearch s lo hi k).audY = s.audY := rfl
@[simp] theorem primeSearch_cfg (s : State) (lo hi k : Nat) :
    (primeSearch s lo hi k).cfg = s.cfg := rfl
@[simp] theorem primeSearch_inbox (s : State) (lo hi k : Nat) :
    (primeSearch s lo hi k).inbox = s.inbox := rfl
@[simp] theorem primeSearch_draws (s : State) (lo hi k : Nat) :
    (primeSearch s lo hi k).draws = s.draws := rfl
@[simp] theorem primeSearch_epoch (s : State) (lo hi k : Nat) :
    (primeSearch s lo hi k).epoch = s.epoch := rfl

/-! ### `respond` -/

@[simp] theorem respond_fs (s : State) (opc : Byte) (c : Code) (d : List Word) :
    (respond s opc c d).fs = s.fs := rfl
@[simp] theorem respond_n (s : State) (opc : Byte) (c : Code) (d : List Word) :
    (respond s opc c d).n = s.n := rfl
@[simp] theorem respond_lowMs (s : State) (opc : Byte) (c : Code) (d : List Word) :
    (respond s opc c d).lowMs = s.lowMs := rfl
@[simp] theorem respond_highMs (s : State) (opc : Byte) (c : Code) (d : List Word) :
    (respond s opc c d).highMs = s.highMs := rfl
@[simp] theorem respond_wet (s : State) (opc : Byte) (c : Code) (d : List Word) :
    (respond s opc c d).wet = s.wet := rfl
@[simp] theorem respond_modDepth (s : State) (opc : Byte) (c : Code) (d : List Word) :
    (respond s opc c d).modDepth = s.modDepth := rfl
@[simp] theorem respond_modRate (s : State) (opc : Byte) (c : Code) (d : List Word) :
    (respond s opc c d).modRate = s.modRate := rfl
@[simp] theorem respond_lsT (s : State) (opc : Byte) (c : Code) (d : List Word) :
    (respond s opc c d).lsT = s.lsT := rfl
@[simp] theorem respond_lsF (s : State) (opc : Byte) (c : Code) (d : List Word) :
    (respond s opc c d).lsF = s.lsF := rfl
@[simp] theorem respond_hsT (s : State) (opc : Byte) (c : Code) (d : List Word) :
    (respond s opc c d).hsT = s.hsT := rfl
@[simp] theorem respond_hsF (s : State) (opc : Byte) (c : Code) (d : List Word) :
    (respond s opc c d).hsF = s.hsF := rfl
@[simp] theorem respond_rampLen (s : State) (opc : Byte) (c : Code) (d : List Word) :
    (respond s opc c d).rampLen = s.rampLen := rfl
@[simp] theorem respond_lsValid (s : State) (opc : Byte) (c : Code) (d : List Word) :
    (respond s opc c d).lsValid = s.lsValid := rfl
@[simp] theorem respond_hsValid (s : State) (opc : Byte) (c : Code) (d : List Word) :
    (respond s opc c d).hsValid = s.hsValid := rfl
@[simp] theorem respond_topo (s : State) (opc : Byte) (c : Code) (d : List Word) :
    (respond s opc c d).topo = s.topo := rfl
@[simp] theorem respond_reconf (s : State) (opc : Byte) (c : Code) (d : List Word) :
    (respond s opc c d).reconf = s.reconf := rfl
@[simp] theorem respond_inited (s : State) (opc : Byte) (c : Code) (d : List Word) :
    (respond s opc c d).inited = s.inited := rfl
@[simp] theorem respond_err (s : State) (opc : Byte) (c : Code) (d : List Word) :
    (respond s opc c d).err = s.err := rfl
@[simp] theorem respond_lastErr (s : State) (opc : Byte) (c : Code) (d : List Word) :
    (respond s opc c d).lastErr = s.lastErr := rfl
@[simp] theorem respond_rphase (s : State) (opc : Byte) (c : Code) (d : List Word) :
    (respond s opc c d).rphase = s.rphase := rfl
@[simp] theorem respond_lines (s : State) (opc : Byte) (c : Code) (d : List Word) :
    (respond s opc c d).lines = s.lines := rfl
@[simp] theorem respond_cm (s : State) (opc : Byte) (c : Code) (d : List Word) :
    (respond s opc c d).cm = s.cm := rfl
@[simp] theorem respond_cmdq (s : State) (opc : Byte) (c : Code) (d : List Word) :
    (respond s opc c d).cmdq = s.cmdq := rfl
@[simp] theorem respond_rspq (s : State) (opc : Byte) (c : Code) (d : List Word) :
    (respond s opc c d).rspq = s.rspq ++ responseHeader opc d.length c :: d := rfl
@[simp] theorem respond_running (s : State) (opc : Byte) (c : Code) (d : List Word) :
    (respond s opc c d).running = s.running := rfl
@[simp] theorem respond_found (s : State) (opc : Byte) (c : Code) (d : List Word) :
    (respond s opc c d).found = s.found := rfl
@[simp] theorem respond_audY (s : State) (opc : Byte) (c : Code) (d : List Word) :
    (respond s opc c d).audY = s.audY := rfl
@[simp] theorem respond_cfg (s : State) (opc : Byte) (c : Code) (d : List Word) :
    (respond s opc c d).cfg = s.cfg := rfl
@[simp] theorem respond_inbox (s : State) (opc : Byte) (c : Code) (d : List Word) :
    (respond s opc c d).inbox = s.inbox := rfl
@[simp] theorem respond_draws (s : State) (opc : Byte) (c : Code) (d : List Word) :
    (respond s opc c d).draws = s.draws := rfl
@[simp] theorem respond_epoch (s : State) (opc : Byte) (c : Code) (d : List Word) :
    (respond s opc c d).epoch = s.epoch := rfl

/-! ### `raiseCode` -/

@[simp] theorem raiseCode_fs (s : State) (opc : Byte) (c : Code) :
    (raiseCode s opc c).fs = s.fs := rfl
@[simp] theorem raiseCode_n (s : State) (opc : Byte) (c : Code) :
    (raiseCode s opc c).n = s.n := rfl
@[simp] theorem raiseCode_lowMs (s : State) (opc : Byte) (c : Code) :
    (raiseCode s opc c).lowMs = s.lowMs := rfl
@[simp] theorem raiseCode_highMs (s : State) (opc : Byte) (c : Code) :
    (raiseCode s opc c).highMs = s.highMs := rfl
@[simp] theorem raiseCode_wet (s : State) (opc : Byte) (c : Code) :
    (raiseCode s opc c).wet = s.wet := rfl
@[simp] theorem raiseCode_modDepth (s : State) (opc : Byte) (c : Code) :
    (raiseCode s opc c).modDepth = s.modDepth := rfl
@[simp] theorem raiseCode_modRate (s : State) (opc : Byte) (c : Code) :
    (raiseCode s opc c).modRate = s.modRate := rfl
@[simp] theorem raiseCode_lsT (s : State) (opc : Byte) (c : Code) :
    (raiseCode s opc c).lsT = s.lsT := rfl
@[simp] theorem raiseCode_lsF (s : State) (opc : Byte) (c : Code) :
    (raiseCode s opc c).lsF = s.lsF := rfl
@[simp] theorem raiseCode_hsT (s : State) (opc : Byte) (c : Code) :
    (raiseCode s opc c).hsT = s.hsT := rfl
@[simp] theorem raiseCode_hsF (s : State) (opc : Byte) (c : Code) :
    (raiseCode s opc c).hsF = s.hsF := rfl
@[simp] theorem raiseCode_rampLen (s : State) (opc : Byte) (c : Code) :
    (raiseCode s opc c).rampLen = s.rampLen := rfl
@[simp] theorem raiseCode_lsValid (s : State) (opc : Byte) (c : Code) :
    (raiseCode s opc c).lsValid = s.lsValid := rfl
@[simp] theorem raiseCode_hsValid (s : State) (opc : Byte) (c : Code) :
    (raiseCode s opc c).hsValid = s.hsValid := rfl
@[simp] theorem raiseCode_topo (s : State) (opc : Byte) (c : Code) :
    (raiseCode s opc c).topo = s.topo := rfl
@[simp] theorem raiseCode_reconf (s : State) (opc : Byte) (c : Code) :
    (raiseCode s opc c).reconf = s.reconf := rfl
@[simp] theorem raiseCode_inited (s : State) (opc : Byte) (c : Code) :
    (raiseCode s opc c).inited = s.inited := rfl
@[simp] theorem raiseCode_err (s : State) (opc : Byte) (c : Code) :
    (raiseCode s opc c).err = s.err ||| errFlag c := rfl
@[simp] theorem raiseCode_lastErr (s : State) (opc : Byte) (c : Code) :
    (raiseCode s opc c).lastErr = codeNumber c := rfl
@[simp] theorem raiseCode_rphase (s : State) (opc : Byte) (c : Code) :
    (raiseCode s opc c).rphase = s.rphase := rfl
@[simp] theorem raiseCode_lines (s : State) (opc : Byte) (c : Code) :
    (raiseCode s opc c).lines = s.lines := rfl
@[simp] theorem raiseCode_cm (s : State) (opc : Byte) (c : Code) :
    (raiseCode s opc c).cm = s.cm := rfl
@[simp] theorem raiseCode_cmdq (s : State) (opc : Byte) (c : Code) :
    (raiseCode s opc c).cmdq = s.cmdq := rfl
@[simp] theorem raiseCode_rspq (s : State) (opc : Byte) (c : Code) :
    (raiseCode s opc c).rspq = s.rspq ++ [responseHeader opc 0 c] := rfl
@[simp] theorem raiseCode_running (s : State) (opc : Byte) (c : Code) :
    (raiseCode s opc c).running = s.running := rfl
@[simp] theorem raiseCode_found (s : State) (opc : Byte) (c : Code) :
    (raiseCode s opc c).found = s.found := rfl
@[simp] theorem raiseCode_audY (s : State) (opc : Byte) (c : Code) :
    (raiseCode s opc c).audY = s.audY := rfl
@[simp] theorem raiseCode_cfg (s : State) (opc : Byte) (c : Code) :
    (raiseCode s opc c).cfg = s.cfg := rfl
@[simp] theorem raiseCode_inbox (s : State) (opc : Byte) (c : Code) :
    (raiseCode s opc c).inbox = s.inbox := rfl
@[simp] theorem raiseCode_draws (s : State) (opc : Byte) (c : Code) :
    (raiseCode s opc c).draws = s.draws := rfl
@[simp] theorem raiseCode_epoch (s : State) (opc : Byte) (c : Code) :
    (raiseCode s opc c).epoch = s.epoch := rfl

/-! ### `complete` -/

@[simp] theorem complete_fs (s : State) (opc : Byte) (d : List Word) :
    (complete s opc d).fs = s.fs := rfl
@[simp] theorem complete_n (s : State) (opc : Byte) (d : List Word) :
    (complete s opc d).n = s.n := rfl
@[simp] theorem complete_lowMs (s : State) (opc : Byte) (d : List Word) :
    (complete s opc d).lowMs = s.lowMs := rfl
@[simp] theorem complete_highMs (s : State) (opc : Byte) (d : List Word) :
    (complete s opc d).highMs = s.highMs := rfl
@[simp] theorem complete_wet (s : State) (opc : Byte) (d : List Word) :
    (complete s opc d).wet = s.wet := rfl
@[simp] theorem complete_modDepth (s : State) (opc : Byte) (d : List Word) :
    (complete s opc d).modDepth = s.modDepth := rfl
@[simp] theorem complete_modRate (s : State) (opc : Byte) (d : List Word) :
    (complete s opc d).modRate = s.modRate := rfl
@[simp] theorem complete_lsT (s : State) (opc : Byte) (d : List Word) :
    (complete s opc d).lsT = s.lsT := rfl
@[simp] theorem complete_lsF (s : State) (opc : Byte) (d : List Word) :
    (complete s opc d).lsF = s.lsF := rfl
@[simp] theorem complete_hsT (s : State) (opc : Byte) (d : List Word) :
    (complete s opc d).hsT = s.hsT := rfl
@[simp] theorem complete_hsF (s : State) (opc : Byte) (d : List Word) :
    (complete s opc d).hsF = s.hsF := rfl
@[simp] theorem complete_rampLen (s : State) (opc : Byte) (d : List Word) :
    (complete s opc d).rampLen = s.rampLen := rfl
@[simp] theorem complete_lsValid (s : State) (opc : Byte) (d : List Word) :
    (complete s opc d).lsValid = s.lsValid := rfl
@[simp] theorem complete_hsValid (s : State) (opc : Byte) (d : List Word) :
    (complete s opc d).hsValid = s.hsValid := rfl
@[simp] theorem complete_topo (s : State) (opc : Byte) (d : List Word) :
    (complete s opc d).topo = s.topo := rfl
@[simp] theorem complete_reconf (s : State) (opc : Byte) (d : List Word) :
    (complete s opc d).reconf = s.reconf := rfl
@[simp] theorem complete_inited (s : State) (opc : Byte) (d : List Word) :
    (complete s opc d).inited = s.inited := rfl
@[simp] theorem complete_err (s : State) (opc : Byte) (d : List Word) :
    (complete s opc d).err = s.err := rfl
@[simp] theorem complete_lastErr (s : State) (opc : Byte) (d : List Word) :
    (complete s opc d).lastErr = 0#8 := rfl
@[simp] theorem complete_rphase (s : State) (opc : Byte) (d : List Word) :
    (complete s opc d).rphase = s.rphase := rfl
@[simp] theorem complete_lines (s : State) (opc : Byte) (d : List Word) :
    (complete s opc d).lines = s.lines := rfl
@[simp] theorem complete_cm (s : State) (opc : Byte) (d : List Word) :
    (complete s opc d).cm = s.cm := rfl
@[simp] theorem complete_cmdq (s : State) (opc : Byte) (d : List Word) :
    (complete s opc d).cmdq = s.cmdq := rfl
@[simp] theorem complete_rspq (s : State) (opc : Byte) (d : List Word) :
    (complete s opc d).rspq = s.rspq ++ responseHeader opc d.length .ok :: d := rfl
@[simp] theorem complete_running (s : State) (opc : Byte) (d : List Word) :
    (complete s opc d).running = s.running := rfl
@[simp] theorem complete_found (s : State) (opc : Byte) (d : List Word) :
    (complete s opc d).found = s.found := rfl
@[simp] theorem complete_audY (s : State) (opc : Byte) (d : List Word) :
    (complete s opc d).audY = s.audY := rfl
@[simp] theorem complete_cfg (s : State) (opc : Byte) (d : List Word) :
    (complete s opc d).cfg = s.cfg := rfl
@[simp] theorem complete_inbox (s : State) (opc : Byte) (d : List Word) :
    (complete s opc d).inbox = s.inbox := rfl
@[simp] theorem complete_draws (s : State) (opc : Byte) (d : List Word) :
    (complete s opc d).draws = s.draws := rfl
@[simp] theorem complete_epoch (s : State) (opc : Byte) (d : List Word) :
    (complete s opc d).epoch = s.epoch := rfl

/-! ### `beginReconfig` -/

@[simp] theorem beginReconfig_fs (s : State) (i : Instr) :
    (beginReconfig s i).fs = s.fs := rfl
@[simp] theorem beginReconfig_n (s : State) (i : Instr) :
    (beginReconfig s i).n = s.n := rfl
@[simp] theorem beginReconfig_lowMs (s : State) (i : Instr) :
    (beginReconfig s i).lowMs = s.lowMs := rfl
@[simp] theorem beginReconfig_highMs (s : State) (i : Instr) :
    (beginReconfig s i).highMs = s.highMs := rfl
@[simp] theorem beginReconfig_wet (s : State) (i : Instr) :
    (beginReconfig s i).wet = s.wet := rfl
@[simp] theorem beginReconfig_modDepth (s : State) (i : Instr) :
    (beginReconfig s i).modDepth = s.modDepth := rfl
@[simp] theorem beginReconfig_modRate (s : State) (i : Instr) :
    (beginReconfig s i).modRate = s.modRate := rfl
@[simp] theorem beginReconfig_lsT (s : State) (i : Instr) :
    (beginReconfig s i).lsT = s.lsT := rfl
@[simp] theorem beginReconfig_lsF (s : State) (i : Instr) :
    (beginReconfig s i).lsF = s.lsF := rfl
@[simp] theorem beginReconfig_hsT (s : State) (i : Instr) :
    (beginReconfig s i).hsT = s.hsT := rfl
@[simp] theorem beginReconfig_hsF (s : State) (i : Instr) :
    (beginReconfig s i).hsF = s.hsF := rfl
@[simp] theorem beginReconfig_rampLen (s : State) (i : Instr) :
    (beginReconfig s i).rampLen = s.rampLen := rfl
@[simp] theorem beginReconfig_lsValid (s : State) (i : Instr) :
    (beginReconfig s i).lsValid = s.lsValid := rfl
@[simp] theorem beginReconfig_hsValid (s : State) (i : Instr) :
    (beginReconfig s i).hsValid = s.hsValid := rfl
@[simp] theorem beginReconfig_topo (s : State) (i : Instr) :
    (beginReconfig s i).topo = s.topo := rfl
@[simp] theorem beginReconfig_reconf (s : State) (i : Instr) :
    (beginReconfig s i).reconf = true := rfl
@[simp] theorem beginReconfig_inited (s : State) (i : Instr) :
    (beginReconfig s i).inited = s.inited := rfl
@[simp] theorem beginReconfig_err (s : State) (i : Instr) :
    (beginReconfig s i).err = s.err := rfl
@[simp] theorem beginReconfig_lastErr (s : State) (i : Instr) :
    (beginReconfig s i).lastErr = s.lastErr := rfl
@[simp] theorem beginReconfig_rphase (s : State) (i : Instr) :
    (beginReconfig s i).rphase = 1#3 := rfl
@[simp] theorem beginReconfig_lines (s : State) (i : Instr) :
    (beginReconfig s i).lines = s.lines := rfl
@[simp] theorem beginReconfig_cm (s : State) (i : Instr) :
    (beginReconfig s i).cm = s.cm := rfl
@[simp] theorem beginReconfig_cmdq (s : State) (i : Instr) :
    (beginReconfig s i).cmdq = s.cmdq := rfl
@[simp] theorem beginReconfig_rspq (s : State) (i : Instr) :
    (beginReconfig s i).rspq = s.rspq := rfl
@[simp] theorem beginReconfig_running (s : State) (i : Instr) :
    (beginReconfig s i).running = some i := rfl
@[simp] theorem beginReconfig_found (s : State) (i : Instr) :
    (beginReconfig s i).found = s.found := rfl
@[simp] theorem beginReconfig_audY (s : State) (i : Instr) :
    (beginReconfig s i).audY = s.audY := rfl
@[simp] theorem beginReconfig_cfg (s : State) (i : Instr) :
    (beginReconfig s i).cfg = s.cfg := rfl
@[simp] theorem beginReconfig_inbox (s : State) (i : Instr) :
    (beginReconfig s i).inbox = s.inbox := rfl
@[simp] theorem beginReconfig_draws (s : State) (i : Instr) :
    (beginReconfig s i).draws = s.draws := rfl
@[simp] theorem beginReconfig_epoch (s : State) (i : Instr) :
    (beginReconfig s i).epoch = s.epoch := rfl

/-! ### `takeEvent` -/

@[simp] theorem takeEvent_fs (s : State) (later : List HostEvent) :
    (takeEvent s later).fs = s.fs := rfl
@[simp] theorem takeEvent_n (s : State) (later : List HostEvent) :
    (takeEvent s later).n = s.n := rfl
@[simp] theorem takeEvent_lowMs (s : State) (later : List HostEvent) :
    (takeEvent s later).lowMs = s.lowMs := rfl
@[simp] theorem takeEvent_highMs (s : State) (later : List HostEvent) :
    (takeEvent s later).highMs = s.highMs := rfl
@[simp] theorem takeEvent_wet (s : State) (later : List HostEvent) :
    (takeEvent s later).wet = s.wet := rfl
@[simp] theorem takeEvent_modDepth (s : State) (later : List HostEvent) :
    (takeEvent s later).modDepth = s.modDepth := rfl
@[simp] theorem takeEvent_modRate (s : State) (later : List HostEvent) :
    (takeEvent s later).modRate = s.modRate := rfl
@[simp] theorem takeEvent_lsT (s : State) (later : List HostEvent) :
    (takeEvent s later).lsT = s.lsT := rfl
@[simp] theorem takeEvent_lsF (s : State) (later : List HostEvent) :
    (takeEvent s later).lsF = s.lsF := rfl
@[simp] theorem takeEvent_hsT (s : State) (later : List HostEvent) :
    (takeEvent s later).hsT = s.hsT := rfl
@[simp] theorem takeEvent_hsF (s : State) (later : List HostEvent) :
    (takeEvent s later).hsF = s.hsF := rfl
@[simp] theorem takeEvent_rampLen (s : State) (later : List HostEvent) :
    (takeEvent s later).rampLen = s.rampLen := rfl
@[simp] theorem takeEvent_lsValid (s : State) (later : List HostEvent) :
    (takeEvent s later).lsValid = s.lsValid := rfl
@[simp] theorem takeEvent_hsValid (s : State) (later : List HostEvent) :
    (takeEvent s later).hsValid = s.hsValid := rfl
@[simp] theorem takeEvent_topo (s : State) (later : List HostEvent) :
    (takeEvent s later).topo = s.topo := rfl
@[simp] theorem takeEvent_reconf (s : State) (later : List HostEvent) :
    (takeEvent s later).reconf = s.reconf := rfl
@[simp] theorem takeEvent_inited (s : State) (later : List HostEvent) :
    (takeEvent s later).inited = s.inited := rfl
@[simp] theorem takeEvent_err (s : State) (later : List HostEvent) :
    (takeEvent s later).err = s.err := rfl
@[simp] theorem takeEvent_lastErr (s : State) (later : List HostEvent) :
    (takeEvent s later).lastErr = s.lastErr := rfl
@[simp] theorem takeEvent_rphase (s : State) (later : List HostEvent) :
    (takeEvent s later).rphase = s.rphase := rfl
@[simp] theorem takeEvent_lines (s : State) (later : List HostEvent) :
    (takeEvent s later).lines = s.lines := rfl
@[simp] theorem takeEvent_cm (s : State) (later : List HostEvent) :
    (takeEvent s later).cm = s.cm := rfl
@[simp] theorem takeEvent_cmdq (s : State) (later : List HostEvent) :
    (takeEvent s later).cmdq = s.cmdq := rfl
@[simp] theorem takeEvent_rspq (s : State) (later : List HostEvent) :
    (takeEvent s later).rspq = s.rspq := rfl
@[simp] theorem takeEvent_running (s : State) (later : List HostEvent) :
    (takeEvent s later).running = s.running := rfl
@[simp] theorem takeEvent_found (s : State) (later : List HostEvent) :
    (takeEvent s later).found = s.found := rfl
@[simp] theorem takeEvent_audY (s : State) (later : List HostEvent) :
    (takeEvent s later).audY = s.audY := rfl
@[simp] theorem takeEvent_cfg (s : State) (later : List HostEvent) :
    (takeEvent s later).cfg = s.cfg := rfl
@[simp] theorem takeEvent_inbox (s : State) (later : List HostEvent) :
    (takeEvent s later).inbox = later := rfl
@[simp] theorem takeEvent_draws (s : State) (later : List HostEvent) :
    (takeEvent s later).draws = s.draws := rfl
@[simp] theorem takeEvent_epoch (s : State) (later : List HostEvent) :
    (takeEvent s later).epoch = s.epoch + 1 := rfl

/-! ### `initClear` -/

@[simp] theorem initClear_fs (s : State) :
    (initClear s).fs = s.fs := rfl
@[simp] theorem initClear_n (s : State) :
    (initClear s).n = s.n := rfl
@[simp] theorem initClear_lowMs (s : State) :
    (initClear s).lowMs = s.lowMs := rfl
@[simp] theorem initClear_highMs (s : State) :
    (initClear s).highMs = s.highMs := rfl
@[simp] theorem initClear_wet (s : State) :
    (initClear s).wet = s.wet := rfl
@[simp] theorem initClear_modDepth (s : State) :
    (initClear s).modDepth = s.modDepth := rfl
@[simp] theorem initClear_modRate (s : State) :
    (initClear s).modRate = s.modRate := rfl
@[simp] theorem initClear_lsT (s : State) :
    (initClear s).lsT = 0#32 := rfl
@[simp] theorem initClear_lsF (s : State) :
    (initClear s).lsF = 0#32 := rfl
@[simp] theorem initClear_hsT (s : State) :
    (initClear s).hsT = 0#32 := rfl
@[simp] theorem initClear_hsF (s : State) :
    (initClear s).hsF = 0#32 := rfl
@[simp] theorem initClear_rampLen (s : State) :
    (initClear s).rampLen = s.rampLen := rfl
@[simp] theorem initClear_lsValid (s : State) :
    (initClear s).lsValid = false := rfl
@[simp] theorem initClear_hsValid (s : State) :
    (initClear s).hsValid = false := rfl
@[simp] theorem initClear_topo (s : State) :
    (initClear s).topo = s.topo := rfl
@[simp] theorem initClear_reconf (s : State) :
    (initClear s).reconf = s.reconf := rfl
@[simp] theorem initClear_inited (s : State) :
    (initClear s).inited = s.inited := rfl
@[simp] theorem initClear_err (s : State) :
    (initClear s).err = s.err := rfl
@[simp] theorem initClear_lastErr (s : State) :
    (initClear s).lastErr = s.lastErr := rfl
@[simp] theorem initClear_rphase (s : State) :
    (initClear s).rphase = s.rphase := rfl
@[simp] theorem initClear_lines (s : State) :
    (initClear s).lines = s.lines.map initLine := rfl
@[simp] theorem initClear_cm (s : State) :
    (initClear s).cm = memCleared := rfl
@[simp] theorem initClear_cmdq (s : State) :
    (initClear s).cmdq = s.cmdq := rfl
@[simp] theorem initClear_rspq (s : State) :
    (initClear s).rspq = s.rspq := rfl
@[simp] theorem initClear_running (s : State) :
    (initClear s).running = s.running := rfl
@[simp] theorem initClear_found (s : State) :
    (initClear s).found = s.found := rfl
@[simp] theorem initClear_audY (s : State) :
    (initClear s).audY = s.audY := rfl
@[simp] theorem initClear_cfg (s : State) :
    (initClear s).cfg = s.cfg := rfl
@[simp] theorem initClear_inbox (s : State) :
    (initClear s).inbox = s.inbox := rfl
@[simp] theorem initClear_draws (s : State) :
    (initClear s).draws = s.draws := rfl
@[simp] theorem initClear_epoch (s : State) :
    (initClear s).epoch = s.epoch := rfl

/-! ### `initParams` -/

@[simp] theorem initParams_fs (s : State) (q : Site) (o : Byte) (fs lo hi : Word) :
    (initParams s q o fs lo hi).fs = fs := rfl
@[simp] theorem initParams_n (s : State) (q : Site) (o : Byte) (fs lo hi : Word) :
    (initParams s q o fs lo hi).n = o.toNat := rfl
@[simp] theorem initParams_lowMs (s : State) (q : Site) (o : Byte) (fs lo hi : Word) :
    (initParams s q o fs lo hi).lowMs = lo := rfl
@[simp] theorem initParams_highMs (s : State) (q : Site) (o : Byte) (fs lo hi : Word) :
    (initParams s q o fs lo hi).highMs = hi := rfl
@[simp] theorem initParams_wet (s : State) (q : Site) (o : Byte) (fs lo hi : Word) :
    (initParams s q o fs lo hi).wet = s.wet := rfl
@[simp] theorem initParams_modDepth (s : State) (q : Site) (o : Byte) (fs lo hi : Word) :
    (initParams s q o fs lo hi).modDepth = s.modDepth := rfl
@[simp] theorem initParams_modRate (s : State) (q : Site) (o : Byte) (fs lo hi : Word) :
    (initParams s q o fs lo hi).modRate = s.modRate := rfl
@[simp] theorem initParams_lsT (s : State) (q : Site) (o : Byte) (fs lo hi : Word) :
    (initParams s q o fs lo hi).lsT = s.lsT := rfl
@[simp] theorem initParams_lsF (s : State) (q : Site) (o : Byte) (fs lo hi : Word) :
    (initParams s q o fs lo hi).lsF = s.lsF := rfl
@[simp] theorem initParams_hsT (s : State) (q : Site) (o : Byte) (fs lo hi : Word) :
    (initParams s q o fs lo hi).hsT = s.hsT := rfl
@[simp] theorem initParams_hsF (s : State) (q : Site) (o : Byte) (fs lo hi : Word) :
    (initParams s q o fs lo hi).hsF = s.hsF := rfl
@[simp] theorem initParams_rampLen (s : State) (q : Site) (o : Byte) (fs lo hi : Word) :
    (initParams s q o fs lo hi).rampLen = f2n (ffloor s.cfg (0 :: q) (fmul s.cfg (1 :: q) s.cfg.rampSec fs)) := rfl
@[simp] theorem initParams_lsValid (s : State) (q : Site) (o : Byte) (fs lo hi : Word) :
    (initParams s q o fs lo hi).lsValid = s.lsValid := rfl
@[simp] theorem initParams_hsValid (s : State) (q : Site) (o : Byte) (fs lo hi : Word) :
    (initParams s q o fs lo hi).hsValid = s.hsValid := rfl
@[simp] theorem initParams_topo (s : State) (q : Site) (o : Byte) (fs lo hi : Word) :
    (initParams s q o fs lo hi).topo = s.topo := rfl
@[simp] theorem initParams_reconf (s : State) (q : Site) (o : Byte) (fs lo hi : Word) :
    (initParams s q o fs lo hi).reconf = s.reconf := rfl
@[simp] theorem initParams_inited (s : State) (q : Site) (o : Byte) (fs lo hi : Word) :
    (initParams s q o fs lo hi).inited = s.inited := rfl
@[simp] theorem initParams_err (s : State) (q : Site) (o : Byte) (fs lo hi : Word) :
    (initParams s q o fs lo hi).err = s.err := rfl
@[simp] theorem initParams_lastErr (s : State) (q : Site) (o : Byte) (fs lo hi : Word) :
    (initParams s q o fs lo hi).lastErr = s.lastErr := rfl
@[simp] theorem initParams_rphase (s : State) (q : Site) (o : Byte) (fs lo hi : Word) :
    (initParams s q o fs lo hi).rphase = s.rphase := rfl
@[simp] theorem initParams_lines (s : State) (q : Site) (o : Byte) (fs lo hi : Word) :
    (initParams s q o fs lo hi).lines = s.lines := rfl
@[simp] theorem initParams_cm (s : State) (q : Site) (o : Byte) (fs lo hi : Word) :
    (initParams s q o fs lo hi).cm = s.cm := rfl
@[simp] theorem initParams_cmdq (s : State) (q : Site) (o : Byte) (fs lo hi : Word) :
    (initParams s q o fs lo hi).cmdq = s.cmdq := rfl
@[simp] theorem initParams_rspq (s : State) (q : Site) (o : Byte) (fs lo hi : Word) :
    (initParams s q o fs lo hi).rspq = s.rspq := rfl
@[simp] theorem initParams_running (s : State) (q : Site) (o : Byte) (fs lo hi : Word) :
    (initParams s q o fs lo hi).running = s.running := rfl
@[simp] theorem initParams_found (s : State) (q : Site) (o : Byte) (fs lo hi : Word) :
    (initParams s q o fs lo hi).found = s.found := rfl
@[simp] theorem initParams_audY (s : State) (q : Site) (o : Byte) (fs lo hi : Word) :
    (initParams s q o fs lo hi).audY = s.audY := rfl
@[simp] theorem initParams_cfg (s : State) (q : Site) (o : Byte) (fs lo hi : Word) :
    (initParams s q o fs lo hi).cfg = s.cfg := rfl
@[simp] theorem initParams_inbox (s : State) (q : Site) (o : Byte) (fs lo hi : Word) :
    (initParams s q o fs lo hi).inbox = s.inbox := rfl
@[simp] theorem initParams_draws (s : State) (q : Site) (o : Byte) (fs lo hi : Word) :
    (initParams s q o fs lo hi).draws = s.draws := rfl
@[simp] theorem initParams_epoch (s : State) (q : Site) (o : Byte) (fs lo hi : Word) :
    (initParams s q o fs lo hi).epoch = s.epoch := rfl

/-! ### `drawGains` -/

@[simp] theorem drawGains_fs (s : State) (q : Site) :
    (drawGains s q).fs = s.fs := rfl
@[simp] theorem drawGains_n (s : State) (q : Site) :
    (drawGains s q).n = s.n := rfl
@[simp] theorem drawGains_lowMs (s : State) (q : Site) :
    (drawGains s q).lowMs = s.lowMs := rfl
@[simp] theorem drawGains_highMs (s : State) (q : Site) :
    (drawGains s q).highMs = s.highMs := rfl
@[simp] theorem drawGains_wet (s : State) (q : Site) :
    (drawGains s q).wet = s.wet := rfl
@[simp] theorem drawGains_modDepth (s : State) (q : Site) :
    (drawGains s q).modDepth = s.modDepth := rfl
@[simp] theorem drawGains_modRate (s : State) (q : Site) :
    (drawGains s q).modRate = s.modRate := rfl
@[simp] theorem drawGains_lsT (s : State) (q : Site) :
    (drawGains s q).lsT = s.lsT := rfl
@[simp] theorem drawGains_lsF (s : State) (q : Site) :
    (drawGains s q).lsF = s.lsF := rfl
@[simp] theorem drawGains_hsT (s : State) (q : Site) :
    (drawGains s q).hsT = s.hsT := rfl
@[simp] theorem drawGains_hsF (s : State) (q : Site) :
    (drawGains s q).hsF = s.hsF := rfl
@[simp] theorem drawGains_rampLen (s : State) (q : Site) :
    (drawGains s q).rampLen = s.rampLen := rfl
@[simp] theorem drawGains_lsValid (s : State) (q : Site) :
    (drawGains s q).lsValid = s.lsValid := rfl
@[simp] theorem drawGains_hsValid (s : State) (q : Site) :
    (drawGains s q).hsValid = s.hsValid := rfl
@[simp] theorem drawGains_topo (s : State) (q : Site) :
    (drawGains s q).topo = s.topo := rfl
@[simp] theorem drawGains_reconf (s : State) (q : Site) :
    (drawGains s q).reconf = s.reconf := rfl
@[simp] theorem drawGains_inited (s : State) (q : Site) :
    (drawGains s q).inited = s.inited := rfl
@[simp] theorem drawGains_err (s : State) (q : Site) :
    (drawGains s q).err = s.err := rfl
@[simp] theorem drawGains_lastErr (s : State) (q : Site) :
    (drawGains s q).lastErr = s.lastErr := rfl
@[simp] theorem drawGains_rphase (s : State) (q : Site) :
    (drawGains s q).rphase = s.rphase := rfl
@[simp] theorem drawGains_lines (s : State) (q : Site) :
    (drawGains s q).lines = (drawLines q 0 s.n s.lines s.draws).1 := rfl
@[simp] theorem drawGains_cm (s : State) (q : Site) :
    (drawGains s q).cm = s.cm := rfl
@[simp] theorem drawGains_cmdq (s : State) (q : Site) :
    (drawGains s q).cmdq = s.cmdq := rfl
@[simp] theorem drawGains_rspq (s : State) (q : Site) :
    (drawGains s q).rspq = s.rspq := rfl
@[simp] theorem drawGains_running (s : State) (q : Site) :
    (drawGains s q).running = s.running := rfl
@[simp] theorem drawGains_found (s : State) (q : Site) :
    (drawGains s q).found = s.found := rfl
@[simp] theorem drawGains_audY (s : State) (q : Site) :
    (drawGains s q).audY = s.audY := rfl
@[simp] theorem drawGains_cfg (s : State) (q : Site) :
    (drawGains s q).cfg = s.cfg := rfl
@[simp] theorem drawGains_inbox (s : State) (q : Site) :
    (drawGains s q).inbox = s.inbox := rfl
@[simp] theorem drawGains_draws (s : State) (q : Site) :
    (drawGains s q).draws = (drawLines q 0 s.n s.lines s.draws).2 := rfl
@[simp] theorem drawGains_epoch (s : State) (q : Site) :
    (drawGains s q).epoch = s.epoch := rfl

/-! ### `seedActive` -/

@[simp] theorem seedActive_fs (s : State) (q : Site) :
    (seedActive s q).fs = s.fs := rfl
@[simp] theorem seedActive_n (s : State) (q : Site) :
    (seedActive s q).n = s.n := rfl
@[simp] theorem seedActive_lowMs (s : State) (q : Site) :
    (seedActive s q).lowMs = s.lowMs := rfl
@[simp] theorem seedActive_highMs (s : State) (q : Site) :
    (seedActive s q).highMs = s.highMs := rfl
@[simp] theorem seedActive_wet (s : State) (q : Site) :
    (seedActive s q).wet = s.wet := rfl
@[simp] theorem seedActive_modDepth (s : State) (q : Site) :
    (seedActive s q).modDepth = s.modDepth := rfl
@[simp] theorem seedActive_modRate (s : State) (q : Site) :
    (seedActive s q).modRate = s.modRate := rfl
@[simp] theorem seedActive_lsT (s : State) (q : Site) :
    (seedActive s q).lsT = s.lsT := rfl
@[simp] theorem seedActive_lsF (s : State) (q : Site) :
    (seedActive s q).lsF = s.lsF := rfl
@[simp] theorem seedActive_hsT (s : State) (q : Site) :
    (seedActive s q).hsT = s.hsT := rfl
@[simp] theorem seedActive_hsF (s : State) (q : Site) :
    (seedActive s q).hsF = s.hsF := rfl
@[simp] theorem seedActive_rampLen (s : State) (q : Site) :
    (seedActive s q).rampLen = s.rampLen := rfl
@[simp] theorem seedActive_lsValid (s : State) (q : Site) :
    (seedActive s q).lsValid = s.lsValid := rfl
@[simp] theorem seedActive_hsValid (s : State) (q : Site) :
    (seedActive s q).hsValid = s.hsValid := rfl
@[simp] theorem seedActive_topo (s : State) (q : Site) :
    (seedActive s q).topo = s.topo := rfl
@[simp] theorem seedActive_reconf (s : State) (q : Site) :
    (seedActive s q).reconf = s.reconf := rfl
@[simp] theorem seedActive_inited (s : State) (q : Site) :
    (seedActive s q).inited = s.inited := rfl
@[simp] theorem seedActive_err (s : State) (q : Site) :
    (seedActive s q).err = s.err := rfl
@[simp] theorem seedActive_lastErr (s : State) (q : Site) :
    (seedActive s q).lastErr = s.lastErr := rfl
@[simp] theorem seedActive_rphase (s : State) (q : Site) :
    (seedActive s q).rphase = s.rphase := rfl
@[simp] theorem seedActive_lines (s : State) (q : Site) :
    (seedActive s q).lines = updateFrom (fun i l => seedLine s (i :: q) l) 0 s.n s.lines := rfl
@[simp] theorem seedActive_cm (s : State) (q : Site) :
    (seedActive s q).cm = s.cm := rfl
@[simp] theorem seedActive_cmdq (s : State) (q : Site) :
    (seedActive s q).cmdq = s.cmdq := rfl
@[simp] theorem seedActive_rspq (s : State) (q : Site) :
    (seedActive s q).rspq = s.rspq := rfl
@[simp] theorem seedActive_running (s : State) (q : Site) :
    (seedActive s q).running = s.running := rfl
@[simp] theorem seedActive_found (s : State) (q : Site) :
    (seedActive s q).found = s.found := rfl
@[simp] theorem seedActive_audY (s : State) (q : Site) :
    (seedActive s q).audY = s.audY := rfl
@[simp] theorem seedActive_cfg (s : State) (q : Site) :
    (seedActive s q).cfg = s.cfg := rfl
@[simp] theorem seedActive_inbox (s : State) (q : Site) :
    (seedActive s q).inbox = s.inbox := rfl
@[simp] theorem seedActive_draws (s : State) (q : Site) :
    (seedActive s q).draws = s.draws := rfl
@[simp] theorem seedActive_epoch (s : State) (q : Site) :
    (seedActive s q).epoch = s.epoch := rfl

/-! ### `retargetActive` -/

@[simp] theorem retargetActive_fs (s : State) (q : Site) :
    (retargetActive s q).fs = s.fs := rfl
@[simp] theorem retargetActive_n (s : State) (q : Site) :
    (retargetActive s q).n = s.n := rfl
@[simp] theorem retargetActive_lowMs (s : State) (q : Site) :
    (retargetActive s q).lowMs = s.lowMs := rfl
@[simp] theorem retargetActive_highMs (s : State) (q : Site) :
    (retargetActive s q).highMs = s.highMs := rfl
@[simp] theorem retargetActive_wet (s : State) (q : Site) :
    (retargetActive s q).wet = s.wet := rfl
@[simp] theorem retargetActive_modDepth (s : State) (q : Site) :
    (retargetActive s q).modDepth = s.modDepth := rfl
@[simp] theorem retargetActive_modRate (s : State) (q : Site) :
    (retargetActive s q).modRate = s.modRate := rfl
@[simp] theorem retargetActive_lsT (s : State) (q : Site) :
    (retargetActive s q).lsT = s.lsT := rfl
@[simp] theorem retargetActive_lsF (s : State) (q : Site) :
    (retargetActive s q).lsF = s.lsF := rfl
@[simp] theorem retargetActive_hsT (s : State) (q : Site) :
    (retargetActive s q).hsT = s.hsT := rfl
@[simp] theorem retargetActive_hsF (s : State) (q : Site) :
    (retargetActive s q).hsF = s.hsF := rfl
@[simp] theorem retargetActive_rampLen (s : State) (q : Site) :
    (retargetActive s q).rampLen = s.rampLen := rfl
@[simp] theorem retargetActive_lsValid (s : State) (q : Site) :
    (retargetActive s q).lsValid = s.lsValid := rfl
@[simp] theorem retargetActive_hsValid (s : State) (q : Site) :
    (retargetActive s q).hsValid = s.hsValid := rfl
@[simp] theorem retargetActive_topo (s : State) (q : Site) :
    (retargetActive s q).topo = s.topo := rfl
@[simp] theorem retargetActive_reconf (s : State) (q : Site) :
    (retargetActive s q).reconf = s.reconf := rfl
@[simp] theorem retargetActive_inited (s : State) (q : Site) :
    (retargetActive s q).inited = s.inited := rfl
@[simp] theorem retargetActive_err (s : State) (q : Site) :
    (retargetActive s q).err = s.err := rfl
@[simp] theorem retargetActive_lastErr (s : State) (q : Site) :
    (retargetActive s q).lastErr = s.lastErr := rfl
@[simp] theorem retargetActive_rphase (s : State) (q : Site) :
    (retargetActive s q).rphase = s.rphase := rfl
@[simp] theorem retargetActive_lines (s : State) (q : Site) :
    (retargetActive s q).lines = updateFrom (fun i l => retarget s (i :: q) l) 0 s.n s.lines := rfl
@[simp] theorem retargetActive_cm (s : State) (q : Site) :
    (retargetActive s q).cm = s.cm := rfl
@[simp] theorem retargetActive_cmdq (s : State) (q : Site) :
    (retargetActive s q).cmdq = s.cmdq := rfl
@[simp] theorem retargetActive_rspq (s : State) (q : Site) :
    (retargetActive s q).rspq = s.rspq := rfl
@[simp] theorem retargetActive_running (s : State) (q : Site) :
    (retargetActive s q).running = s.running := rfl
@[simp] theorem retargetActive_found (s : State) (q : Site) :
    (retargetActive s q).found = s.found := rfl
@[simp] theorem retargetActive_audY (s : State) (q : Site) :
    (retargetActive s q).audY = s.audY := rfl
@[simp] theorem retargetActive_cfg (s : State) (q : Site) :
    (retargetActive s q).cfg = s.cfg := rfl
@[simp] theorem retargetActive_inbox (s : State) (q : Site) :
    (retargetActive s q).inbox = s.inbox := rfl
@[simp] theorem retargetActive_draws (s : State) (q : Site) :
    (retargetActive s q).draws = s.draws := rfl
@[simp] theorem retargetActive_epoch (s : State) (q : Site) :
    (retargetActive s q).epoch = s.epoch := rfl

/-! ### `recomputeActive` -/

@[simp] theorem recomputeActive_fs (s : State) (q : Site) :
    (recomputeActive s q).fs = s.fs := rfl
@[simp] theorem recomputeActive_n (s : State) (q : Site) :
    (recomputeActive s q).n = s.n := rfl
@[simp] theorem recomputeActive_lowMs (s : State) (q : Site) :
    (recomputeActive s q).lowMs = s.lowMs := rfl
@[simp] theorem recomputeActive_highMs (s : State) (q : Site) :
    (recomputeActive s q).highMs = s.highMs := rfl
@[simp] theorem recomputeActive_wet (s : State) (q : Site) :
    (recomputeActive s q).wet = s.wet := rfl
@[simp] theorem recomputeActive_modDepth (s : State) (q : Site) :
    (recomputeActive s q).modDepth = s.modDepth := rfl
@[simp] theorem recomputeActive_modRate (s : State) (q : Site) :
    (recomputeActive s q).modRate = s.modRate := rfl
@[simp] theorem recomputeActive_lsT (s : State) (q : Site) :
    (recomputeActive s q).lsT = s.lsT := rfl
@[simp] theorem recomputeActive_lsF (s : State) (q : Site) :
    (recomputeActive s q).lsF = s.lsF := rfl
@[simp] theorem recomputeActive_hsT (s : State) (q : Site) :
    (recomputeActive s q).hsT = s.hsT := rfl
@[simp] theorem recomputeActive_hsF (s : State) (q : Site) :
    (recomputeActive s q).hsF = s.hsF := rfl
@[simp] theorem recomputeActive_rampLen (s : State) (q : Site) :
    (recomputeActive s q).rampLen = s.rampLen := rfl
@[simp] theorem recomputeActive_lsValid (s : State) (q : Site) :
    (recomputeActive s q).lsValid = s.lsValid := rfl
@[simp] theorem recomputeActive_hsValid (s : State) (q : Site) :
    (recomputeActive s q).hsValid = s.hsValid := rfl
@[simp] theorem recomputeActive_topo (s : State) (q : Site) :
    (recomputeActive s q).topo = s.topo := rfl
@[simp] theorem recomputeActive_reconf (s : State) (q : Site) :
    (recomputeActive s q).reconf = s.reconf := rfl
@[simp] theorem recomputeActive_inited (s : State) (q : Site) :
    (recomputeActive s q).inited = s.inited := rfl
@[simp] theorem recomputeActive_err (s : State) (q : Site) :
    (recomputeActive s q).err = s.err := rfl
@[simp] theorem recomputeActive_lastErr (s : State) (q : Site) :
    (recomputeActive s q).lastErr = s.lastErr := rfl
@[simp] theorem recomputeActive_rphase (s : State) (q : Site) :
    (recomputeActive s q).rphase = s.rphase := rfl
@[simp] theorem recomputeActive_lines (s : State) (q : Site) :
    (recomputeActive s q).lines = updateFrom (fun i l => recomputeUser s (i :: q) l) 0 s.n s.lines := rfl
@[simp] theorem recomputeActive_cm (s : State) (q : Site) :
    (recomputeActive s q).cm = s.cm := rfl
@[simp] theorem recomputeActive_cmdq (s : State) (q : Site) :
    (recomputeActive s q).cmdq = s.cmdq := rfl
@[simp] theorem recomputeActive_rspq (s : State) (q : Site) :
    (recomputeActive s q).rspq = s.rspq := rfl
@[simp] theorem recomputeActive_running (s : State) (q : Site) :
    (recomputeActive s q).running = s.running := rfl
@[simp] theorem recomputeActive_found (s : State) (q : Site) :
    (recomputeActive s q).found = s.found := rfl
@[simp] theorem recomputeActive_audY (s : State) (q : Site) :
    (recomputeActive s q).audY = s.audY := rfl
@[simp] theorem recomputeActive_cfg (s : State) (q : Site) :
    (recomputeActive s q).cfg = s.cfg := rfl
@[simp] theorem recomputeActive_inbox (s : State) (q : Site) :
    (recomputeActive s q).inbox = s.inbox := rfl
@[simp] theorem recomputeActive_draws (s : State) (q : Site) :
    (recomputeActive s q).draws = s.draws := rfl
@[simp] theorem recomputeActive_epoch (s : State) (q : Site) :
    (recomputeActive s q).epoch = s.epoch := rfl

/-! ### `completeSearch` -/

@[simp] theorem completeSearch_fs (s : State) (opc : Byte) (b : Bool) :
    (completeSearch s opc b).fs = s.fs := by cases b <;> rfl
@[simp] theorem completeSearch_n (s : State) (opc : Byte) (b : Bool) :
    (completeSearch s opc b).n = s.n := by cases b <;> rfl
@[simp] theorem completeSearch_lowMs (s : State) (opc : Byte) (b : Bool) :
    (completeSearch s opc b).lowMs = s.lowMs := by cases b <;> rfl
@[simp] theorem completeSearch_highMs (s : State) (opc : Byte) (b : Bool) :
    (completeSearch s opc b).highMs = s.highMs := by cases b <;> rfl
@[simp] theorem completeSearch_wet (s : State) (opc : Byte) (b : Bool) :
    (completeSearch s opc b).wet = s.wet := by cases b <;> rfl
@[simp] theorem completeSearch_modDepth (s : State) (opc : Byte) (b : Bool) :
    (completeSearch s opc b).modDepth = s.modDepth := by cases b <;> rfl
@[simp] theorem completeSearch_modRate (s : State) (opc : Byte) (b : Bool) :
    (completeSearch s opc b).modRate = s.modRate := by cases b <;> rfl
@[simp] theorem completeSearch_lsT (s : State) (opc : Byte) (b : Bool) :
    (completeSearch s opc b).lsT = s.lsT := by cases b <;> rfl
@[simp] theorem completeSearch_lsF (s : State) (opc : Byte) (b : Bool) :
    (completeSearch s opc b).lsF = s.lsF := by cases b <;> rfl
@[simp] theorem completeSearch_hsT (s : State) (opc : Byte) (b : Bool) :
    (completeSearch s opc b).hsT = s.hsT := by cases b <;> rfl
@[simp] theorem completeSearch_hsF (s : State) (opc : Byte) (b : Bool) :
    (completeSearch s opc b).hsF = s.hsF := by cases b <;> rfl
@[simp] theorem completeSearch_rampLen (s : State) (opc : Byte) (b : Bool) :
    (completeSearch s opc b).rampLen = s.rampLen := by cases b <;> rfl
@[simp] theorem completeSearch_lsValid (s : State) (opc : Byte) (b : Bool) :
    (completeSearch s opc b).lsValid = s.lsValid := by cases b <;> rfl
@[simp] theorem completeSearch_hsValid (s : State) (opc : Byte) (b : Bool) :
    (completeSearch s opc b).hsValid = s.hsValid := by cases b <;> rfl
@[simp] theorem completeSearch_topo (s : State) (opc : Byte) (b : Bool) :
    (completeSearch s opc b).topo = s.topo := by cases b <;> rfl
@[simp] theorem completeSearch_reconf (s : State) (opc : Byte) (b : Bool) :
    (completeSearch s opc b).reconf = s.reconf := by cases b <;> rfl
@[simp] theorem completeSearch_inited (s : State) (opc : Byte) (b : Bool) :
    (completeSearch s opc b).inited = s.inited := by cases b <;> rfl
@[simp] theorem completeSearch_rphase (s : State) (opc : Byte) (b : Bool) :
    (completeSearch s opc b).rphase = s.rphase := by cases b <;> rfl
@[simp] theorem completeSearch_lines (s : State) (opc : Byte) (b : Bool) :
    (completeSearch s opc b).lines = s.lines := by cases b <;> rfl
@[simp] theorem completeSearch_cm (s : State) (opc : Byte) (b : Bool) :
    (completeSearch s opc b).cm = s.cm := by cases b <;> rfl
@[simp] theorem completeSearch_cmdq (s : State) (opc : Byte) (b : Bool) :
    (completeSearch s opc b).cmdq = s.cmdq := by cases b <;> rfl
@[simp] theorem completeSearch_running (s : State) (opc : Byte) (b : Bool) :
    (completeSearch s opc b).running = s.running := by cases b <;> rfl
@[simp] theorem completeSearch_found (s : State) (opc : Byte) (b : Bool) :
    (completeSearch s opc b).found = s.found := by cases b <;> rfl
@[simp] theorem completeSearch_audY (s : State) (opc : Byte) (b : Bool) :
    (completeSearch s opc b).audY = s.audY := by cases b <;> rfl
@[simp] theorem completeSearch_cfg (s : State) (opc : Byte) (b : Bool) :
    (completeSearch s opc b).cfg = s.cfg := by cases b <;> rfl
@[simp] theorem completeSearch_inbox (s : State) (opc : Byte) (b : Bool) :
    (completeSearch s opc b).inbox = s.inbox := by cases b <;> rfl
@[simp] theorem completeSearch_draws (s : State) (opc : Byte) (b : Bool) :
    (completeSearch s opc b).draws = s.draws := by cases b <;> rfl
@[simp] theorem completeSearch_epoch (s : State) (opc : Byte) (b : Bool) :
    (completeSearch s opc b).epoch = s.epoch := by cases b <;> rfl

@[simp] theorem completeSearch_err (s : State) (opc : Byte) (b : Bool) :
    (completeSearch s opc b).err = if b then s.err ||| 0b10000#5 else s.err := by cases b <;> rfl
@[simp] theorem completeSearch_lastErr (s : State) (opc : Byte) (b : Bool) :
    (completeSearch s opc b).lastErr = if b then 5#8 else 0#8 := by cases b <;> rfl
@[simp] theorem completeSearch_rspq (s : State) (opc : Byte) (b : Bool) :
    (completeSearch s opc b).rspq = s.rspq ++ [responseHeader opc 0 (if b then .primeShort else .ok)] := by cases b <;> rfl

end Sys2Proof.Machine
end

