-- ==== Sys2Proof/Machine/Assembler.lean ====
section
/-! DEFINITION. The textual form of the commands (spec/30_encoding.md R130) and the pseudo-commands of the assembler (R131). Nothing in
the engine reads either: they say what a host's tools write. -/

namespace Sys2Proof.Machine

/-- R131: the pseudo-commands. -/
inductive Pseudo where
  | bypass
  | fullwet
  | ident
  | custom
  | setwetpct (p : Word)
  | frame (x0 x1 : Word)
deriving DecidableEq, Repr

/-- R131: the expansions. The percentage is converted by the assembler in binary32, at the site `q`. -/
def expandPseudo (q : Site) : Pseudo → List Instr
  | .bypass => [.setmix f0]
  | .fullwet => [.setmix f1]
  | .ident => [.settopo 0#8]
  | .custom => [.settopo 1#8]
  | .setwetpct p => [.setmix (ieeeDiv q p f100)]
  | .frame x0 x1 => [.proc 0#8 x0, .proc 1#8 x1]

/-- R130: a float operand as a bit pattern: `0x` and eight hexadecimal digits. -/
def floatText (w : Word) : String :=
  let digits := Nat.toDigits 16 w.toNat
  String.ofList ('0' :: 'x' :: (List.replicate (8 - digits.length) '0' ++ digits))

/-- R130: an index or selector operand as a decimal natural number. -/
def indexText (b : Byte) : String := String.ofList (Nat.toDigits 10 b.toNat)

/-- R130: the payload of a bulk command, in brackets. -/
def bulkText (ws : List Word) : String := "[" ++ ", ".intercalate (ws.map floatText) ++ "]"

/-- R130: a command line, the mnemonic and its operands in the order A, B, payload. -/
def lineText (mnemonic : String) (operands : List String) : String :=
  if operands.isEmpty then mnemonic else mnemonic ++ " " ++ ", ".intercalate operands

/-- R130: the textual form of an operation. -/
def instrText : Instr → String
  | .nop => lineText "NOP" []
  | .init order fs lowMs highMs => lineText "INIT" [indexText order, floatText fs, floatText lowMs, floatText highMs]
  | .updord newOrder selector => lineText "UPDORD" [indexText newOrder, indexText selector]
  | .upddly targetMs => lineText "UPDDLY" [floatText targetMs]
  | .setdly i ms => lineText "SETDLY" [indexText i, floatText ms]
  | .setdlys ms => lineText "SETDLYS" [bulkText ms]
  | .setls t f => lineText "SETLS" [floatText t, floatText f]
  | .seths t f => lineText "SETHS" [floatText t, floatText f]
  | .updmod depth rate => lineText "UPDMOD" [floatText depth, floatText rate]
  | .updmodl i depth rate => lineText "UPDMODL" [indexText i, floatText depth, floatText rate]
  | .setmix w => lineText "SETMIX" [floatText w]
  | .settopo selector => lineText "SETTOPO" [indexText selector]
  | .setb i v => lineText "SETB" [indexText i, floatText v]
  | .setbs v => lineText "SETBS" [bulkText v]
  | .setc i v => lineText "SETC" [indexText i, floatText v]
  | .setcs v => lineText "SETCS" [bulkText v]
  | .setcell r c v => lineText "SETCELL" [indexText r, indexText c, floatText v]
  | .setmat m => lineText "SETMAT" [bulkText m]
  | .getb i => lineText "GETB" [indexText i]
  | .getbs => lineText "GETBS" []
  | .getc i => lineText "GETC" [indexText i]
  | .getcs => lineText "GETCS" []
  | .getdlys => lineText "GETDLYS" []
  | .getmat => lineText "GETMAT" []
  | .getstat => lineText "GETSTAT" []
  | .clrerr => lineText "CLRERR" []
  | .proc ch x => lineText "PROC" [indexText ch, floatText x]

end Sys2Proof.Machine
end

