-- ==== Sys2Proof/Tests/Slice0.lean ====
section
/-! SUPPORT. Tests: ill-formed terms, decoding of words written out from the encoding tables, one-step checks of the spec's examples
(each names its rule), and for every statement with hypotheses a concrete state that meets them. -/

namespace Sys2Proof.Tests

-- One proof at a time: proofs by evaluation that wait for each other would hold a thread each.
set_option Elab.async false

open Sys2Proof Sys2Proof.Machine

/-! ### A small engine -/

/-- Two lines of 29 samples, the sine of a quarter turn as in the reference instance (R20), everything else as in `CFG_REF`. -/
def smallCfg : Cfg :=
  { Cfg.ref with nmax := 2, orders := [1, 2], cap := 29, num := { NumTable.default with sinTurns := [(0x3E800000#32, 0x3F800000#32)] } }

/-- A line of a cleared engine with table entry n and effective delay d. -/
def smallLine (n : Nat) (d : Word) (b c : Word) : Line :=
  { Line.reset [] with len := n, delay := d, dcur := d, dtgt := d, b := b, c := c, buf := memCleared }

/-- An engine after `INIT 2, 48000.0, 0.25, 0.5` (R200): L = (13, 17), N = 2, the gains of R260. -/
def live : State :=
  { State.powerOn smallCfg [] [] 0 with
    inited := true, reconf := false, n := 2, fs := 0x473B8000#32, lowMs := 0x3E800000#32, highMs := 0x3F000000#32
    rampLen := 3000, cm := memCleared
    lines := [smallLine 13 0x41500000#32 0x3F000000#32 0x3F800000#32, smallLine 17 0x41880000#32 0x3E800000#32 0xBF800000#32] }

/-- The engine with words waiting on the control port and the control agent's turn to come. -/
def sent (s : State) (words : List Word) : State := { s with inbox := [.control], cmdq := words }

/-- The engine with INIT under way at a phase. -/
def initing (phase : BitVec 3) : State :=
  { live with reconf := true, rphase := phase, running := some (.init 2#8 0x473B8000#32 0x3E800000#32 0x3F000000#32) }

/-- The engine with UPDORD under way at a phase. -/
def updording (phase : BitVec 3) : State := { live with reconf := true, rphase := phase, running := some (.updord 1#8 1#8) }

/-- A field of the next state. -/
def field {α : Type} (o : Host.Outcome State Fault Refusal) (f : State → α) : Option α :=
  match o with
  | .next t => some (f t)
  | .fault _ => none
  | .refused _ => none

/-! ### Decoding: words written out from R113 to R116 and R120; most are printed in the example of the command's rule -/

theorem test_decode_format_z :
    decodePacket [0x00000000#32] = .command .nop [] ∧ decodePacket [0x21000000#32] = .command .getbs [] ∧
      decodePacket [0x23000000#32] = .command .getcs [] ∧ decodePacket [0x24000000#32] = .command .getdlys [] ∧
      decodePacket [0x25000000#32] = .command .getmat [] ∧ decodePacket [0x26000000#32] = .command .getstat [] ∧
      decodePacket [0x27000000#32, 7#32] = .command .clrerr [7#32] := by decide

theorem test_decode_reconfiguration :
    decodePacket [0x01020000#32, 0x473B8000#32, 0x3E800000#32, 0x3F000000#32] =
        .command (.init 2#8 0x473B8000#32 0x3E800000#32 0x3F000000#32) [] ∧
      decodePacket [0x02200100#32] = .command (.updord 32#8 1#8) [] ∧
      decodePacket [0x03000000#32, 0x3F800000#32] = .command (.upddly 0x3F800000#32) [] ∧
      decodePacket [0x04010000#32, 0x3F000000#32] = .command (.setdly 1#8 0x3F000000#32) [] ∧
      decodePacket [0x05000002#32, 0x3E800000#32, 0x3F000000#32] = .command (.setdlys [0x3E800000#32, 0x3F000000#32]) [] := by
  decide +kernel

theorem test_decode_modulation_and_filters :
    decodePacket [0x06000000#32, 0x40000000#32, 0x43FA0000#32] = .command (.setls 0x40000000#32 0x43FA0000#32) [] ∧
      decodePacket [0x07000000#32, 0x3F000000#32, 0x457A0000#32] = .command (.seths 0x3F000000#32 0x457A0000#32) [] ∧
      decodePacket [0x08000000#32, 0x40000000#32, 0x463B8000#32] = .command (.updmod 0x40000000#32 0x463B8000#32) [] ∧
      decodePacket [0x09010000#32, 0xC1A00000#32, 0x463B8000#32] = .command (.updmodl 1#8 0xC1A00000#32 0x463B8000#32) [] ∧
      decodePacket [0x0A000000#32, 0x3E800000#32] = .command (.setmix 0x3E800000#32) [] ∧
      decodePacket [0x0B000100#32] = .command (.settopo 1#8) [] := by decide

theorem test_decode_gains_and_matrix :
    decodePacket [0x10010000#32, 0xBF400000#32] = .command (.setb 1#8 0xBF400000#32) [] ∧
      decodePacket [0x11000002#32, 0x3F000000#32, 0x3E800000#32] = .command (.setbs [0x3F000000#32, 0x3E800000#32]) [] ∧
      decodePacket [0x12000000#32, 0x3F800000#32] = .command (.setc 0#8 0x3F800000#32) [] ∧
      decodePacket [0x13000002#32, 0x3F800000#32, 0xBF800000#32] = .command (.setcs [0x3F800000#32, 0xBF800000#32]) [] ∧
      decodePacket [0x14010200#32, 0x3F000000#32] = .command (.setcell 1#8 2#8 0x3F000000#32) [] ∧
      decodePacket [0x15000001#32, 0x3F3504F3#32] = .command (.setmat [0x3F3504F3#32]) [] ∧
      decodePacket [0x20010000#32] = .command (.getb 1#8) [] ∧ decodePacket [0x22000000#32] = .command (.getc 0#8) [] := by decide

theorem test_decode_audio : decodeAudio 0x013F800000#40 = .proc 1#8 0x3F800000#32 := by decide

/-- The bits of a table row count on from the header's (the payload words above it). -/
theorem test_decode_table_word :
    decodeTableWord 64 0xBF40000010010000 = some (.setb 1#8 0xBF400000#32) ∧
      decodeTableWord 40 0x013F800000 = some (.proc 1#8 0x3F800000#32) ∧ decodeTableWord 32 0x0C000000 = none := by decide

/-- R121, R122, R112. -/
theorem test_decode_rejects :
    decodePacket [0x0C000000#32, 5#32] = .illegal 0x0C#8 .unknownOpcode [5#32] ∧
      decodePacket [0x10010001#32, 5#32, 6#32] = .illegal 0x10#8 .reservedField [6#32] ∧
      decodePacket [0x11000002#32, 5#32] = .incomplete ∧ decodePacket [] = .incomplete := by decide

/-- The opcodes of the map are distinct (R120). -/
theorem test_opcodes_distinct : (opcodeTable.map Row.opc).Nodup := by decide

/-- R130, R131. -/
theorem test_assembler :
    instrText (.setb 1#8 0xBF400000#32) = "SETB 1, 0xbf400000" ∧
      expandPseudo [] (.setwetpct 0x42480000#32) = [.setmix 0x3F000000#32] := by decide +kernel

/-! ### Numbers: the examples of R202, R146, R161 -/

theorem test_ms_to_samples :
    msToSamples smallCfg [] 0x3E800000#32 0x473B8000#32 = some 12 ∧ msToSamples smallCfg [] 0x3E99999A#32 0x473B8000#32 = some 14 ∧
      msToSamples smallCfg [] 0x3F19999A#32 0x473B8000#32 = some 28 := by decide +kernel

/-- R161: -60.0 / (1.0 * 48000.0); R260: 0.5 * 0.75 scaled; R162: the quotient printed there. -/
theorem test_arithmetic :
    fdiv smallCfg [] fM60 0x473B8000#32 = 0xBAA3D70A#32 ∧ fmul smallCfg [] 0x3F000000#32 0x3F400000#32 = 0x3EC00000#32 ∧
      fdiv smallCfg [] (fmul smallCfg [] pi32 0x469DD000#32) 0x473B8000#32 = 0x3FA93A25#32 ∧
      fsqrt smallCfg [] 0x40800000#32 = 0x40000000#32 := by
  decide +kernel

/-- R14: the floor of an infinity and of -2.5, 2^24 + 1 to the nearest even value, and a record that replaces one sum. -/
theorem test_numerics_record :
    ffloor smallCfg [] 0xFF800000#32 = 0xFF800000#32 ∧ ffloor smallCfg [] 0xC0200000#32 = 0xC0400000#32 ∧
      u2f smallCfg 16777217 = 0x4B800000#32 ∧
      fadd { smallCfg with num := { NumTable.default with add := [((f1, f1), f3)] } } [] f1 f1 = f3 := by decide +kernel

/-- The reference values of `tan` and `pow` for the example of R161, R162 and R164. -/
def exampleCfg : Cfg :=
  { smallCfg with num := { NumTable.default with
      tan := [(0x3FA93A25#32, 0x407C0029#32)]
      pow := [((f10, fdiv smallCfg [] 0xBAA3D70A#32 f20), 0x3F7FF692#32), ((0x3F7FF692#32, 0x41500000#32), 0x3F7F8585#32)] } }

/-- R164: `ShelfHigh(1.0, 20200.0, 13.0, 48000.0)`; R160: a listed result is taken. -/
theorem test_shelf_high :
    shelfHigh exampleCfg [] f1 0x469DD000#32 0x41500000#32 0x473B8000#32 = (0x3F7FE72D#32, 0x3F1852D8#32, 0x3F183A05#32) ∧
      shelfHigh { exampleCfg with shelf := ⟨[], [((f1, f1, f1, f1), (f2, f3, f6))]⟩ } [] f1 f1 f1 f1 = (f2, f3, f6) := by
  decide +kernel

/-- R148: taps (0, 0, 1.0, 0) at a delay of 1.5 under `LAGRANGE3`; R147: the same under `LINEAR`. -/
theorem test_kernels :
    let l : Line := { smallLine 13 0x3FC00000#32 0#32 0#32 with w := 5, buf := ⟨.zeros, [(3, 0x3F800000#32)]⟩ }
    dlRead smallCfg [] l = 0x3F100000#32 ∧ dlRead { smallCfg with kernel := .linear } [] l = 0x3F000000#32 := by decide +kernel

/-- Hand calculation: 1/3; the least subnormal and three times it over 2 (ties, to even); the root of 2; 1 - 2^-25 (a tie). -/
theorem test_rounding :
    fdiv smallCfg [] f1 f3 = 0x3EAAAAAB#32 ∧ fdiv smallCfg [] 0x00000001#32 f2 = 0x00000000#32 ∧
      fdiv smallCfg [] 0x00000003#32 f2 = 0x00000002#32 ∧ fsqrt smallCfg [] f2 = 0x3FB504F3#32 ∧
      fsub smallCfg [] f1 0x33000000#32 = f1 := by decide +kernel

/-- R244 (e). -/
theorem test_prime_search :
    primesIn 12 24 2 = [13, 17] ∧ primesIn 28 48 2 = [29, 31] ∧ primesIn 24 28 2 = [] ∧ primesIn 90 96 1 = [] := by
  decide +kernel

/-- R167. -/
theorem test_sf_process :
    sfOut smallCfg [] ⟨0x3F000000#32, 0x3E800000#32, 0xBF000000#32, 0x40000000#32, 0x40800000#32⟩ 0x3F800000#32 = 0x40400000#32 := by
  decide +kernel

/-- R182 (e): phases from +0.0 with increments of a quarter turn. -/
theorem test_phase :
    advancePhase smallCfg [] 0x00000000#32 0x3E800000#32 = 0x3E800000#32 ∧
      advancePhase smallCfg [] 0x3F400000#32 0x3E800000#32 = 0x00000000#32 := by
  decide +kernel

/-! ### One step each -/

/-- R300, R280: a NOP packet; SETB with i = N - 1. -/
theorem test_step_setb :
    field (step (sent live [0x10010000#32, 0xBF400000#32])) (fun t => (t.rspq, (lineAt t 1).b, (lineAt t 0).b, t.cmdq)) =
      some ([0x10000000#32], 0xBF400000#32, 0x3F000000#32, []) := by decide +kernel

/-- R280: SETB 2, 0.5 with N = 2. -/
theorem test_step_setb_out_of_range :
    field (step (sent live [0x10020000#32, 0x3F000000#32])) (fun t => (t.rspq, t.err, t.lastErr)) =
      some ([0x10000004#32], 0b01000#5, 4#8) := by decide +kernel

/-- R317: GETSTAT after reset. -/
theorem test_step_getstat_after_reset :
    field (step (sent State.reset [0x26000000#32])) (·.rspq) = some [0x26001000#32, 0x00000002#32] := by decide +kernel

/-- R317: GETSTAT after INIT and a SETB out of range. -/
theorem test_step_getstat :
    field (step { sent live [0x26000000#32] with err := 0b01000#5, lastErr := 4#8 }) (·.rspq) =
      some [0x26001000#32, 0x04080201#32] := by decide +kernel

/-- R312, R315, R316: the examples of the rules. -/
theorem test_step_read_back :
    field (step (sent live [0x21000000#32])) (·.rspq) = some [0x21002000#32, 0x3F000000#32, 0x3E800000#32] ∧
      field (step (sent live [0x24000000#32])) (·.rspq) = some [0x24002000#32, 0x0000000D#32, 0x00000011#32] ∧
      field (step (sent live [0x25000000#32])) (·.rspq) =
        some [0x25004000#32, 0x3F800000#32, 0x00000000#32, 0x00000000#32, 0x3F800000#32] := by decide +kernel

/-- R200: INIT raises RECONF and keeps everything else in its first phase. -/
theorem test_step_init_begins :
    field (step (sent State.reset [0x01020000#32, 0x473B8000#32, 0x3E800000#32, 0x3F000000#32]))
      (fun t => (t.reconf, t.rphase, t.inited, t.rspq)) = some (true, 1#3, false, []) := by decide +kernel

/-- R200: the body of INIT: the table, the order, RAMP_LEN and the effective delays of the example. -/
theorem test_step_init_body :
    field (step { sent (initing 1#3) [] with inited := false }) (fun t => (t.n, t.rampLen, t.lines.map Line.len, t.lines.map Line.delay)) =
      some (2, 3000, [13, 17], [0x41500000#32, 0x41880000#32]) := by decide +kernel

/-- R205: UPDORD rejects an order that is not supported. -/
theorem test_step_updord_bad_order :
    field (step (sent live [0x02030000#32])) (fun t => (t.rspq, t.reconf)) = some ([0x02000003#32], false) := by decide +kernel

/-- R220: UPDDLY 1.0: the table, the ramp targets and the steps left. -/
theorem test_step_upddly :
    field (step (sent live [0x03000000#32, 0x3F800000#32]))
      (fun t => (t.lines.map Line.len, t.lines.map Line.dtgt, t.lines.map Line.dcnt, t.lowMs)) =
      some ([29, 31], [0x41E80000#32, 0x41F80000#32], [3000, 3000], 0x3F19999A#32) := by decide +kernel

/-- R222: SETDLY 1, 0.5 sets L[1] = 24. -/
theorem test_step_setdly :
    field (step (sent live [0x04010000#32, 0x3F000000#32])) (fun t => t.lines.map Line.len) = some [13, 24] := by decide +kernel

/-- R288: SETMIX 1.5 is rejected; -0.0 is stored as +0.0. -/
theorem test_step_setmix :
    field (step (sent live [0x0A000000#32, 0x3FC00000#32])) (·.rspq) = some [0x0A000003#32] ∧
      field (step { sent live [0x0A000000#32, 0x80000000#32] with wet := 0x3F800000#32 }) (·.wet) = some 0x00000000#32 := by
  decide +kernel

/-- R290: SETLS 2.0, 24000.0 with FS = 48000.0 is at the Nyquist frequency; R291: 23999.0 is accepted. -/
theorem test_step_shelves :
    field (step (sent live [0x06000000#32, 0x40000000#32, 0x46BB8000#32])) (·.rspq) = some [0x06000003#32] ∧
      field (step (sent live [0x07000000#32, 0x3F800000#32, 0x46BB7E00#32])) (fun t => (t.rspq, t.hsValid)) =
        some ([0x07000000#32], true) := by decide +kernel

/-- R295: SETCELL 1, 0, 0.5 writes CM[1][0], word 1 * NMAX + 0. -/
theorem test_step_setcell :
    field (step (sent live [0x14010000#32, 0x3F000000#32])) (fun t => (t.cm.cells, t.rspq)) =
      some ([(2, 0x3F000000#32)], [0x14000000#32]) := by decide +kernel

/-- R271: UPDMOD 2.0, 12000.0: the phases, the offsets and the effective delays of the example. -/
theorem test_step_updmod :
    field (step (sent live [0x08000000#32, 0x40000000#32, 0x463B8000#32]))
      (fun t => (t.lines.map Line.phase, t.lines.map Line.lfo, t.lines.map Line.delay)) =
      some ([0x3E800000#32, 0x3E800000#32], [0x40000000#32, 0x40000000#32], [0x41700000#32, 0x41980000#32]) := by
  decide +kernel

/-- R211, R212: SETDLY 1, 0.5 with RAMP_LEN = 0 moves the nominal length and the effective delay at once. -/
theorem test_step_setdly_at_once :
    field (step { sent live [0x04010000#32, 0x3F000000#32] with rampLen := 0 })
      (fun t => ((lineAt t 1).dcur, (lineAt t 1).delay, (lineAt t 1).dcnt)) = some (0x41C00000#32, 0x41C00000#32, 0) := by
  decide +kernel

/-- R251: silence before INIT; R260 with `SETMIX 0.0`: the first output is OUT_ATT times 1.0, and 0.5 * 1.0 is pushed in line 0. -/
theorem test_step_proc :
    field (step { State.reset with inbox := [.audio 0x003F800000#40] }) (·.audY) = some (some 0x00000000#32) ∧
      field (step { live with inbox := [.audio 0x003F800000#40] })
        (fun t => (t.audY, t.lines.map Line.w, (lineAt t 0).buf.cells, (lineAt t 1).buf.cells)) =
        some (some 0x3F000000#32, [1, 1], [(0, 0x3F000000#32)], [(0, 0x3E800000#32)]) := by decide +kernel

/-- The table word of a row runs as the first instruction after reset. -/
theorem test_fetch_word :
    field (step (State.reset.withFetchWord 32 0x27000000)) (·.rspq) = some [0x27000000#32] ∧
      field (step (State.reset.withFetchWord 40 0x003F800000)) (·.audY) = some (some 0x00000000#32) := by decide +kernel

/-! ### Witnesses: a concrete input that meets the hypotheses of each statement, one for each clause -/

/-- The small engine with a word in the buffer's cursor position and one ramping line. -/
theorem live_inv : Inv live :=
  ⟨by decide +kernel, by decide +kernel, by decide +kernel, by decide +kernel⟩

theorem witness_DecodeEncodeRoundTrip :
    (Instr.setbs [0x3F800000#32]).wf = true ∧ encode (.setbs [0x3F800000#32]) = .packet [0x11000001#32, 0x3F800000#32] ∧
      (Instr.proc 255#8 0#32).wf = true := by decide +kernel

theorem witness_DecodedWordsAreEncodings :
    decodePacket [0x14FFFF00#32, 0x7FC00000#32, 9#32] = .command (.setcell 255#8 255#8 0x7FC00000#32) [9#32] := by decide +kernel

/-- The ends of the three ranges of unknown opcodes. -/
theorem witness_UnknownOpcodeRejected :
    (sent live [0x0C000000#32]).inbox = [.control] ∧ (sent live [0x0C000000#32]).running = none ∧
      (0x0C000000#32 : Word).toNat / 2 ^ 24 = 0x0C ∧ (0x0FFFFFFF#32 : Word).toNat / 2 ^ 24 = 0x0F ∧
      (0x16000000#32 : Word).toNat / 2 ^ 24 = 0x16 ∧ (0x1FFFFFFF#32 : Word).toNat / 2 ^ 24 = 0x1F ∧
      0x28 ≤ (0x28000000#32 : Word).toNat / 2 ^ 24 ∧ 0x28 ≤ (0xFFFFFFFF#32 : Word).toNat / 2 ^ 24 := by decide +kernel

/-- Formats Z, I and L, the lowest and the highest reserved bit. -/
theorem witness_ReservedFieldRejected :
    (0x00#8, 0x00FFFFFF#32, some 0) ∈ headerForms ∧ (0x00000001#32 : Word) &&& 0x00FFFFFF#32 ≠ 0#32 ∧
      (0x01#8, 0x0000FFFF#32, some 3) ∈ headerForms ∧ (0x01008000#32 : Word) &&& 0x0000FFFF#32 ≠ 0#32 ∧
      (0x05#8, 0x00FFF000#32, none) ∈ headerForms ∧ (0x05001000#32 : Word) &&& 0x00FFF000#32 ≠ 0#32 ∧
      (0x05001000#32 : Word).toNat / 2 ^ 24 = (0x05#8 : Byte).toNat ∧
      ([] : List Word).length = (none : Option Nat).getD ((0x05001000#32 : Word).toNat % 2 ^ 12) ∧
      (sent live ([0x05001000#32] ++ [])).running = none := by decide +kernel

/-- No word at all, and one word short. -/
theorem witness_PartialPacketWaits :
    (sent live []).cmdq = [] ∧ (sent live [0x01020000#32, 0#32, 0#32]).running = none ∧
      (0x01#8, 0x0000FFFF#32, some 3) ∈ headerForms ∧ (0x01020000#32 : Word).toNat / 2 ^ 24 = (0x01#8 : Byte).toNat ∧
      [0#32, (0#32 : Word)].length < (some 3).getD 0 := by decide +kernel

theorem witness_StepRunsDecodedCommand :
    (sent live [0x26000000#32]).running = none ∧ decodePacket (sent live [0x26000000#32]).cmdq = .command .getstat [] ∧
      (sent (updording 3#3) []).inbox = [.control] ∧ (sent (updording 3#3) []).running = some (.updord 1#8 1#8) := by decide +kernel

theorem witness_StepRunsAudioRequest :
    ({ live with inbox := [.audio (7#8 ++ 0x3F800000#32)] } : State).inbox = .audio (7#8 ++ 0x3F800000#32) :: [] := rfl

theorem witness_HostQueueEvents :
    live.inbox = [] ∧ ({ live with inbox := [.word 5#32] } : State).inbox = .word 5#32 :: [] ∧
      ({ live with inbox := [.drain 1], rspq := [1#32, 2#32] } : State).inbox = .drain [(1#32 : Word)].length :: [] := by decide +kernel

theorem witness_ResetState : ({ live with inbox := [.reset] } : State).inbox = .reset :: [] ∧ AtReset State.reset := by
  refine ⟨rfl, ?_⟩
  simp only [AtReset, State.reset, State.powerOn, true_and]
  refine ⟨by simp, ⟨_, rfl⟩, fun l hl => ?_⟩
  obtain ⟨i, -, rfl⟩ := List.mem_map.mp hl
  simp [Line.reset, Filter.passThrough]

theorem witness_CommandsNeedInit :
    acceptedBeforeInit (.updord 1#8 0#8) = false ∧ acceptedBeforeInit .getmat = false ∧ State.reset.inited = false ∧
      State.reset.running = none ∧ live.inited = true ∧ ∃ t, exec .nop live = .next t :=
  ⟨by decide +kernel, by decide +kernel, rfl, rfl, rfl, ⟨_, rfl⟩⟩

/-- Each of the three codes of a rejection. -/
theorem witness_RejectionIsAtomic :
    field (exec (.setb 2#8 0#32) live) (fun t => (t.running, t.lastErr)) = some (none, 4#8) ∧
      field (exec (.setb 2#8 0x7F800000#32) live) (fun t => (t.running, t.lastErr)) = some (none, 3#8) ∧
      field (exec .getbs State.reset) (fun t => (t.running, t.lastErr)) = some (none, 2#8) ∧ live.running = none := by
  decide +kernel

theorem witness_ErrorFlagsSticky : ∃ t, exec .clrerr live = .next t := ⟨_, rfl⟩

/-- A PROC, a command that ends and a command under way. -/
theorem witness_OneResponsePerCommand :
    live.n ≤ 63 ∧ (∃ t, exec (.proc 0#8 0#32) live = .next t) ∧ (∃ t, exec .getmat live = .next t) ∧
      (∃ t, exec (.updord 1#8 1#8) (updording 1#3) = .next t) := ⟨by decide +kernel, ⟨_, rfl⟩, ⟨_, rfl⟩, ⟨_, rfl⟩⟩

theorem witness_GlobalRegisterWriters : ∃ t, exec (.settopo 1#8) live = .next t ∧ t.topo ≠ live.topo :=
  ⟨_, rfl, by decide +kernel⟩

theorem witness_LineRegisterWriters :
    ∃ t l l', exec (.setb 1#8 0x3F800000#32) live = .next t ∧ live.lines[1]? = some l ∧ t.lines[1]? = some l' ∧ l'.b ≠ l.b :=
  ⟨_, _, _, rfl, rfl, rfl, by decide +kernel⟩

/-- The coefficients of a user shelf. -/
theorem witness_LineRegisterWriters_coefficients :
    let low := [((f1, f1, u2f smallCfg 13, 0x473B8000#32), (f2, f3, f6))]
    field (exec (.setls f1 f1) { live with cfg := { smallCfg with shelf := ⟨low, []⟩ } }) (fun t => (lineAt t 0).ls.b0) = some f2 ∧ (lineAt live 0).ls.b0 = f1 := by decide +kernel

theorem witness_MemoryWriters : (∃ t, exec .nop live = .next t) ∧ opcodeOf .nop ∉ [0x01#8, 0x14#8, 0x15#8, 0x02#8, 0xFF#8] :=
  ⟨⟨_, rfl⟩, by decide +kernel⟩

/-- Every clause: before INIT, a frequency at and one below the Nyquist frequency. -/
theorem witness_SetShelf :
    State.reset.inited = false ∧ live.inited = true ∧ ¬shelfAccepted live.cfg 0x3F800000#32 0x46BB8000#32 live.fs ∧
      shelfAccepted live.cfg 0x3F800000#32 0x46BB7E00#32 live.fs := by
  simp only [shelfAccepted]
  decide +kernel

/-- Every clause, at i = N - 1 and i = N. -/
theorem witness_SetCell :
    memWf (live.cfg.nmax * live.cfg.nmax) live.cm = true ∧ memWf (State.reset.cfg.nmax * State.reset.cfg.nmax) State.reset.cm = true ∧
      State.reset.inited = false ∧ live.inited = true ∧ isFinite 0x7F800000#32 = false ∧ isFinite 0x7F7FFFFF#32 = true ∧
      live.n ≤ (2#8 : Byte).toNat ∧ (1#8 : Byte).toNat < live.n := by decide +kernel

/-- Every clause: N*N - 1, N*N words, an infinite word. -/
theorem witness_SetMatrix :
    live.n ≤ live.cfg.nmax ∧ memWf (live.cfg.nmax * live.cfg.nmax) live.cm = true ∧ State.reset.n ≤ State.reset.cfg.nmax ∧
      State.reset.inited = false ∧ live.inited = true ∧ [0#32, 0#32, (0#32 : Word)].length ≠ live.n * live.n ∧
      (∃ x ∈ [0#32, 0#32, 0#32, (0x7F800000#32 : Word)], isFinite x = false) ∧
      [0#32, 0#32, 0#32, (0#32 : Word)].length = live.n * live.n ∧ ∀ x ∈ [0#32, 0#32, 0#32, (0#32 : Word)], isFinite x = true := by
  simp only [List.forall_mem_cons, List.exists_mem_cons_iff, List.not_mem_nil, false_and, exists_false, false_implies, implies_true]
  decide +kernel

theorem witness_ReadBack :
    live.n ≤ 63 ∧ live.n ≤ live.lines.length ∧ State.reset.n ≤ State.reset.lines.length ∧ live.inited = true ∧
      State.reset.inited = false := by decide +kernel

theorem witness_ModulationStep : live.cfg.cap < 2 ^ 24 := by decide +kernel

/-- Every clause: i = N - 1 and i = N; a length of one sample and one just below; N and N - 1 elements. -/
theorem witness_SetDelay :
    State.reset.inited = false ∧ live.inited = true ∧ lengthAccepted live.cfg 0x3CAAAAAB#32 live.fs ∧
      ¬lengthAccepted live.cfg 0x3CA3D70A#32 live.fs ∧ live.n ≤ (2#8 : Byte).toNat ∧ (1#8 : Byte).toNat < live.n ∧
      [(0x3F000000#32 : Word)].length ≠ live.n ∧ (∃ x ∈ [(0x3CA3D70A#32 : Word), 0x3F000000#32], ¬lengthAccepted live.cfg x live.fs) ∧
      [(0x3CAAAAAB#32 : Word), 0x3F000000#32].length = live.n ∧
      ∀ x ∈ [(0x3CAAAAAB#32 : Word), 0x3F000000#32], lengthAccepted live.cfg x live.fs := by
  simp only [List.forall_mem_cons, List.exists_mem_cons_iff, List.not_mem_nil, false_and, exists_false, false_implies, implies_true,
    lengthAccepted, samplesValid]
  decide +kernel

/-- Every clause: a target of one sample and one just below. -/
theorem witness_UpdateDelay :
    State.reset.inited = false ∧ live.inited = true ∧
      (isFinite 0x3CAAAAAB#32 = true ∧ flt 0x00000000#32 0x3CAAAAAB#32 = true ∧
        samplesValid live.cfg (fmul live.cfg [] 0x3F19999A#32 0x3CAAAAAB#32) live.fs ∧
        samplesValid live.cfg 0x3CAAAAAB#32 live.fs ∧ samplesOf live.cfg 0x3CAAAAAB#32 live.fs = 1) ∧
      samplesOf live.cfg 0x3CA3D70A#32 live.fs = 0 := by
  simp only [samplesValid]
  decide +kernel

/-- A ramp and none, the last step and the one before it. -/
theorem witness_RampEndsOnTarget :
    live.rampLen ≠ 0 ∧ feq 0x41B80000#32 (lineAt live 0).dcur = false ∧ feq 0x41500000#32 (lineAt live 0).dcur = true ∧
      2998 + 1 < live.rampLen ∧ 2999 < live.rampLen := by decide +kernel

theorem witness_PhaseInRange : smallCfg.num.ieee = true := rfl

/-- Listed and unlisted operands. -/
theorem witness_ShelfCoefficients :
    (∀ k, ((f1, f1, f1, f1), k) ∉ smallCfg.shelf.low) ∧ (∀ k, ((f1, f1, f1, f1), k) ∉ smallCfg.shelf.high) ∧
      ∀ k' : Coeffs, ((f1, f1, f1, f1), k') ∈ [(((f1, f1, f1, f1), (f2, f3, f6)) : ShelfOperands × Coeffs)] ↔ k' = (f2, f3, f6) := by
  refine ⟨fun k => ?_, fun k => ?_, fun k => ?_⟩
  · exact List.not_mem_nil
  · exact List.not_mem_nil
  · simp

/-- Every clause of INIT's two ends; the lower bound of the sample rate is excluded. -/
theorem witness_InitBeginsAndEnds :
    live.running = none ∧ initAccepts Cfg.ref 2#8 0x473B8000#32 0x3E800000#32 0x3F000000#32 ∧
      ¬initAccepts Cfg.ref 2#8 0x471DD000#32 0x3E800000#32 0x3F000000#32 ∧
      (initing 2#3).running = some (.init 2#8 0x473B8000#32 0x3E800000#32 0x3F000000#32) ∧ (initing 2#3).rphase = 2#3 := by
  simp only [initAccepts, samplesValid]
  decide +kernel

theorem witness_InitBody :
    (initing 1#3).running = some (.init 2#8 0x473B8000#32 0x3E800000#32 0x3F000000#32) ∧ (initing 1#3).rphase = 1#3 ∧
      (initing 1#3).cfg.cap < 2 ^ 24 ∧ initAccepts (initing 1#3).cfg 2#8 0x473B8000#32 0x3E800000#32 0x3F000000#32 ∧
      ∀ l ∈ (initing 1#3).lines, l.len < 2 ^ 24 := by
  simp only [initAccepts, samplesValid]
  decide +kernel

theorem witness_UpdordBegins : live.running = none ∧ State.reset.running = none := by decide +kernel

/-- Every phase. -/
theorem witness_UpdordPhases :
    ∀ k : BitVec 3, (updording k).running = some (.updord 1#8 1#8) ∧ (updording k).rphase = k := fun _ => ⟨rfl, rfl⟩

theorem witness_SeedLine : live.cfg.cap < 2 ^ 24 ∧ (lineAt live 1).len < 2 ^ 24 := by decide +kernel

theorem witness_ProcSilent : State.reset.reconf = true := rfl

theorem witness_ProcEffect : live.reconf = false ∧ live.n ≤ live.lines.length := by decide +kernel

/-- An active line; and, with N = 1, a line that is not. -/
theorem witness_ProcStores :
    Inv live ∧ Inv { live with n := 1 } ∧ live.reconf = false ∧ (∃ t, exec (.proc 0#8 0x3F800000#32) live = .next t) ∧
      (∃ l, live.lines[1]? = some l) ∧ 1 < live.n ∧ ({ live with n := 1 } : State).n ≤ 1 :=
  ⟨live_inv, ⟨by decide +kernel, by decide +kernel, by decide +kernel, by decide +kernel⟩, rfl, ⟨_, rfl⟩, ⟨_, rfl⟩, by decide +kernel,
    by decide +kernel⟩

/-- Both ends of the mix, with a nonzero and with a zero operand. -/
theorem witness_DryWetBoundary :
    live.cfg.num.ieee = true ∧ isFinite live.cfg.outAtt = true ∧ isFinite 0x3F800000#32 = true ∧ val 0x3F800000#32 ≠ 0 ∧
      val 0x80000000#32 = 0 ∧
      live.wet = 0x00000000#32 ∧ ({ live with wet := 0x3F800000#32 } : State).wet = 0x3F800000#32 := by decide +kernel

/-- Two engines that differ in everything but line 0, the order among it. -/
theorem witness_IdentityDecoupling :
    let u : State := { live with n := 1, wet := 0x3F800000#32, lines := live.lines.take 1 }
    live.topo = .identity ∧ u.topo = .identity ∧ live.reconf = false ∧ u.reconf = false ∧ live.cfg = u.cfg ∧ live.fs = u.fs ∧
      live.epoch = u.epoch ∧ 0 < live.n ∧ 0 < u.n ∧ live.lines[0]? = u.lines[0]? ∧
      (∃ t, exec (.proc 0#8 0x3F800000#32) live = .next t) ∧ ∃ t, exec (.proc 1#8 0x3F800000#32) u = .next t :=
  ⟨rfl, rfl, rfl, rfl, rfl, rfl, rfl, by decide +kernel, by decide +kernel, rfl, ⟨_, rfl⟩, ⟨_, rfl⟩⟩

theorem witness_ZeroMatrixKillsFeedback :
    live.cfg.num.ieee = true ∧ ({ live with topo := .custom } : State).topo = .custom ∧ live.cm = memCleared ∧
      ∀ x ∈ [(0x3F800000#32 : Word), 0xBF800000#32], isFinite x = true := by
  simp only [List.forall_mem_cons, List.not_mem_nil, false_implies, implies_true]
  decide +kernel

/-- Every branch of the clamp, and a NaN with an old delay at CAP. -/
theorem witness_SetDelayClamps :
    smallCfg.cap < 2 ^ 24 ∧ smallCfg.num.ieee = true ∧ isNaN 0x7F800000#32 = false ∧ isNaN 0x80000000#32 = false ∧
      isNaN 0x7FC00000#32 = true ∧ fle 0x00000000#32 0x41E80000#32 = true ∧ fle 0x41E80000#32 (u2f smallCfg smallCfg.cap) = true ∧
      ({ smallCfg with num := { NumTable.default with u2f := [(0, f1)] } } : Cfg).num.ieee = false := by decide +kernel

/-- The cursor at the last word of the buffer; taps 0 and CAP + 2. -/
theorem witness_TapsShift :
    ({ lineAt live 0 with w := 31 } : Line).w < smallCfg.buflen ∧ memWf smallCfg.buflen ({ lineAt live 0 with w := 31 } : Line).buf = true ∧
      0 ≤ smallCfg.cap + 2 ∧ 30 < smallCfg.cap + 2 := by decide +kernel

/-- Every clause: whole delays of 0, 1 and CAP samples, both kernels, finite taps and intermediate sums. -/
theorem witness_IntegerDelayExact :
    let l := smallLine 13 0x3F800000#32 0#32 0#32
    let linear : Cfg := { smallCfg with kernel := .linear }
    smallCfg.num.ieee = true ∧ smallCfg.kernel = .lagrange3 ∧ linear.kernel = .linear ∧ linear.num.ieee = true ∧
      smallCfg.cap < 2 ^ 24 ∧ u2f smallCfg 0 = 0x00000000#32 ∧ u2f smallCfg 1 = 0x3F800000#32 ∧
      u2f smallCfg smallCfg.cap = 0x41E80000#32 ∧ (∀ k, isFinite (tap smallCfg l k) = true ∧ isFinite (tap linear l k) = true) ∧
      isFinite (fadd smallCfg [] (fadd smallCfg [] (fmul smallCfg [] (tap smallCfg l 1) 0x40400000#32)
        (fmul smallCfg [] (tap smallCfg l 2) 0xBFC00000#32)) (fmul smallCfg [] (tap smallCfg l 3) 0x3EAAAAAB#32)) = true ∧
      isFinite (fsub linear [] (tap linear l 30) (tap linear l 29)) = true := by
  refine ⟨rfl, rfl, rfl, rfl, by decide +kernel, by decide +kernel, by decide +kernel, by decide +kernel, fun k => ⟨?_, ?_⟩,
    by decide +kernel, by decide +kernel⟩
  · rw [show tap smallCfg (smallLine 13 0x3F800000#32 0#32 0#32) k = 0#32 from rfl]
    decide +kernel
  · rw [show tap { smallCfg with kernel := .linear } (smallLine 13 0x3F800000#32 0#32 0#32) k = 0#32 from rfl]
    decide +kernel

/-- Every clause: the largest and the smallest finite value, a divisor and a dividend that are zeros, a root of each sign. -/
theorem witness_Rounding :
    smallCfg.num.ieee = true ∧ isFinite 0x7F7FFFFF#32 = true ∧ isFinite 0x80000001#32 = true ∧ val 0x80000001#32 ≠ 0 ∧
      val 0x80000000#32 = 0 ∧ isFinite 0x80000000#32 = true ∧ 0 < val 0x00000001#32 ∧ val 0x80000001#32 < 0 := by decide +kernel

/-- Every clause: finite operands, the ends of P5, an infinity, 2^24 - 1, a NaN. -/
theorem witness_NumericProperties :
    smallCfg.num.ieee = true ∧ isInf 0xFF800000#32 = true ∧ isNaN 0x7FC00000#32 = true ∧ 16777215 < 2 ^ 24 ∧
      isFinite 0x3F000000#32 = true ∧ flt 0x00000000#32 0x3FC90FD9#32 = true ∧ flt 0x3FC90FD9#32 0x3FC90FDA#32 = true := by
  decide +kernel

theorem witness_StepKeepsInv : Inv (sent live [0x01020000#32]) ∧ ∃ t, step (sent live [0x01020000#32]) = .next t :=
  ⟨⟨by decide +kernel, by decide +kernel, by decide +kernel, by decide +kernel⟩, ⟨_, rfl⟩⟩

theorem witness_StepKeepsRanges : live.cfg.num.ieee = true ∧ Inv live ∧ Ranges live ∧ ∃ t, step live = .next t :=
  ⟨rfl, live_inv, by unfold Ranges; decide +kernel, ⟨_, rfl⟩⟩

/-! ### Well-formedness: LEN has 12 bits (R115) -/

theorem test_wf_setbs_refuses_4096 : (Instr.setbs (List.replicate 4096 0#32)).wf = false := by decide +kernel
theorem test_wf_setcs_refuses_4096 : (Instr.setcs (List.replicate 4096 0#32)).wf = false := by decide +kernel
theorem test_wf_setdlys_refuses_4096 : (Instr.setdlys (List.replicate 4096 0#32)).wf = false := by decide +kernel
theorem test_wf_setmat_refuses_4096 : (Instr.setmat (List.replicate 4096 0#32)).wf = false := by decide +kernel
theorem test_wf_setmat_takes_4095 : (Instr.setmat (List.replicate 4095 0#32)).wf = true := by decide +kernel

end Sys2Proof.Tests
end

section
/-! PROOFS. Every step answers a next state (spec/00_scope.md R18, spec/60_exceptions.md R339). -/

namespace Sys2Proof.Machine

/-- An outcome that is a next state: the machine neither faults nor refuses. -/
def AnswersNext (o : Host.Outcome State Fault Refusal) : Prop := ∃ t, o = .next t

theorem answersNext_next (t : State) : AnswersNext (.next t) := ⟨t, rfl⟩

theorem answersNext_command (s e : State) (opc : Byte) (checks : List (Bool × Code)) : AnswersNext (command s opc checks e) :=
  command_total s e opc checks

/-- INIT, in each of its phases: the validation, or the next phase of the one under way. -/
theorem answersNext_execInit (order : Byte) (fs lowMs highMs : Word) (s : State) :
    AnswersNext (execInit order fs lowMs highMs s) := by
  unfold execInit
  split
  · exact answersNext_next _
  · exact answersNext_command _ _ _ _

/-- UPDORD, in each of its phases. -/
theorem answersNext_execUpdord (newOrder selector : Byte) (s : State) : AnswersNext (execUpdord newOrder selector s) := by
  unfold execUpdord
  split
  · exact answersNext_next _
  · exact answersNext_command _ _ _ _

/-- PROC, silent or not. -/
theorem answersNext_execProc (ch : Byte) (x : Word) (s : State) : AnswersNext (execProc ch x s) := by
  unfold execProc
  split <;> exact answersNext_next _

/-- No meaning of an operation faults or is refused: all but INIT, UPDORD and PROC are one `command`, or answer at once. -/
theorem answersNext_exec (i : Instr) (s : State) : AnswersNext (exec i s) := by
  cases i with
  | nop | getstat | clrerr => exact answersNext_next _
  | init order fs lowMs highMs => exact answersNext_execInit order fs lowMs highMs s
  | updord newOrder selector => exact answersNext_execUpdord newOrder selector s
  | proc ch x => exact answersNext_execProc ch x s
  | upddly _ | setdly _ _ | setdlys _ | setls _ _ | seths _ _ | updmod _ _ | updmodl _ _ _ | setmix _ | settopo _ | setb _ _
  | setbs _ | setc _ _ | setcs _ | setcell _ _ _ | setmat _ | getb _ | getbs | getc _ | getcs | getdlys | getmat =>
    exact answersNext_command _ _ _ _

theorem answersNext_controlTurn (s : State) : AnswersNext (controlTurn s) := by
  rcases controlTurn_cases s with ⟨i, -, h⟩ | ⟨-, -, h⟩ | ⟨i, rest, -, -, h⟩ | ⟨opc, why, rest, -, -, h⟩ <;> rw [h]
  · exact answersNext_exec i s
  · exact answersNext_next _
  · exact answersNext_exec i _
  · exact answersNext_next _

theorem answersNext_step (s : State) : AnswersNext (step s) := by
  rcases step_cases s with ⟨-, h⟩ | ⟨w, later, -, h⟩ | ⟨req, later, -, h⟩ | ⟨later, -, h⟩ | ⟨k, later, -, h⟩ | ⟨later, -, h⟩ <;>
    rw [h]
  · exact answersNext_next _
  · exact answersNext_next _
  · exact answersNext_exec _ _
  · exact answersNext_controlTurn _
  · exact answersNext_next _
  · exact answersNext_next _

/-- Settles O9, by cases on the host event (`step_cases`) and on the operation it runs. -/
theorem everyStepAnswersNext : Obligations.EveryStepAnswersNext := answersNext_step

end Sys2Proof.Machine
end

section
/-! PROOFS. Rounding to nearest, ties to even, with a sign (spec/00_scope.md R14, R19): what `roundQ` and `roundPack` give is said
once, for an exact quotient; the sum, the difference, the product, the quotient and the root are then uses of it. -/

namespace Sys2Proof.Machine

/-! ### The overflow threshold -/

theorem patMag_largest : patMag 0x7F7FFFFF = (2 ^ 24 - 1) * 2 ^ 253 :=
  patMag_binade (k := 253) (q := 2 ^ 24 - 1) (by omega) (by omega)

theorem patMag_infinity : patMag 0x7F800000 = 2 ^ 24 * 2 ^ 253 :=
  patMag_binade (k := 253) (q := 2 ^ 24) (by omega) (by omega)

/-- Twice the midpoint of the largest finite value and the pattern after it, which would be 2^128. -/
theorem patMag_overflow : patMag 0x7F7FFFFF + patMag 0x7F800000 = 2 * ((2 ^ 25 - 1) * 2 ^ 252) := by
  rw [patMag_largest, patMag_infinity]
  norm_num

/-- `roundQ` reaches an even pattern exactly from the midpoint below it on. -/
theorem le_roundQ_iff {n d m : Nat} (hd : 0 < d) (hm : m % 2 = 1) :
    m + 1 ≤ roundQ n d ↔ (patMag m + patMag (m + 1)) * d ≤ 2 * n := by
  obtain ⟨p, hlow, hhigh, hround⟩ := roundQ_spec (n := n) hd
  have hmono : ∀ {i j : Nat}, i ≤ j → patMag i * d ≤ patMag j * d := fun h =>
    Nat.mul_le_mul_right d (patMag_strictMono.monotone h)
  rw [Nat.add_mul]
  rcases Nat.lt_trichotomy m p with h | rfl | h
  · have := hmono h.le
    have := hmono (i := m + 1) h
    omega
  · omega
  · have := hmono (i := p + 1) h
    have := hmono (i := p + 1) (j := m + 1) (by omega)
    omega

/-- A rounded quotient is beyond the finite patterns exactly from the overflow threshold on. -/
theorem roundQ_overflow_iff {n d : Nat} (hd : 0 < d) :
    0x7F800000 ≤ roundQ n d ↔ (2 ^ 25 - 1) * 2 ^ 252 * d ≤ n := by
  rw [le_roundQ_iff (m := 0x7F7FFFFF) hd (by decide), patMag_overflow, Nat.mul_assoc 2]
  omega

/-! ### Rounding with a sign -/

/-- A number with the sign that a sign bit says. -/
def signed (neg : Bool) (m : Nat) : Int := if neg then -(m : Int) else (m : Int)

@[simp] theorem signed_false (m : Nat) : signed false m = m := rfl
@[simp] theorem signed_true (m : Nat) : signed true m = -(m : Int) := rfl

theorem val_eq_signed (a : Word) : val a = signed (signOf a) (mag a) := rfl

@[simp] theorem natAbs_signed (neg : Bool) (m : Nat) : (signed neg m).natAbs = m := by
  cases neg <;> simp

theorem signed_natAbs (x : Int) : signed (decide (x < 0)) x.natAbs = x := by
  by_cases h : x < 0
  · rw [decide_eq_true h, signed_true]
    omega
  · rw [decide_eq_false h, signed_false]
    omega

theorem signed_mul_signed (s t : Bool) (m n : Nat) : signed s m * signed t n = signed (s != t) (m * n) := by
  cases s <;> cases t <;> simp [signed]

theorem signed_not (neg : Bool) (m : Nat) : signed (!neg) m = -signed neg m := by
  cases neg <;> simp

theorem signed_mul_natCast (neg : Bool) (m n : Nat) : signed neg m * n = signed neg (m * n) := by
  simpa using signed_mul_signed neg false m n

/-- r is x/y (in units of 2^-149) rounded to nearest, ties to even, and infinite from the overflow threshold on. -/
def Rounds (x y : Int) (r : Word) : Prop :=
  (isFinite r = false ↔ (2 ^ 25 - 1) * 2 ^ 252 * y.natAbs ≤ x.natAbs) ∧ isNaN r = false ∧
    (isFinite r = true → ∀ c, isFinite c = true →
      |x - val r * y| ≤ |x - val c * y| ∧ (|x - val r * y| = |x - val c * y| → val c ≠ val r → r.getLsbD 0 = false))

/-- Dividend and divisor may change their signs together. -/
theorem Rounds.neg {x y : Int} {r : Word} (h : Rounds x y r) : Rounds (-x) (-y) r := by
  have habs : ∀ v : Int, |-x - v * -y| = |x - v * y| := fun v => by rw [← abs_neg]; congr 1; ring
  simpa only [Rounds, habs, Int.natAbs_neg] using h

/-- The last bit of a packed finite pattern. -/
theorem getLsbD_zero_packBits {neg : Bool} {m : Nat} (h : m < 0x7F800000) : (packBits neg m).getLsbD 0 = decide (m % 2 = 1) := by
  have hn := packBits_toNat neg m
  rw [BitVec.getLsbD, Nat.testBit_zero, hn, Nat.min_eq_left h.le]
  cases neg
  · simp
  · rw [if_pos rfl]
    congr 1
    rw [eq_iff_iff]
    omega

/-- `roundQ_nearest` against a value of either sign: one of the other sign lies no closer to n/d than zero does. -/
theorem roundQ_nearest_signed {n d : Nat} (hd : 0 < d) (neg : Bool) (m : Nat) :
    |(n : Int) - (patMag (roundQ n d) : Int) * d| ≤ |(n : Int) - signed neg (patMag m) * d| ∧
      (|(n : Int) - (patMag (roundQ n d) : Int) * d| = |(n : Int) - signed neg (patMag m) * d| →
        signed neg (patMag m) ≠ patMag (roundQ n d) → roundQ n d % 2 = 0) := by
  cases neg with
  | false =>
    obtain ⟨hle, htie⟩ := roundQ_nearest (n := n) hd m
    push_cast at hle htie
    exact ⟨hle, fun he hne => htie he fun hm => hne (by rw [hm, signed_false])⟩
  | true =>
    obtain ⟨hle, htie⟩ := roundQ_nearest (n := n) hd 0
    have hfar : |(n : Int) - signed true (patMag m) * d| = n + (patMag m * d : Nat) := by
      rw [signed_true, neg_mul, sub_neg_eq_add, Nat.cast_mul, abs_of_nonneg (by positivity)]
    have hzero : |(n : Int) - (patMag 0 * d : Nat)| = n := by
      rw [show patMag 0 = 0 from rfl, Nat.zero_mul, Nat.cast_zero, sub_zero, Nat.abs_cast]
    rw [hzero, Nat.cast_mul] at hle htie
    rw [hfar]
    refine ⟨by omega, fun he _ => ?_⟩
    by_cases hR : roundQ n d = 0
    · rw [hR]
    · exact htie (by omega) (Ne.symm hR)

/-- Rounding is symmetric: the opposite of the result rounds the opposite number. -/
theorem rounds_fneg {x y : Int} {r : Word} (h : Rounds x y r) : Rounds (-x) y (fneg r) := by
  obtain ⟨hover, hnan, hnear⟩ := h
  have hlast : (fneg r).getLsbD 0 = r.getLsbD 0 := by simp [fneg]
  have hdist : ∀ v : Int, |-x - -v * y| = |x - v * y| := fun v => by rw [← abs_neg]; congr 1; ring
  refine ⟨by rwa [isFinite_fneg, Int.natAbs_neg], by rwa [isNaN_fneg], fun hfin c hc => ?_⟩
  rw [isFinite_fneg] at hfin
  have hc' := hnear hfin (fneg c) (by rwa [isFinite_fneg])
  rw [val_fneg, ← hdist (-val c), neg_neg, ← hdist (val r)] at hc'
  rw [val_fneg, hlast]
  exact ⟨hc'.1, fun he hne => hc'.2 he fun h => hne (by omega)⟩

theorem packBits_true (m : Nat) : packBits true m = fneg (packBits false m) :=
  eq_of_sign_mag (by simp only [signOf_fneg, signOf_packBits, Bool.not_false]) (by simp only [mag_fneg, mag_packBits])

theorem rounds_roundPack_false (n : Nat) {d : Nat} (hd : 0 < d) : Rounds n d (roundPack false n d) := by
  refine ⟨?_, isNaN_packBits _ _, fun hfin c _ => ?_⟩
  · rw [Int.natAbs_natCast, Int.natAbs_natCast, ← roundQ_overflow_iff hd, ← Bool.not_eq_true, roundPack, isFinite_packBits]
    omega
  · have hR := (isFinite_packBits _ _).mp hfin
    have hval : val (roundPack false n d) = patMag (roundQ n d) := by
      rw [val_eq_signed, roundPack, signOf_packBits, mag_packBits, Nat.min_eq_left hR.le, signed_false]
    obtain ⟨hle, htie⟩ := roundQ_nearest_signed (n := n) hd (signOf c) (c.toNat % 2 ^ 31)
    rw [hval, val_eq_signed c, mag_eq, roundPack, getLsbD_zero_packBits hR]
    exact ⟨hle, fun he hne => by simp [htie he hne]⟩

/-- What `roundPack` gives is its quotient correctly rounded, with the sign asked for. -/
theorem rounds_roundPack (neg : Bool) (n : Nat) {d : Nat} (hd : 0 < d) : Rounds (signed neg n) d (roundPack neg n d) := by
  cases neg with
  | false => exact rounds_roundPack_false n hd
  | true =>
    rw [roundPack, packBits_true]
    exact rounds_fneg (rounds_roundPack_false n hd)

theorem signOf_roundPack (neg : Bool) (n d : Nat) : signOf (roundPack neg n d) = neg := signOf_packBits _ _

/-- A zero is zero rounded. -/
theorem rounds_zeroOf (neg : Bool) : Rounds 0 1 (zeroOf neg) := by
  have h : zeroOf neg = roundPack neg 0 1 := by cases neg <;> rfl
  have h0 : signed neg 0 = 0 := by cases neg <;> rfl
  rw [h, ← h0]
  exact rounds_roundPack neg 0 Nat.one_pos

/-! ### Sums and differences -/

/-- What the IEEE 754 sum and difference do with an exact result x that is finite: a zero keeps the sign s. -/
theorem rounds_sum (x : Int) (s : Bool) :
    Rounds x 1 (if x = 0 then zeroOf s else roundPack (decide (x < 0)) x.natAbs 1) := by
  split
  case isTrue h => exact h ▸ rounds_zeroOf s
  case isFalse => simpa only [signed_natAbs, Nat.cast_one] using rounds_roundPack (decide (x < 0)) x.natAbs Nat.one_pos

theorem rounds_ieeeAdd {q : Site} {a b : Word} (ha : isFinite a = true) (hb : isFinite b = true) :
    Rounds (val a + val b) 1 (ieeeAdd q a b) := by
  rw [ieeeAdd_finite ha hb]
  exact rounds_sum _ _

theorem rounds_ieeeSub {q : Site} {a b : Word} (ha : isFinite a = true) (hb : isFinite b = true) :
    Rounds (val a - val b) 1 (ieeeSub q a b) := by
  rw [ieeeSub_finite ha hb]
  exact rounds_sum _ _

/-- Settles O54: the sum and the difference are `roundPack` of the exact value (`rounds_ieeeAdd`, `rounds_ieeeSub`). -/
theorem sumRoundsToNearestEven : Obligations.SumRoundsToNearestEven := by
  intro cfg q a b hieee ha hb
  rw [fadd_ieee hieee, fsub_ieee hieee]
  have hadd := rounds_ieeeAdd (q := q) ha hb
  have hsub := rounds_ieeeSub (q := q) ha hb
  simp only [Rounds, mul_one, Int.natAbs_one] at hadd hsub
  exact ⟨hadd, hsub⟩

end Sys2Proof.Machine
end

section
/-! PROOFS. Products, quotients and roots are correctly rounded (spec/00_scope.md R14, R19). -/

namespace Sys2Proof.Machine

/-! ### Products and quotients -/

theorem rounds_ieeeMul {q : Site} {a b : Word} (ha : isFinite a = true) (hb : isFinite b = true) :
    Rounds (val a * val b) (2 ^ 149) (ieeeMul q a b) := by
  rw [ieeeMul_finite ha hb, val_eq_signed a, val_eq_signed b, signed_mul_signed]
  exact_mod_cast rounds_roundPack (signOf a != signOf b) (mag a * mag b) (d := 2 ^ 149) (by positivity)

theorem signOf_ieeeMul {q : Site} {a b : Word} (ha : isFinite a = true) (hb : isFinite b = true) :
    signOf (ieeeMul q a b) = (signOf a != signOf b) := by
  rw [ieeeMul_finite ha hb, signOf_roundPack]

/-- The quotient of magnitudes is rounded with the sign of the quotient; the divisor's own sign is moved into both. -/
theorem rounds_ieeeDiv {q : Site} {a b : Word} (ha : isFinite a = true) (hb : isFinite b = true) (h0 : val b ≠ 0) :
    Rounds (val a * 2 ^ 149) (val b) (ieeeDiv q a b) := by
  have hm : mag b ≠ 0 := fun h => h0 (val_eq_zero.mpr h)
  have h := rounds_roundPack (signOf a != signOf b) (mag a * 2 ^ 149) (Nat.pos_of_ne_zero hm)
  have hx : val a * 2 ^ 149 = signed (signOf a) (mag a * 2 ^ 149) := by
    rw [val_eq_signed, ← signed_mul_natCast, Nat.cast_pow, Nat.cast_ofNat]
  rw [ieeeDiv_finite ha hb hm, hx, val_eq_signed b]
  cases hs : signOf b
  case false => simpa only [hs, Bool.bne_false, signed_false] using h
  case true => simpa only [hs, Bool.bne_true, signed_not, neg_neg, signed_true] using h.neg

theorem signOf_ieeeDiv {q : Site} {a b : Word} (ha : isFinite a = true) (hb : isFinite b = true) (h0 : val b ≠ 0) :
    signOf (ieeeDiv q a b) = (signOf a != signOf b) := by
  rw [ieeeDiv_finite ha hb fun h => h0 (val_eq_zero.mpr h), signOf_roundPack]

/-- A finite value over a zero: no quotient is rounded (log 20). -/
theorem ieeeDiv_zero {q : Site} {a b : Word} (ha : isFinite a = true) (hb : isFinite b = true) (h0 : val b = 0) :
    ieeeDiv q a b = if val a = 0 then nanAt q else infOf (signOf a != signOf b) := by
  simp [ieeeDiv, not_isNaN_of_isFinite ha, not_isNaN_of_isFinite hb, not_isInf_of_isFinite ha, not_isInf_of_isFinite hb,
    val_eq_zero.mp h0, val_eq_zero]

theorem isInf_infOf (neg : Bool) : isInf (infOf neg) = true := by cases neg <;> rfl
theorem signOf_infOf (neg : Bool) : signOf (infOf neg) = neg := signOf_packBits _ _

/-! ### Roots -/

/-- `isqrt` is the integer square root where its fuel suffices. -/
theorem isqrt_eq_sqrt {fuel n : Nat} (h : n < 4 ^ fuel) : isqrt fuel n = Nat.sqrt n := by
  induction fuel generalizing n with
  | zero =>
    have : n = 0 := by omega
    subst this
    rfl
  | succ fuel ih =>
    have hquarter : n / 4 < 4 ^ fuel := by rw [Nat.pow_succ] at h; omega
    have hlow := Nat.sqrt_le (n / 4)
    have hhigh := Nat.lt_succ_sqrt (n / 4)
    rw [← ih hquarter] at hlow hhigh
    simp only [isqrt]
    generalize isqrt fuel (n / 4) = r at *
    split
    case isTrue hs => exact Nat.eq_sqrt.mpr ⟨hs, by simp only [Nat.succ_eq_add_one] at hhigh; ring_nf at hhigh ⊢; omega⟩
    case isFalse hs => exact Nat.eq_sqrt.mpr ⟨by ring_nf at hlow ⊢; omega, by omega⟩

/-- The magnitude of a finite value is below 2^277, the pattern of the infinity. -/
theorem mag_lt {a : Word} (h : isFinite a = true) : mag a < 2 ^ 24 * 2 ^ 253 := by
  rw [mag_eq, ← patMag_infinity]
  exact patMag_strictMono ((isFinite_iff a).mp h)

/-- The root of t in half units with its sticky bit, as `ieeeSqrt` rounds it. -/
def stickyRoot (t : Nat) : Nat := 2 * Nat.sqrt t + (if Nat.sqrt t * Nat.sqrt t = t then 0 else 1)

/-- The sticky root compares with an even number as the root itself does. -/
theorem stickyRoot_le_iff (t m : Nat) : stickyRoot t ≤ 2 * m ↔ t ≤ m * m := by
  unfold stickyRoot
  split
  case isTrue h =>
    have hself : Nat.sqrt t ≤ m ↔ t ≤ m * m := by
      conv_rhs => rw [← h]
      exact Nat.mul_self_le_mul_self_iff.symm
    omega
  case isFalse h =>
    have hlt : Nat.sqrt t < m ↔ t < m * m := Nat.sqrt_lt
    have hne : t ≠ m * m := fun e => h (by rw [e, Nat.sqrt_eq])
    omega

theorem le_stickyRoot_iff (t m : Nat) : 2 * m ≤ stickyRoot t ↔ m * m ≤ t := by
  have hle : m ≤ Nat.sqrt t ↔ m * m ≤ t := Nat.le_sqrt
  unfold stickyRoot
  split <;> omega

theorem ieeeSqrt_pos {q : Site} {a : Word} (ha : isFinite a = true) (hpos : 0 < val a) :
    ieeeSqrt q a = roundPack false (stickyRoot (4 * (mag a * 2 ^ 149))) 4 := by
  have hm : mag a ≠ 0 := fun h => hpos.ne' (val_eq_zero.mpr h)
  have hs : signOf a = false := by rw [signOf_of_val hpos.ne']; simpa using hpos.le
  have hfuel : 4 * (mag a * 2 ^ 149) < 4 ^ 216 := by
    have := mag_lt ha
    calc 4 * (mag a * 2 ^ 149) < 4 * (2 ^ 24 * 2 ^ 253 * 2 ^ 149) := by omega
      _ ≤ 4 ^ 216 := by norm_num
  rw [stickyRoot, ← isqrt_eq_sqrt hfuel]
  simp [ieeeSqrt, not_isNaN_of_isFinite ha, not_isInf_of_isFinite ha, hm, hs]

theorem rounds_ieeeSqrt {q : Site} {a : Word} (ha : isFinite a = true) (hpos : 0 < val a) :
    Rounds (stickyRoot (4 * (mag a * 2 ^ 149))) 4 (ieeeSqrt q a) := by
  rw [ieeeSqrt_pos ha hpos]
  exact rounds_roundPack_false (d := 4) _ (by decide)

theorem signOf_ieeeSqrt {q : Site} {a : Word} (ha : isFinite a = true) (hpos : 0 < val a) : signOf (ieeeSqrt q a) = false := by
  rw [ieeeSqrt_pos ha hpos, signOf_roundPack]

/-- The root of the largest value stays far from the overflow threshold. -/
theorem isFinite_ieeeSqrt {q : Site} {a : Word} (ha : isFinite a = true) (hpos : 0 < val a) :
    isFinite (ieeeSqrt q a) = true := by
  obtain ⟨hover, -, -⟩ := rounds_ieeeSqrt (q := q) ha hpos
  rw [← Bool.not_eq_false, hover, Int.natAbs_natCast]
  intro hlarge
  have hsq := (le_stickyRoot_iff (4 * (mag a * 2 ^ 149)) ((2 ^ 25 - 1) * 2 ^ 253)).mp (le_trans (by norm_num) hlarge)
  have := mag_lt ha
  omega

theorem ieeeSqrt_zero {q : Site} {a : Word} (ha : isFinite a = true) (h : val a = 0) : ieeeSqrt q a = a := by
  simp [ieeeSqrt, not_isNaN_of_isFinite ha, ha, val_eq_zero.mp h]

theorem ieeeSqrt_neg {q : Site} {a : Word} (ha : isFinite a = true) (h : val a < 0) : ieeeSqrt q a = nanAt q := by
  have hs : signOf a = true := by rw [signOf_of_val h.ne]; simpa using h
  simp [ieeeSqrt, not_isNaN_of_isFinite ha, hs, mt val_eq_zero.mpr h.ne]

/-- A rounded sticky root of t is nearest the root of t: it compares with another value of the format as the square of their
midpoint does with t/4, and it is even in a tie. -/
theorem Rounds.nearest_root {t : Nat} {r c : Word} (h : Rounds (stickyRoot t) 4 r) (hr : isFinite r = true) (hc : isFinite c = true)
    (hr0 : 0 ≤ val r) (hc0 : 0 ≤ val c) :
    (val r < val c → (t : Int) ≤ (val r + val c) ^ 2) ∧ (val c < val r → (val r + val c) ^ 2 ≤ (t : Int)) ∧
      ((t : Int) = (val r + val c) ^ 2 → val c ≠ val r → r.getLsbD 0 = false) := by
  obtain ⟨-, -, hnear⟩ := h
  obtain ⟨hle, htie⟩ := hnear hr c hc
  obtain ⟨i, hi⟩ := Int.eq_ofNat_of_zero_le hr0
  obtain ⟨j, hj⟩ := Int.eq_ofNat_of_zero_le hc0
  have hupper := stickyRoot_le_iff t (i + j)
  have hlower := le_stickyRoot_iff t (i + j)
  have hsq : (val r + val c) ^ 2 = ((i + j) * (i + j) : Nat) := by rw [hi, hj]; push_cast; ring
  rw [hsq, hi, hj]
  rw [hi, hj] at hle htie
  simp only [abs_le, le_abs] at hle
  refine ⟨fun _ => ?_, fun _ => ?_, fun he hne => htie ?_ hne⟩
  · have := hupper.mp (by omega)
    exact_mod_cast this
  · have := hlower.mp (by omega)
    exact_mod_cast this
  · have he' : t = (i + j) * (i + j) := by exact_mod_cast he
    have := hupper.mpr he'.le
    have := hlower.mpr he'.ge
    rw [abs_eq_abs]
    omega

/-! ### Products, quotients and roots under the numerics record -/

/-- A value whose sign bit is clear is no less than zero. -/
theorem val_nonneg {a : Word} (h : signOf a = false) : 0 ≤ val a := by simp [val, h]

/-- The overflow threshold of a product, in its own units. -/
theorem product_threshold : (2 ^ 25 - 1) * 2 ^ 252 * (2 ^ 149 : Int).natAbs = (2 ^ 25 - 1) * 2 ^ 401 := by
  rw [Int.natAbs_pow, show (2 : Int).natAbs = 2 from rfl, show 401 = 252 + 149 from rfl, Nat.pow_add, Nat.mul_assoc]

/-- The overflow threshold of a quotient, cleared of the common factor 2^149. -/
theorem quotient_threshold (x y : Int) : (2 ^ 25 - 1) * 2 ^ 252 * y.natAbs ≤ (x * 2 ^ 149).natAbs ↔
    (2 ^ 25 - 1) * 2 ^ 103 * y.natAbs ≤ x.natAbs := by
  rw [Int.natAbs_mul, Int.natAbs_pow, show (2 : Int).natAbs = 2 from rfl]
  omega

/-- Settles O55: product and quotient are `roundPack` of the exact value (`rounds_ieeeMul`, `rounds_ieeeDiv`), the root is that of
the sticky root (`Rounds.nearest_root`). -/
theorem productRoundsToNearestEven : Obligations.ProductRoundsToNearestEven := by
  intro cfg q a b hieee ha hb
  rw [fmul_ieee hieee, fdiv_ieee hieee, fsqrt_ieee hieee]
  refine ⟨?product, ⟨fun hb0 => ?quotient, fun hb0 ha0 => ?overZero, fun hb0 ha0 => ?zeroOverZero⟩,
    fun hpos => ⟨isFinite_ieeeSqrt ha hpos, signOf_ieeeSqrt ha hpos, fun c hc hc0 => ?root⟩, ieeeSqrt_zero ha, fun hneg => ?negRoot⟩
  case product =>
    obtain ⟨hover, hnan, hnear⟩ := rounds_ieeeMul (q := q) ha hb
    exact ⟨by rw [hover, product_threshold], hnan, signOf_ieeeMul ha hb, hnear⟩
  case quotient =>
    obtain ⟨hover, hnan, hnear⟩ := rounds_ieeeDiv (q := q) ha hb hb0
    exact ⟨by rw [hover, quotient_threshold], hnan, signOf_ieeeDiv ha hb hb0, hnear⟩
  case overZero =>
    rw [ieeeDiv_zero ha hb hb0, if_neg ha0]
    exact ⟨isInf_infOf _, signOf_infOf _⟩
  case zeroOverZero =>
    rw [ieeeDiv_zero ha hb hb0, if_pos ha0]
    exact isNaN_nanAt q
  case root =>
    have hx : 4 * (val a * 2 ^ 149) = ((4 * (mag a * 2 ^ 149) : Nat) : Int) := by
      rw [← val_natAbs]
      omega
    rw [hx]
    exact (rounds_ieeeSqrt ha hpos).nearest_root (isFinite_ieeeSqrt ha hpos) hc (val_nonneg (signOf_ieeeSqrt ha hpos)) hc0
  case negRoot =>
    rw [ieeeSqrt_neg ha hneg]
    exact isNaN_nanAt q

end Sys2Proof.Machine
end

section
/-! PROOFS. The properties P1 to P5 of the transcendental functions (spec/00_scope.md R20), the floor and the conversion of the
default numerics (R14, R19), and NaN operands. -/

namespace Sys2Proof.Machine

/-! ### P1 to P5 (R20) -/

/-- P1: a free or listed sine outside [-1, 1] is replaced. -/
theorem numSinTurns_range (c : Cfg) {p : Word} (hp : isFinite p = true) :
    fle fM1 (numSinTurns c p) = true ∧ fle (numSinTurns c p) f1 = true := by
  have hzero : fle fM1 f0 = true ∧ fle f0 f1 = true := by decide
  simp only [numSinTurns, hp, Bool.true_and]
  split
  case isTrue => exact hzero
  case isFalse =>
    split
    case isTrue => exact hzero
    case isFalse hlaw => simpa using hlaw

/-- P2. -/
theorem numSinTurns_zero (c : Cfg) : numSinTurns c f0 = f0 := if_pos rfl

/-- P3. -/
theorem numPow_zero (c : Cfg) (a : Word) : numPow c a f0 = f1 := if_pos (by decide)

/-- P4: by P3 where the exponent is a zero, else by the second branch. -/
theorem one_numPow (c : Cfg) {b : Word} (hb : isFinite b = true) : numPow c f1 b = f1 := by
  have hone : (feq f1 f1 && isFinite b) = true := by rw [hb]; decide
  rw [numPow, if_pos hone, ite_self]

/-- P5: a free or listed tangent that is not positive and finite is replaced inside the interval. -/
theorem numTan_pos (c : Cfg) {a : Word} (hlow : flt f0 a = true) (hhigh : flt a 0x3FC90FDA#32 = true) :
    flt f0 (numTan c a) = true ∧ isFinite (numTan c a) = true := by
  have hone : flt f0 f1 = true ∧ isFinite f1 = true := by decide
  simp only [numTan, hlow, hhigh, Bool.true_and]
  split
  case isTrue => exact hone
  case isFalse hlaw => simpa using hlaw

/-! ### Integral values -/

/-- A natural number below 2^24 packs to itself, with either sign. -/
theorem roundPack_integral (neg : Bool) {k : Nat} (hk : k < 2 ^ 24) :
    isFinite (roundPack neg (k * 2 ^ 149) 1) = true ∧ val (roundPack neg (k * 2 ^ 149) 1) = signed neg (k * 2 ^ 149) := by
  obtain ⟨m, hm, hv⟩ := exists_pattern hk
  have hr : roundPack neg (k * 2 ^ 149) 1 = packBits neg m := by rw [roundPack, roundQ_exact Nat.one_pos (by rw [hv, Nat.mul_one])]
  rw [hr, val_eq_signed, signOf_packBits, mag_packBits, Nat.min_eq_left hm.le, hv]
  exact ⟨(isFinite_packBits _ _).mpr hm, rfl⟩

theorem dvd_signed (neg : Bool) (k : Nat) : (2 ^ 149 : Int) ∣ signed neg (k * 2 ^ 149) := by
  rw [← signed_mul_natCast, Nat.cast_pow, Nat.cast_ofNat]
  exact Dvd.intro_left _ rfl

/-- A finite value is integral, or its magnitude is below 2^23. -/
theorem mag_integral_or_lt (a : Word) : 2 ^ 149 ∣ mag a ∨ mag a < 2 ^ 23 * 2 ^ 149 := by
  have hfrac : fracOf a < 2 ^ 23 := by rw [fracOf_eq]; exact Nat.mod_lt _ (by decide)
  unfold mag
  split
  case isTrue => right; omega
  case isFalse =>
    rcases Nat.lt_or_ge (expOf a - 1) 149 with h | h
    · right
      calc (2 ^ 23 + fracOf a) * 2 ^ (expOf a - 1) < 2 ^ 24 * 2 ^ (expOf a - 1) :=
            Nat.mul_lt_mul_of_pos_right (by omega) (by positivity)
        _ ≤ 2 ^ 24 * 2 ^ 148 := Nat.mul_le_mul_left _ (Nat.pow_le_pow_right (by decide) (by omega))
        _ = 2 ^ 23 * 2 ^ 149 := by norm_num
    · exact Or.inl (Dvd.dvd.mul_left (Nat.pow_dvd_pow 2 h) _)

/-- The magnitude of a finite value rounded down or up to an integer k is a value of the format. -/
theorem roundPack_floor_ceil {a : Word} (ha : isFinite a = true) {k : Nat}
    (hlow : k * 2 ^ 149 < mag a + 2 ^ 149) (hhigh : mag a < k * 2 ^ 149 + 2 ^ 149) :
    isFinite (roundPack (signOf a) (k * 2 ^ 149) 1) = true ∧
      val (roundPack (signOf a) (k * 2 ^ 149) 1) = signed (signOf a) (k * 2 ^ 149) := by
  rcases mag_integral_or_lt a with ⟨j, hj⟩ | hlt
  · have hk : k * 2 ^ 149 = mag a := by omega
    rw [hk, roundPack_self ha Nat.one_pos (Nat.mul_one _).symm]
    exact ⟨ha, rfl⟩
  · exact roundPack_integral _ (by omega)

/-- R14, R19: the floor of a finite value is the largest integer not above it. -/
theorem ieeeFloor_finite {q : Site} {a : Word} (ha : isFinite a = true) :
    isFinite (ieeeFloor q a) = true ∧ (2 ^ 149 : Int) ∣ val (ieeeFloor q a) ∧ val (ieeeFloor q a) ≤ val a ∧
      val a < val (ieeeFloor q a) + 2 ^ 149 := by
  rw [ieeeFloor, not_isNaN_of_isFinite ha, not_isInf_of_isFinite ha, Bool.false_or, if_neg Bool.false_ne_true]
  by_cases hm : mag a = 0
  · have h0 : val a = 0 := val_eq_zero.mpr hm
    rw [if_pos (by simpa using hm), h0]
    exact ⟨ha, by norm_num⟩
  · rw [if_neg (by simpa using hm)]
    cases hs : signOf a with
    | false =>
      obtain ⟨hfin, hval⟩ := roundPack_floor_ceil ha (k := mag a / 2 ^ 149) (by omega) (by omega)
      rw [hs] at hfin hval
      rw [if_neg Bool.false_ne_true, hval, val_eq_signed a, hs]
      refine ⟨hfin, dvd_signed _ _, ?_⟩
      rw [signed_false, signed_false]
      omega
    | true =>
      obtain ⟨hfin, hval⟩ := roundPack_floor_ceil ha (k := (mag a + (2 ^ 149 - 1)) / 2 ^ 149) (by omega) (by omega)
      rw [hs] at hfin hval
      rw [if_pos rfl, hval, val_eq_signed a, hs]
      refine ⟨hfin, dvd_signed _ _, ?_⟩
      rw [signed_true, signed_true]
      omega

/-- An infinity is its own floor (log 13). -/
theorem ieeeFloor_inf {q : Site} {a : Word} (ha : isInf a = true) : ieeeFloor q a = a := by
  have hn : isNaN a = false := by
    rw [isInf_iff] at ha
    rw [← Bool.not_eq_true, isNaN_iff]
    omega
  simp [ieeeFloor, hn, ha]

/-! ### NaN operands of the functions of one operand -/

theorem isNaN_fsqrt {c : Cfg} {q : Site} {a : Word} (h : isNaN a = true) : isNaN (fsqrt c q a) = true := by
  rw [fsqrt, numUnary, if_pos h]
  exact isNaN_nanAt q

theorem isNaN_ffloor {c : Cfg} {q : Site} {a : Word} (h : isNaN a = true) : isNaN (ffloor c q a) = true := by
  rw [ffloor, numUnary, if_pos h]
  exact isNaN_nanAt q

/-- Settles O56, each clause by the lemma of its function. -/
theorem numericProperties : Obligations.NumericProperties := by
  intro c q a b n
  refine ⟨numSinTurns_range c, numSinTurns_zero c, numPow_zero c a, one_numPow c, numTan_pos c, fun hieee ha => ?floor,
    fun hieee ha => ?inf, fun hieee hn => ?u2f, fun h => ⟨isNaN_fadd h, isNaN_fsub h, isNaN_fmul h, isNaN_fdiv h⟩,
    fun h => ⟨isNaN_fsqrt h, isNaN_ffloor h⟩⟩
  case floor =>
    rw [ffloor_ieee hieee]
    exact ieeeFloor_finite ha
  case inf => rw [ffloor_ieee hieee, ieeeFloor_inf ha]
  case u2f =>
    rw [u2f_ieee hieee]
    exact ⟨(ieeeU2f_exact hn).1, by rw [val_ieeeU2f hn, Nat.cast_mul, Nat.cast_pow, Nat.cast_ofNat]⟩

end Sys2Proof.Machine
end

section
/-! PROOFS. What an operation can do, said once: a rejection, or the effect of the accepted command or phase (`exec_cases`).
spec/10_state.md R32; spec/60_exceptions.md R332, R339. -/

namespace Sys2Proof.Machine

/-- Every check of the list holds. -/
def Passes (checks : List (Bool × Code)) : Prop := firstFailure checks = none

/-- One phase of INIT (R200) or UPDORD (R205), phase 1 with the checks it has passed. -/
inductive Phase : Instr → State → State → Prop
  | initBegin (order fs lowMs highMs s) (h : Passes (initChecks s order fs lowMs highMs)) :
      Phase (.init order fs lowMs highMs) s (beginReconfig s (.init order fs lowMs highMs))
  | initBody (order fs lowMs highMs s) (hr : s.running = some (.init order fs lowMs highMs)) (hp : s.rphase = 1#3) :
      Phase (.init order fs lowMs highMs) s (initBody s order fs lowMs highMs)
  | initEnd (order fs lowMs highMs s) (hr : s.running = some (.init order fs lowMs highMs)) (hp : s.rphase ≠ 1#3) :
      Phase (.init order fs lowMs highMs) s (initEnd s)
  | updordBegin (o sel s) (h : Passes [needsInit s, domain (supportedOrder s o && selectorOk sel)]) :
      Phase (.updord o sel) s (beginReconfig s (.updord o sel))
  | updordClear (o sel s) (hr : s.running = some (.updord o sel)) :
      Phase (.updord o sel) s (forAll { s with rphase := 2#3 } dlReset)
  | updordDraw (o sel s) (hr : s.running = some (.updord o sel)) :
      Phase (.updord o sel) s (drawGains { s with rphase := 3#3, n := o.toNat } [0, s.epoch])
  | updordSearch (o sel s) (hr : s.running = some (.updord o sel)) :
      Phase (.updord o sel) s (searchStored { s with rphase := 4#3 } [0, s.epoch])
  | updordSeed (o sel s) (hr : s.running = some (.updord o sel)) :
      Phase (.updord o sel) s (seedActive { s with rphase := 5#3 } [0, s.epoch])
  | updordTopology (o sel s) (hr : s.running = some (.updord o sel)) :
      Phase (.updord o sel) s { s with rphase := 6#3, topo := topologyOf sel }
  | updordEnd (o sel s) (hr : s.running = some (.updord o sel)) :
      Phase (.updord o sel) s (endReconfig { s with rphase := 7#3 } 0x02#8)

/-- The effect of an operation that is not rejected, with the checks it has passed. -/
inductive Effect : Instr → State → State → Prop
  | nop (s) : Effect .nop s (complete s 0x00#8 [])
  | clrerr (s) : Effect .clrerr s (complete { s with err := 0#5 } 0x27#8 [])
  | getstat (s) : Effect .getstat s (respond s 0x26#8 .ok [statusWord s])
  | getb (i s) (h : Passes [needsInit s, indexBelow s i]) : Effect (.getb i) s (complete s 0x20#8 [(lineAt s i.toNat).b])
  | getbs (s) (h : Passes [needsInit s]) : Effect .getbs s (complete s 0x21#8 (snapshot s (·.b)))
  | getc (i s) (h : Passes [needsInit s, indexBelow s i]) : Effect (.getc i) s (complete s 0x22#8 [(lineAt s i.toNat).c])
  | getcs (s) (h : Passes [needsInit s]) : Effect .getcs s (complete s 0x23#8 (snapshot s (·.c)))
  | getdlys (s) (h : Passes [needsInit s]) :
      Effect .getdlys s (complete s 0x24#8 (snapshot s fun l => BitVec.ofNat 32 l.len))
  | getmat (s) (h : Passes [needsInit s]) : Effect .getmat s (complete s 0x25#8 (flatMatrix s))
  | setb (i v s) (h : Passes [needsInit s, domain (isFinite v), indexBelow s i]) :
      Effect (.setb i v) s (complete (setLine s i.toNat fun l => setB l v) 0x10#8 [])
  | setbs (v s) (h : Passes [needsInit s, domain (decide (v.length = s.n)), domain (v.all isFinite)]) :
      Effect (.setbs v) s (complete { s with lines := setEach setB v s.lines } 0x11#8 [])
  | setc (i v s) (h : Passes [needsInit s, domain (isFinite v), indexBelow s i]) :
      Effect (.setc i v) s (complete (setLine s i.toNat fun l => setC l v) 0x12#8 [])
  | setcs (v s) (h : Passes [needsInit s, domain (decide (v.length = s.n)), domain (v.all isFinite)]) :
      Effect (.setcs v) s (complete { s with lines := setEach setC v s.lines } 0x13#8 [])
  | setmix (w s) (h : Passes [needsInit s, domain (isFinite w && fle f0 w && fle w f1)]) :
      Effect (.setmix w) s (complete { s with wet := fadd s.cfg [0, s.epoch] w f0 } 0x0A#8 [])
  | settopo (sel s) (h : Passes [needsInit s, domain (selectorOk sel)]) :
      Effect (.settopo sel) s (complete { s with topo := topologyOf sel } 0x0B#8 [])
  | setcell (r c v s) (h : Passes [needsInit s, domain (isFinite v), indexBelow s r, indexBelow s c]) :
      Effect (.setcell r c v) s (complete (writeCell s r.toNat c.toNat v) 0x14#8 [])
  | setmat (m s) (h : Passes [needsInit s, domain (decide (m.length = s.n * s.n)), domain (m.all isFinite)]) :
      Effect (.setmat m) s (complete (writeCells s.n 0 m s) 0x15#8 [])
  | setls (t f s) (h : Passes (shelfChecks s t f)) :
      Effect (.setls t f) s
        (complete (recomputeActive { s with lsT := t, lsF := f, lsValid := true } [1, s.epoch]) 0x06#8 [])
  | seths (t f s) (h : Passes (shelfChecks s t f)) :
      Effect (.seths t f) s
        (complete (recomputeActive { s with hsT := t, hsF := f, hsValid := true } [1, s.epoch]) 0x07#8 [])
  | updmod (depth rate s) (h : Passes [needsInit s, domain (isFinite depth && isFinite rate)]) :
      Effect (.updmod depth rate) s
        (complete (forActive { s with modDepth := depth, modRate := rate } fun i l =>
          modLine { s with modDepth := depth, modRate := rate } [i, 0, s.epoch] depth rate l) 0x08#8 [])
  | updmodl (i depth rate s) (h : Passes [needsInit s, domain (isFinite depth && isFinite rate), indexBelow s i]) :
      Effect (.updmodl i depth rate) s (complete (setLine s i.toNat (modLine s [0, s.epoch] depth rate)) 0x09#8 [])
  | setdly (i ms s) (h : Passes [needsInit s, domain (lengthOk s.cfg [0, s.epoch] ms s.fs), indexBelow s i]) :
      Effect (.setdly i ms) s
        (complete (setLine s i.toNat fun l =>
          retarget s [1, s.epoch] (setLen l ((msToSamples s.cfg [0, s.epoch] ms s.fs).getD 0))) 0x04#8 [])
  | setdlys (ms s)
      (h : Passes [needsInit s, domain (decide (ms.length = s.n)),
        domain (ms.all fun m => lengthOk s.cfg [0, s.epoch] m s.fs)]) :
      Effect (.setdlys ms) s
        (complete (retargetActive
          { s with lines := setEach setLen (ms.map fun m => (msToSamples s.cfg [0, s.epoch] m s.fs).getD 0) s.lines }
          [1, s.epoch]) 0x05#8 [])
  | upddly (ms s)
      (h : Passes [needsInit s, domain (isFinite ms && positive ms),
        domain (windowInRange (delayWindow s ms).1 (delayWindow s ms).2)]) :
      Effect (.upddly ms) s (updateDelay ms s)
  | phase {i s t} (h : Phase i s t) : Effect i s t
  | procSilent (ch x s) (h : s.reconf = true) : Effect (.proc ch x) s { s with audY := some f0 }
  | proc (ch x s) (h : s.reconf = false) : Effect (.proc ch x) s (process x s)

/-- An effect is a phase of INIT or UPDORD, or of another operation. -/
theorem phase_or_quiet {i : Instr} {s t : State} (h : Effect i s t) : Phase i s t ∨ opcodeOf i ∉ [0x01#8, 0x02#8] := by
  cases h with
  | phase h => exact .inl h
  | _ => exact .inr (by simp [opcodeOf])

/-- What an operation can answer: a rejection with some code (of a command other than GETSTAT), or its effect. -/
inductive Answer (i : Instr) (s : State) : State → Prop
  | rejected (c : Code) (h : opcodeOf i ∉ [0x26#8, 0xFF#8]) : Answer i s (raiseCode s (opcodeOf i) c)
  | accepted {t : State} (h : Effect i s t) : Answer i s t

/-- A command of the control port answers with a rejection, or with its effect once its checks have passed. -/
theorem answer_command {i : Instr} {s e t : State} {checks : List (Bool × Code)}
    (heff : Passes checks → Effect i s e) (h : command s (opcodeOf i) checks e = .next t)
    (hopc : opcodeOf i ∉ [0x26#8, 0xFF#8] := by simp [opcodeOf]) : Answer i s t := by
  rcases command_next h with ⟨c, -, rfl⟩ | ⟨hpass, rfl⟩
  · exact .rejected c hopc
  · exact .accepted (heff hpass)

/-- INIT (R200): the phase under way, or the validation and phase 1. -/
theorem answer_init {order : Byte} {fs lowMs highMs : Word} {s t : State}
    (h : execInit order fs lowMs highMs s = .next t) : Answer (.init order fs lowMs highMs) s t := by
  unfold execInit at h
  split at h
  case isTrue hr =>
    split at h <;> cases h
    case isTrue hp => exact .accepted (.phase (.initBody _ _ _ _ _ hr hp))
    case isFalse hp => exact .accepted (.phase (.initEnd _ _ _ _ _ hr hp))
  case isFalse => exact answer_command (fun hpass => .phase (.initBegin _ _ _ _ _ hpass)) h

/-- The phase of UPDORD that RPHASE names (R205). -/
theorem phase_updordPhase {o sel : Byte} {s : State} (hr : s.running = some (.updord o sel)) (k : BitVec 3) :
    Phase (.updord o sel) s (updordPhase o sel s k) := by
  unfold updordPhase
  split
  · exact .updordClear _ _ _ hr
  · exact .updordDraw _ _ _ hr
  · exact .updordSearch _ _ _ hr
  · exact .updordSeed _ _ _ hr
  · exact .updordTopology _ _ _ hr
  · exact .updordEnd _ _ _ hr

/-- UPDORD (R205): the phase under way, or the validation and phase 1. -/
theorem answer_updord {o sel : Byte} {s t : State} (h : execUpdord o sel s = .next t) : Answer (.updord o sel) s t := by
  unfold execUpdord at h
  split at h
  case isTrue hr =>
    cases h
    exact .accepted (.phase (phase_updordPhase hr _))
  case isFalse => exact answer_command (fun hpass => .phase (.updordBegin _ _ _ hpass)) h

/-- PROC (R250, R251): silent or not. -/
theorem answer_proc {ch : Byte} {x : Word} {s t : State} (h : execProc ch x s = .next t) : Answer (.proc ch x) s t := by
  unfold execProc at h
  split at h <;> cases h
  case isTrue hr => exact .accepted (.procSilent _ _ _ hr)
  case isFalse hr => exact .accepted (.proc _ _ _ (Bool.eq_false_iff.mpr hr))

/-- What every operation can do. -/
theorem exec_cases {i : Instr} {s t : State} (h : exec i s = .next t) : Answer i s t := by
  cases i with
  | nop => cases h; exact .accepted (.nop s)
  | clrerr => cases h; exact .accepted (.clrerr s)
  | getstat => cases h; exact .accepted (.getstat s)
  | init => exact answer_init h
  | updord => exact answer_updord h
  | proc => exact answer_proc h
  | upddly ms => exact answer_command (.upddly ms s) h
  | setdly j ms => exact answer_command (.setdly j ms s) h
  | setdlys ms => exact answer_command (.setdlys ms s) h
  | setls d f => exact answer_command (.setls d f s) h
  | seths d f => exact answer_command (.seths d f s) h
  | updmod d r => exact answer_command (.updmod d r s) h
  | updmodl j d r => exact answer_command (.updmodl j d r s) h
  | setmix w => exact answer_command (.setmix w s) h
  | settopo sel => exact answer_command (.settopo sel s) h
  | setb j v => exact answer_command (.setb j v s) h
  | setbs v => exact answer_command (.setbs v s) h
  | setc j v => exact answer_command (.setc j v s) h
  | setcs v => exact answer_command (.setcs v s) h
  | setcell r c v => exact answer_command (.setcell r c v s) h
  | setmat m => exact answer_command (.setmat m s) h
  | getb j => exact answer_command (.getb j s) h
  | getbs => exact answer_command (.getbs s) h
  | getc j => exact answer_command (.getc j s) h
  | getcs => exact answer_command (.getcs s) h
  | getdlys => exact answer_command (.getdlys s) h
  | getmat => exact answer_command (.getmat s) h

end Sys2Proof.Machine
end

section
/-! PROOFS. The global registers: each is written by the operations of its row in the table spec/10_state.md R32 and by no other. -/

namespace Sys2Proof.Machine

/-- R32, the column "written by", for an operation with opcode `opc` that takes s to t; the command under way, which the table does
not name (log 5), is written by INIT and UPDORD. -/
structure GlobalWrites (opc : Byte) (s t : State) : Prop where
  fs : t.fs ≠ s.fs → opc = 0x01#8
  n : t.n ≠ s.n → opc ∈ [0x01#8, 0x02#8]
  bounds : t.lowMs ≠ s.lowMs ∨ t.highMs ≠ s.highMs → opc ∈ [0x01#8, 0x03#8]
  wet : t.wet ≠ s.wet → opc = 0x0A#8
  modulation : t.modDepth ≠ s.modDepth ∨ t.modRate ≠ s.modRate → opc = 0x08#8
  lowShelf : t.lsT ≠ s.lsT ∨ t.lsF ≠ s.lsF ∨ t.lsValid ≠ s.lsValid → opc ∈ [0x01#8, 0x06#8]
  highShelf : t.hsT ≠ s.hsT ∨ t.hsF ≠ s.hsF ∨ t.hsValid ≠ s.hsValid → opc ∈ [0x01#8, 0x07#8]
  rampLen : t.rampLen ≠ s.rampLen → opc = 0x01#8
  topo : t.topo ≠ s.topo → opc ∈ [0x01#8, 0x02#8, 0x0B#8]
  sequencing : t.reconf ≠ s.reconf ∨ t.rphase ≠ s.rphase → opc ∈ [0x01#8, 0x02#8]
  inited : t.inited ≠ s.inited → opc = 0x01#8 ∧ t.inited = true
  errors : t.err ≠ s.err ∨ t.lastErr ≠ s.lastErr → opc ∉ [0x26#8, 0xFF#8]
  running : t.running ≠ s.running → opc ∈ [0x01#8, 0x02#8]
  cfg : t.cfg = s.cfg
  cmdq : t.cmdq = s.cmdq
  inbox : t.inbox = s.inbox
  epoch : t.epoch = s.epoch

/-- R21: a rejection writes the error registers and the response. -/
theorem globalWrites_raiseCode {opc : Byte} (s : State) (c : Code) (h : opc ∉ [0x26#8, 0xFF#8]) :
    GlobalWrites opc s (raiseCode s opc c) := by
  constructor <;> simp [h]

/-- R296: writing cells changes the matrix store only. -/
theorem writeCells_writes (n k : Nat) (vs : List Word) (s : State) : ∃ m, writeCells n k vs s = { s with cm := m } := by
  induction vs generalizing k s with
  | nil => exact ⟨s.cm, rfl⟩
  | cons v vs ih =>
    obtain ⟨m, h⟩ := ih (k + 1) (writeCell s (k / n) (k % n) v)
    exact ⟨m, h⟩

/-- R200, R205: a search over the stored bounds changes the table and the count of primes found. -/
theorem searchStored_writes (s : State) (q : Site) :
    ∃ k ls, searchStored s q = { s with found := k, lines := ls } := ⟨_, _, rfl⟩

/-- R250: a PROC that is not silent changes lines and answers on the audio port. -/
theorem process_writes (x : Word) (s : State) : ∃ ls y, process x s = { s with lines := ls, audY := y } := ⟨_, _, rfl⟩

/-- R220: the registers UPDDLY writes beside the error registers and the response. -/
theorem updateDelay_writes (ms : Word) (s : State) : ∃ ls short,
    updateDelay ms s = completeSearch
      { s with highMs := ms, lowMs := lowBound s.cfg [0, s.epoch] ms, lines := ls } 0x03#8 short := ⟨_, _, rfl⟩

/-- A phase of INIT or UPDORD obeys the register table. -/
theorem phase_globalWrites {i : Instr} {s t : State} (h : Phase i s t) : GlobalWrites (opcodeOf i) s t := by
  cases h with
  | initBegin | updordBegin => constructor <;> simp [opcodeOf]
  | initBody => constructor <;> simp [opcodeOf, initBody, searchStored]
  | initEnd => constructor <;> simp [opcodeOf, initEnd, endReconfig]
  | updordClear | updordDraw | updordSeed | updordTopology => constructor <;> simp [opcodeOf]
  | updordSearch =>
    obtain ⟨k, ls, h⟩ := searchStored_writes { s with rphase := 4#3 } [0, s.epoch]
    rw [h]
    constructor <;> simp [opcodeOf]
  | updordEnd => constructor <;> simp [opcodeOf, endReconfig]

/-- The effect of an operation obeys the register table. -/
theorem effect_globalWrites {i : Instr} {s t : State} (h : Effect i s t) : GlobalWrites (opcodeOf i) s t := by
  cases h with
  | nop | clrerr | getstat | getb | getbs | getc | getcs | getdlys | getmat | setb | setbs | setc | setcs | setmix | settopo
  | setcell | setls | seths | updmod | updmodl | setdly | setdlys | procSilent =>
    constructor <;> simp [opcodeOf]
  | setmat m =>
    obtain ⟨cm, h⟩ := writeCells_writes s.n 0 m s
    rw [h]
    constructor <;> simp [opcodeOf]
  | upddly ms =>
    obtain ⟨ls, short, h⟩ := updateDelay_writes ms s
    rw [h]
    constructor <;> simp [opcodeOf]
  | phase h => exact phase_globalWrites h
  | proc _ x =>
    obtain ⟨ls, y, h⟩ := process_writes x s
    rw [h]
    constructor <;> simp

/-- Every operation obeys the register table. -/
theorem exec_globalWrites {i : Instr} {s t : State} (h : exec i s = .next t) : GlobalWrites (opcodeOf i) s t := by
  cases exec_cases h with
  | rejected c hopc => exact globalWrites_raiseCode s c hopc
  | accepted he => exact effect_globalWrites he

/-- Settles O16, by cases on what the operation can do (`exec_cases`). -/
theorem globalRegisterWriters : Obligations.GlobalRegisterWriters := by
  intro i s t h
  have w := exec_globalWrites h
  exact ⟨w.fs, w.n, w.bounds, w.wet, w.modulation, w.lowShelf, w.highShelf, w.rampLen, w.topo, w.sequencing, w.inited, w.errors,
    w.cfg, w.cmdq, w.inbox, w.epoch⟩

end Sys2Proof.Machine
end

section
/-! PROOFS. The host's queue events (spec/10_state.md R65, spec/60_exceptions.md R350) and what a reset leaves (spec/10_state.md R70,
spec/60_exceptions.md R334). -/

namespace Sys2Proof.Machine

theorem handling_eq_takeEvent (s : State) (later : List HostEvent) : handling s later = takeEvent s later := rfl

/-- A step handles the event at the head of the inbox. -/
theorem step_event {s : State} {e : HostEvent} {later : List HostEvent} (h : s.inbox = e :: later) :
    step s = handleEvent e (takeEvent s later) := by simp only [step, hostStep, h]

/-- Settles O10, one clause for each event. -/
theorem hostQueueEvents : Obligations.HostQueueEvents := by
  refine ⟨fun s hidle => ?idle, fun s later w hword => ?word, fun s later taken left hdrain hq => ?drain⟩
  case idle => simp only [step, hostStep, hidle]
  case word => rw [step_event hword]; rfl
  case drain =>
    rw [step_event hdrain, handling_eq_takeEvent, handleEvent, takeEvent_rspq, hq, List.drop_left]

/-- R70: a reset leaves the same registers whatever the configuration, the events to come, the draws and the epoch are. -/
theorem atReset_powerOn (cfg : Cfg) (inbox : List HostEvent) (draws : List Word) (epoch : Nat) :
    AtReset (State.powerOn cfg inbox draws epoch) := by
  simp only [AtReset, State.powerOn, true_and, List.length_map, List.length_range]
  refine ⟨⟨_, rfl⟩, fun l hl => ?_⟩
  obtain ⟨i, -, rfl⟩ := List.mem_map.mp hl
  simp [Line.reset, Filter.passThrough]

/-- A rejection as the statements spell it out. -/
theorem raiseCode_notInit (s : State) (opc : Byte) : raiseCode s opc .notInit = rejectedAs s opc 2 := rfl

/-- R334: every command but the four accepted in any state begins with the check of INITED; UPDORD when it is not under way. -/
theorem exec_needsInit {i : Instr} {s : State} (h : acceptedBeforeInit i = false) (hrun : s.running ≠ some i) :
    ∃ checks e, exec i s = command s (opcodeOf i) (needsInit s :: checks) e := by
  cases i with
  | init | nop | getstat | clrerr | proc => simp [acceptedBeforeInit] at h
  | updord o sel => exact ⟨_, _, if_neg hrun⟩
  | upddly _ | setdly _ _ | setdlys _ | setls _ _ | seths _ _ | updmod _ _ | updmodl _ _ _ | setmix _ | settopo _ | setb _ _
  | setbs _ | setc _ _ | setcs _ | setcell _ _ _ | setmat _ | getb _ | getbs | getc _ | getcs | getdlys | getmat => exact ⟨_, _, rfl⟩

/-- R334: before INIT has completed such a command is rejected with `NotInit`. -/
theorem exec_notInit {i : Instr} {s : State} (h : acceptedBeforeInit i = false) (hrun : s.running ≠ some i)
    (hinit : s.inited = false) : exec i s = .next (rejectedAs s (opcodeOf i) 2) := by
  obtain ⟨checks, e, heq⟩ := exec_needsInit h hrun
  rw [heq, ← raiseCode_notInit]
  exact command_rejected (by simp [needsInit, hinit])

/-- R251: a silent PROC answers +0.0 and writes nothing else. -/
theorem exec_proc_silent {s : State} (h : s.reconf = true) (ch : Byte) (x : Word) :
    exec (.proc ch x) s = .next { s with audY := some f0 } := if_pos h

/-- Settles O11: the reset state (`atReset_powerOn`), the reset event, and what an engine in that state answers. -/
theorem resetState : Obligations.ResetState := by
  refine ⟨atReset_powerOn _ _ _ _, fun s later hreset => ?event, fun s hs => ?_⟩
  case event =>
    exact ⟨hardReset (takeEvent s later), by rw [step_event hreset]; rfl, atReset_powerOn _ _ _ _, rfl, rfl⟩
  obtain ⟨-, -, -, -, -, -, -, -, -, -, -, -, -, -, -, hreconf, hinited, -, -, -, -, -, hrunning, -⟩ := hs
  exact ⟨exec_proc_silent hreconf, fun i hi => exec_notInit hi (by simp [hrunning]) hinited⟩

end Sys2Proof.Machine
end

section
/-! PROOFS. What the invariant says, as propositions (spec/10_state.md R30 to R38, spec/44_init_reconfig.md R200, R205), and the search
windows: the free value of a site never decides a sample count (R202), and a valid window bounds the table entries (R241). -/

namespace Sys2Proof.Machine

/-! ### The parts of the invariant -/

theorem lineOk_iff {c : Cfg} {l : Line} :
    lineOk c l = true ↔ l.w < c.buflen ∧ memWf c.buflen l.buf = true ∧ l.len < 2 ^ 24 := by
  simp only [lineOk, Bool.and_eq_true, decide_eq_true_eq, and_assoc]

theorem structureOk_iff {s : State} : structureOk s = true ↔
    s.lines.length = s.cfg.nmax ∧ s.n ≤ s.cfg.nmax ∧ (∀ l ∈ s.lines, lineOk s.cfg l = true) ∧
      memWf (s.cfg.nmax * s.cfg.nmax) s.cm = true := by
  simp only [structureOk, Bool.and_eq_true, decide_eq_true_eq, List.all_eq_true, and_assoc]

/-- What an initialised engine holds (R200, R361). -/
structure Contents (s : State) : Prop where
  order : s.n ∈ s.cfg.orders
  window : windowOk s.cfg s.lowMs s.highMs s.fs = true
  matrix : isCleared s.cm = true
  buffers : ∀ l ∈ s.lines, isCleared l.buf = true

theorem initialisedOk_iff {s : State} : initialisedOk s = true ↔ (initialised s = true → Contents s) := by
  have hc : Contents s ↔ (s.cfg.orders.contains s.n && windowOk s.cfg s.lowMs s.highMs s.fs && isCleared s.cm
      && s.lines.all fun l => isCleared l.buf) = true := by
    simp only [Bool.and_eq_true, List.contains_iff_mem, List.all_eq_true, and_assoc]
    exact ⟨fun ⟨a, b, c, d⟩ => ⟨a, b, c, d⟩, fun ⟨a, b, c, d⟩ => ⟨a, b, c, d⟩⟩
  rw [hc, initialisedOk]
  cases initialised s <;> simp

theorem initialised_of_inited {s : State} (h : s.inited = true) : initialised s = true := by simp [initialised, h]

theorem Inv.contents_of_inited {s : State} (h : Inv s) (hi : s.inited = true) : Contents s :=
  initialisedOk_iff.mp h.contents (initialised_of_inited hi)

/-- R200: the operands of an INIT under way have a supported order and a valid window. -/
theorem Inv.init_running {s : State} (h : Inv s) {order : Byte} {fs lowMs highMs : Word}
    (hr : s.running = some (.init order fs lowMs highMs)) :
    s.reconf = true ∧ (s.rphase = 1#3 ∨ s.rphase = 2#3) ∧ order.toNat ∈ s.cfg.orders ∧ windowOk s.cfg lowMs highMs fs = true := by
  simpa [sequencerOk, hr, and_assoc] using h.sequencer

theorem Inv.init_order {s : State} (h : Inv s) {order : Byte} {fs lowMs highMs : Word}
    (hr : s.running = some (.init order fs lowMs highMs)) : order.toNat ∈ s.cfg.orders := by
  obtain ⟨-, -, horder, -⟩ := h.init_running hr
  exact horder

theorem Inv.init_window {s : State} (h : Inv s) {order : Byte} {fs lowMs highMs : Word}
    (hr : s.running = some (.init order fs lowMs highMs)) : windowOk s.cfg lowMs highMs fs = true := by
  obtain ⟨-, -, -, hwin⟩ := h.init_running hr
  exact hwin

/-- R205: an UPDORD under way has a supported order, in an initialised engine. -/
theorem Inv.updord_running {s : State} (h : Inv s) {o sel : Byte} (hr : s.running = some (.updord o sel)) :
    s.reconf = true ∧ s.inited = true ∧ o.toNat ∈ s.cfg.orders := by
  have hs := h.sequencer
  simp only [sequencerOk, hr, Bool.and_eq_true, List.contains_iff_mem] at hs
  obtain ⟨⟨⟨hreconf, hinited⟩, -⟩, horder⟩ := hs
  exact ⟨hreconf, hinited, horder⟩

theorem Inv.updord_inited {s : State} (h : Inv s) {o sel : Byte} (hr : s.running = some (.updord o sel)) : s.inited = true := by
  obtain ⟨-, hinited, -⟩ := h.updord_running hr
  exact hinited

theorem Inv.updord_order {s : State} (h : Inv s) {o sel : Byte} (hr : s.running = some (.updord o sel)) :
    o.toNat ∈ s.cfg.orders := by
  obtain ⟨-, -, horder⟩ := h.updord_running hr
  exact horder

/-- R8: a supported order is at most NMAX. -/
theorem order_le_nmax {c : Cfg} (h : cfgOk c = true) {m : Nat} (hm : m ∈ c.orders) : m ≤ c.nmax := by
  simp only [cfgOk, Bool.and_eq_true, List.all_eq_true, decide_eq_true_eq] at h
  obtain ⟨⟨⟨⟨⟨⟨⟨-, horders⟩, -⟩, -⟩, -⟩, -⟩, -⟩, -⟩ := h
  exact (horders m hm).2

/-- R9: CAP is below 2^24. -/
theorem cap_lt {c : Cfg} (h : cfgOk c = true) : c.cap < 2 ^ 24 := by
  simp only [cfgOk, Bool.and_eq_true, decide_eq_true_eq] at h
  obtain ⟨⟨⟨⟨⟨-, hcap⟩, -⟩, -⟩, -⟩, -⟩ := h
  exact hcap

/-! ### Sites (R19): only the payload of a NaN depends on them -/

theorem numBinary_site {table : List ((Word × Word) × Word)} {ieee : Site → Word → Word → Word} {a b : Word}
    (hieee : ∀ q q', isNaN (ieee q a b) = false → ieee q' a b = ieee q a b) {q : Site}
    (h : isNaN (numBinary table ieee q a b) = false) (q' : Site) : numBinary table ieee q' a b = numBinary table ieee q a b := by
  unfold numBinary at *
  split at h
  case isTrue => simp [isNaN_nanAt] at h
  case isFalse hn =>
    rw [if_neg hn, if_neg hn]
    unfold numEntry at *
    split at h
    · rfl
    · exact hieee q q' h

/-- The product's site is read only where a NaN is produced. -/
theorem ieeeMul_site {a b : Word} (q q' : Site) (h : isNaN (ieeeMul q a b) = false) : ieeeMul q' a b = ieeeMul q a b := by
  unfold ieeeMul at *
  dsimp only at *
  split_ifs at * <;> simp_all [isNaN_nanAt]

/-- The quotient's site is read only where a NaN is produced. -/
theorem ieeeDiv_site {a b : Word} (q q' : Site) (h : isNaN (ieeeDiv q a b) = false) : ieeeDiv q' a b = ieeeDiv q a b := by
  unfold ieeeDiv at *
  dsimp only at *
  split_ifs at * <;> simp_all [isNaN_nanAt]

theorem ieeeFloor_site {a : Word} (h : isNaN a = false) (q q' : Site) : ieeeFloor q' a = ieeeFloor q a := by
  simp only [ieeeFloor, h, Bool.false_eq_true, if_false]

theorem ffloor_site {c : Cfg} {a : Word} (h : isNaN a = false) (q q' : Site) : ffloor c q' a = ffloor c q a := by
  simp only [ffloor, numUnary, h, Bool.false_eq_true, if_false, numEntry, ieeeFloor_site h q q']

/-- R202: the quotient MsToSamples floors is the same at every site, unless it is a NaN. -/
theorem samplesQuotient_site {c : Cfg} {ms fs : Word} {q1 q2 : Site}
    (h : isNaN (fdiv c q1 (fmul c q2 ms fs) f1000) = false) (q3 q4 : Site) :
    fdiv c q3 (fmul c q4 ms fs) f1000 = fdiv c q1 (fmul c q2 ms fs) f1000 := by
  have hm : isNaN (fmul c q2 ms fs) = false := by
    by_contra hm
    rw [isNaN_fdiv (Or.inl (by simpa using hm))] at h
    exact absurd h (by decide)
  rw [show fmul c q4 ms fs = fmul c q2 ms fs from numBinary_site ieeeMul_site hm q4]
  exact numBinary_site ieeeDiv_site h q3

/-- R202: the sample count of a length in milliseconds does not depend on the site. -/
theorem msToSamples_site (c : Cfg) (q q' : Site) (ms fs : Word) : msToSamples c q ms fs = msToSamples c q' ms fs := by
  have hinvalid : ∀ q : Site, isNaN (fdiv c (0 :: q) (fmul c (1 :: q) ms fs) f1000) = true → msToSamples c q ms fs = none := by
    intro q h
    have hfin : isFinite (fdiv c (0 :: q) (fmul c (1 :: q) ms fs) f1000) = false := by
      by_contra hfin
      rw [not_isNaN_of_isFinite (by simpa using hfin)] at h
      exact absurd h (by decide)
    simp [msToSamples, hfin]
  cases h : isNaN (fdiv c (0 :: q) (fmul c (1 :: q) ms fs) f1000) with
  | false =>
    have e := samplesQuotient_site h (0 :: q') (1 :: q')
    simp only [msToSamples, e, ffloor_site h (2 :: q) (2 :: q')]
  | true =>
    cases h' : isNaN (fdiv c (0 :: q') (fmul c (1 :: q') ms fs) f1000) with
    | false => rw [samplesQuotient_site h' (0 :: q) (1 :: q), h'] at h; exact absurd h (by decide)
    | true => rw [hinvalid q h, hinvalid q' h']

/-- R200, R220: neither does the validity of a search window. -/
theorem windowOk_eq (c : Cfg) (q q' : Site) (lowMs highMs fs : Word) :
    windowOk c lowMs highMs fs = windowInRange (msToSamples c q lowMs fs) (msToSamples c q' highMs fs) := by
  rw [windowOk, msToSamples_site c [] q, msToSamples_site c [] q']

/-! ### Table entries -/

theorem countInRange_getD {o : Option Nat} (h : countInRange o = true) : o.getD 0 < 2 ^ 24 := by
  cases o with
  | none => simp [countInRange] at h
  | some n =>
    simp only [countInRange, Bool.and_eq_true, decide_eq_true_eq] at h
    exact h.2

theorem windowInRange_getD {lo hi : Option Nat} (h : windowInRange lo hi = true) : hi.getD 0 < 2 ^ 24 := by
  simp only [windowInRange, Bool.and_eq_true] at h
  exact countInRange_getD h.2

theorem scanPrimes_lt {fuel c count p : Nat} (h : p ∈ scanPrimes fuel c count) : p < c + fuel := by
  induction fuel generalizing c count with
  | zero => simp [scanPrimes] at h
  | succ fuel ih =>
    cases count with
    | zero => simp [scanPrimes] at h
    | succ count =>
      unfold scanPrimes at h
      split at h
      case isTrue =>
        rcases List.mem_cons.mp h with rfl | h
        · omega
        · have := ih h
          omega
      case isFalse =>
        have := ih h
        omega

/-- R241: no entry is above the upper bound of the search. -/
theorem primesIn_le {low high count p : Nat} (h : p ∈ primesIn low high count) : p ≤ high := by
  rcases Nat.lt_or_ge high low with hlt | hge
  · rw [primesIn, show high + 1 - low = 0 by omega] at h
    simp [scanPrimes] at h
  · have := scanPrimes_lt h
    omega

end Sys2Proof.Machine
end

section
/-! PROOFS. What an operation can do to a line, said once: a sequence of the micro-operations its rule names (`exec_lines`).
spec/10_state.md R36 to R60. -/

namespace Sys2Proof.Machine

/-! ### The per-line loops, as relations between the lines before and after -/

section Loops

variable {R : Line → Line → Prop}

theorem forall₂_updateAt (hrefl : ∀ l, R l l) {f : Line → Line} (hf : ∀ l, R l (f l)) (i : Nat) (ls : List Line) :
    List.Forall₂ R ls (updateAt f i ls) := by
  induction ls generalizing i with
  | nil => cases i <;> exact .nil
  | cons l ls ih =>
    cases i with
    | zero => exact .cons (hf l) (List.forall₂_same.mpr fun l _ => hrefl l)
    | succ i => exact .cons (hrefl l) (ih i)

theorem forall₂_updateFrom (hrefl : ∀ l, R l l) {f : Nat → Line → Line} (hf : ∀ i l, R l (f i l)) (start count : Nat)
    (ls : List Line) : List.Forall₂ R ls (updateFrom f start count ls) := by
  induction ls generalizing start count with
  | nil => cases count <;> exact .nil
  | cons l ls ih =>
    cases count with
    | zero => exact List.forall₂_same.mpr fun l _ => hrefl l
    | succ count => exact .cons (hf start l) (ih (start + 1) count)

theorem forall₂_setEach (hrefl : ∀ l, R l l) {α : Type} {f : Line → α → Line} {as : List α} (hf : ∀ l, ∀ a ∈ as, R l (f l a))
    (ls : List Line) : List.Forall₂ R ls (setEach f as ls) := by
  induction as generalizing ls with
  | nil => exact List.forall₂_same.mpr fun l _ => hrefl l
  | cons a as ih =>
    cases ls with
    | nil => exact .nil
    | cons l ls => exact .cons (hf l a (by simp)) (ih (fun l b hb => hf l b (by simp [hb])) ls)

theorem forall₂_map {f : Line → Line} (hf : ∀ l, R l (f l)) (ls : List Line) : List.Forall₂ R ls (ls.map f) :=
  List.forall₂_map_right_iff.mpr (List.forall₂_same.mpr fun l _ => hf l)

theorem forall₂_drawLines (hrefl : ∀ l, R l l) (hR : ∀ (l : Line) (b c : Word), R l { l with b := b, c := c }) (q : Site)
    (start count : Nat) (ls : List Line) (ds : List Word) : List.Forall₂ R ls (drawLines q start count ls ds).1 := by
  induction ls generalizing start count ds with
  | nil => cases count <;> exact .nil
  | cons l ls ih =>
    cases count with
    | zero => exact List.forall₂_same.mpr fun l _ => hrefl l
    | succ count => exact .cons (hR l _ _) (ih _ _ _)

theorem forall₂_trans (htrans : ∀ {a b c}, R a b → R b c → R a c) {xs ys zs : List Line} (h : List.Forall₂ R xs ys)
    (h' : List.Forall₂ R ys zs) : List.Forall₂ R xs zs := by
  induction h generalizing zs with
  | nil => exact h'
  | cons hab _ ih =>
    cases h' with
    | cons hbc hrest => exact .cons (htrans hab hbc) (ih hrest)

theorem forall₂_getElem? {xs ys : List Line} (h : List.Forall₂ R xs ys) {j : Nat} {l l' : Line} (hl : xs[j]? = some l)
    (hl' : ys[j]? = some l') : R l l' := by
  induction h generalizing j with
  | nil => simp at hl
  | cons hab _ ih =>
    cases j with
    | zero =>
      simp only [List.getElem?_cons_zero, Option.some.injEq] at hl hl'
      exact hl ▸ hl' ▸ hab
    | succ j => exact ih (by simpa using hl) (by simpa using hl')

theorem forall₂_forall {P : Line → Prop} (hP : ∀ {l l'}, R l l' → P l → P l') {xs ys : List Line} (h : List.Forall₂ R xs ys)
    (hxs : ∀ l ∈ xs, P l) : ∀ l ∈ ys, P l := by
  induction h with
  | nil => simp
  | cons hab _ ih =>
    simp only [List.mem_cons, forall_eq_or_imp] at hxs ⊢
    exact ⟨hP hab hxs.1, ih hxs.2⟩

end Loops

/-! ### The micro-operations -/

/-- An opcode in one list of writers is in a longer one. -/
theorem opc_mem {opc : Byte} {xs ys : List Byte} (h : opc ∈ xs) (hsub : ∀ o ∈ xs, o ∈ ys := by decide) : opc ∈ ys := hsub opc h

/-- One change that operation i, run in s, can make to a line. Micro-operations that read the state may run in a later one (u), of
the same configuration; a table entry is below 2^24 when s meets the invariant. -/
inductive LineOp (s : State) (i : Instr) : Line → Line → Prop
  | inputGain (l v) (h : opcodeOf i ∈ [0x10#8, 0x11#8]) : LineOp s i l (setB l v)
  | outputGain (l v) (h : opcodeOf i ∈ [0x12#8, 0x13#8]) : LineOp s i l (setC l v)
  | drawnGains (l : Line) (b c) (h : opcodeOf i ∈ [0x01#8, 0x02#8]) : LineOp s i l { l with b := b, c := c }
  | entry (l p) (h : opcodeOf i ∈ [0x01#8, 0x02#8, 0x03#8, 0x04#8, 0x05#8]) (hp : Inv s → p < 2 ^ 24) : LineOp s i l (setLen l p)
  | retarget {u : State} (l q) (h : opcodeOf i ∈ [0x03#8, 0x04#8, 0x05#8]) (hu : u.cfg = s.cfg) : LineOp s i l (retarget u q l)
  | userShelves {u : State} (l q) (h : opcodeOf i ∈ [0x06#8, 0x07#8]) (hu : u.cfg = s.cfg) : LineOp s i l (recomputeUser u q l)
  | modulate {u : State} (l q depth rate) (h : opcodeOf i ∈ [0x08#8, 0x09#8]) (hu : u.cfg = s.cfg) :
      LineOp s i l (modLine u q depth rate l)
  | seed {u : State} (l q) (h : opcodeOf i ∈ [0x01#8, 0x02#8]) (hu : u.cfg = s.cfg) : LineOp s i l (seedLine u q l)
  | clearBuffer (l) (h : opcodeOf i = 0x02#8) : LineOp s i l (dlReset l)
  | initialise (l) (h : opcodeOf i = 0x01#8) : LineOp s i l (initLine l)
  | zeroFeedback (l) (h : opcodeOf i = 0x01#8) : LineOp s i l (zeroFeedback l)
  | work (l q x) (h : opcodeOf i = 0xFF#8) : LineOp s i l (procLine s q x l)
  | feedback (l u) (h : opcodeOf i = 0xFF#8) : LineOp s i l (setFbin l u)

/-- What operation i, run in s, can do to a line: micro-operations one after the other. -/
def LineChange (s : State) (i : Instr) : Line → Line → Prop := Relation.ReflTransGen (LineOp s i)

theorem LineOp.change {s : State} {i : Instr} {l l' : Line} (h : LineOp s i l l') : LineChange s i l l' := .single h

theorem LineChange.refl {s : State} {i : Instr} (l : Line) : LineChange s i l l := Relation.ReflTransGen.refl

theorem LineChange.trans {s : State} {i : Instr} {l l' l'' : Line} (h : LineChange s i l l') (h' : LineChange s i l' l'') :
    LineChange s i l l'' := Relation.ReflTransGen.trans h h'

/-- A property of lines that every micro-operation keeps is kept by the operation. -/
theorem LineChange.keeps {s : State} {i : Instr} {P : Line → Prop} (hP : ∀ {l l'}, LineOp s i l l' → P l → P l') {l l' : Line}
    (h : LineChange s i l l') (hl : P l) : P l' := by
  induction h with
  | refl => exact hl
  | tail _ hop ih => exact hP hop ih

/-- The lines of t are those of s, each changed as operation i may (i itself being run in r). -/
def LinesChange (r : State) (i : Instr) (s t : State) : Prop := List.Forall₂ (LineChange r i) s.lines t.lines

section Changes

variable {r : State} {i : Instr}

theorem linesChange_of_lines_eq {s t : State} (h : t.lines = s.lines) : LinesChange r i s t := by
  rw [LinesChange, h]
  exact List.forall₂_same.mpr fun l _ => .refl l

theorem LinesChange.trans {s t u : State} (h : LinesChange r i s t) (h' : LinesChange r i t u) : LinesChange r i s u :=
  forall₂_trans (R := LineChange r i) (fun h h' => h.trans h') h h'

theorem linesChange_setLine {f : Line → Line} (hf : ∀ l, LineChange r i l (f l)) (s : State) (j : Nat) :
    LinesChange r i s (setLine s j f) := forall₂_updateAt .refl hf _ _

theorem linesChange_forActive {f : Nat → Line → Line} (hf : ∀ j l, LineChange r i l (f j l)) (s : State) :
    LinesChange r i s (forActive s f) := forall₂_updateFrom .refl hf _ _ _

theorem linesChange_forAll {f : Line → Line} (hf : ∀ l, LineChange r i l (f l)) (s : State) : LinesChange r i s (forAll s f) :=
  forall₂_map hf _

theorem linesChange_drawGains (h : opcodeOf i ∈ [0x01#8, 0x02#8]) (s : State) (q : Site) : LinesChange r i s (drawGains s q) :=
  forall₂_drawLines .refl (fun l b c => (LineOp.drawnGains l b c h).change) _ _ _ _ _

theorem linesChange_seedActive (h : opcodeOf i ∈ [0x01#8, 0x02#8]) {s : State} (hs : s.cfg = r.cfg) (q : Site) :
    LinesChange r i s (seedActive s q) := linesChange_forActive (fun _ l => (LineOp.seed l _ h hs).change) s

theorem linesChange_primeSearch (h : opcodeOf i ∈ [0x01#8, 0x02#8, 0x03#8, 0x04#8, 0x05#8]) (s : State) {low high : Nat}
    (count : Nat) (hhigh : Inv r → high < 2 ^ 24) : LinesChange r i s (primeSearch s low high count) :=
  forall₂_setEach .refl
    (fun l p hp => (LineOp.entry l p h fun hinv => (primesIn_le hp).trans_lt (hhigh hinv)).change) _

/-- R205: the search over stored bounds whose window is valid. -/
theorem linesChange_searchStored (h : opcodeOf i ∈ [0x01#8, 0x02#8]) {s : State} (q : Site)
    (hwin : Inv r → windowOk s.cfg s.lowMs s.highMs s.fs = true) : LinesChange r i s (searchStored s q) :=
  linesChange_primeSearch (opc_mem h) _ _ fun hinv => by
    have hw := hwin hinv
    rw [windowOk_eq s.cfg (0 :: q) (1 :: q)] at hw
    exact windowInRange_getD hw

theorem linesChange_retargetActive (h : opcodeOf i ∈ [0x03#8, 0x04#8, 0x05#8]) {s : State} (hs : s.cfg = r.cfg) (q : Site) :
    LinesChange r i s (retargetActive s q) := linesChange_forActive (fun _ l => (LineOp.retarget l _ h hs).change) s

theorem linesChange_recomputeActive (h : opcodeOf i ∈ [0x06#8, 0x07#8]) {s : State} (hs : s.cfg = r.cfg) (q : Site) :
    LinesChange r i s (recomputeActive s q) := linesChange_forActive (fun _ l => (LineOp.userShelves l _ h hs).change) s

end Changes

/-! ### The operations -/

/-- R200: the state INIT searches in: everything cleared, the operands stored. -/
def initStart (s : State) (order : Byte) (fs lowMs highMs : Word) : State :=
  initParams (initClear { s with rphase := 2#3 }) [0, s.epoch] order fs lowMs highMs

/-- R200, phase 2, from the search on. -/
theorem initBody_eq (s : State) (order : Byte) (fs lowMs highMs : Word) :
    initBody s order fs lowMs highMs =
      forAll { drawGains (seedActive (searchStored (initStart s order fs lowMs highMs) [1, s.epoch]) [2, s.epoch]) [3, s.epoch] with
        topo := .identity } zeroFeedback := rfl

/-- R200, phase 2, from the search on: the table is searched, the active lines seeded and given gains, the feedback zeroed. -/
theorem linesChange_initRest {order : Byte} {fs lowMs highMs : Word} {s : State}
    (hr : s.running = some (.init order fs lowMs highMs)) :
    LinesChange s (.init order fs lowMs highMs) (initStart s order fs lowMs highMs) (initBody s order fs lowMs highMs) := by
  have hopc : opcodeOf (.init order fs lowMs highMs) ∈ [0x01#8, 0x02#8] := by simp [opcodeOf]
  have hsearch := linesChange_searchStored hopc (r := s) (s := initStart s order fs lowMs highMs) [1, s.epoch]
    fun hinv => hinv.init_window hr
  have hseed := linesChange_seedActive hopc (r := s) (s := searchStored (initStart s order fs lowMs highMs) [1, s.epoch]) rfl
    [2, s.epoch]
  rw [initBody_eq]
  exact ((hsearch.trans hseed).trans (linesChange_drawGains hopc _ [3, s.epoch])).trans
    (forall₂_map (fun l => (LineOp.zeroFeedback l rfl).change) _)

/-- R200, phase 2: every line is cleared first. -/
theorem linesChange_initBody {order : Byte} {fs lowMs highMs : Word} {s : State}
    (hr : s.running = some (.init order fs lowMs highMs)) :
    LinesChange s (.init order fs lowMs highMs) s (initBody s order fs lowMs highMs) := by
  have hclear : LinesChange s (.init order fs lowMs highMs) s (initStart s order fs lowMs highMs) :=
    forall₂_map (fun l => (LineOp.initialise l rfl).change) s.lines
  exact hclear.trans (linesChange_initRest hr)

/-- R220: the table is searched within the new window and every active line retargeted. -/
theorem linesChange_updateDelay {ms : Word} {s : State}
    (hwin : windowInRange (delayWindow s ms).1 (delayWindow s ms).2 = true) :
    LinesChange s (.upddly ms) s (updateDelay ms s) := by
  have hsearch := linesChange_primeSearch (i := .upddly ms) (r := s) (by simp [opcodeOf])
    { s with highMs := ms, lowMs := lowBound s.cfg [0, s.epoch] ms } (low := (delayWindow s ms).1.getD 0) s.n
    fun _ => windowInRange_getD hwin
  have htarget := linesChange_retargetActive (i := .upddly ms) (r := s) (by simp [opcodeOf])
    (s := primeSearch { s with highMs := ms, lowMs := lowBound s.cfg [0, s.epoch] ms } ((delayWindow s ms).1.getD 0)
      ((delayWindow s ms).2.getD 0) s.n) rfl [3, s.epoch]
  exact (hsearch.trans htarget).trans (linesChange_of_lines_eq (by simp [updateDelay]))

theorem lengthOk_getD {c : Cfg} {q : Site} {ms fs : Word} (h : lengthOk c q ms fs = true) :
    (msToSamples c q ms fs).getD 0 < 2 ^ 24 := by
  simp only [lengthOk, Bool.and_eq_true] at h
  exact countInRange_getD h.2

/-- R222: one entry is written and its line retargeted. -/
theorem linesChange_setdly {j : Byte} {ms : Word} {s : State} (h : lengthOk s.cfg [0, s.epoch] ms s.fs = true) :
    LinesChange s (.setdly j ms) s
      (setLine s j.toNat fun l => retarget s [1, s.epoch] (setLen l ((msToSamples s.cfg [0, s.epoch] ms s.fs).getD 0))) :=
  linesChange_setLine (fun l => ((LineOp.entry l _ (by simp [opcodeOf]) fun _ => lengthOk_getD h).change).trans
    (LineOp.retarget _ _ (by simp [opcodeOf]) rfl).change) _ _

/-- R223: the entries are written and the active lines retargeted. -/
theorem linesChange_setdlys {ms : List Word} {s : State} (h : ∀ m ∈ ms, lengthOk s.cfg [0, s.epoch] m s.fs = true) :
    LinesChange s (.setdlys ms) s (retargetActive
      { s with lines := setEach setLen (ms.map fun m => (msToSamples s.cfg [0, s.epoch] m s.fs).getD 0) s.lines }
      [1, s.epoch]) := by
  have hentries : LinesChange s (.setdlys ms) s
      { s with lines := setEach setLen (ms.map fun m => (msToSamples s.cfg [0, s.epoch] m s.fs).getD 0) s.lines } := by
    refine forall₂_setEach .refl (fun l p hp => (LineOp.entry l p (by simp [opcodeOf]) fun _ => ?_).change) _
    obtain ⟨m, hm, rfl⟩ := List.mem_map.mp hp
    exact lengthOk_getD (h m hm)
  refine hentries.trans (linesChange_retargetActive ?_ ?_ _)
  · simp [opcodeOf]
  · rfl

/-- R250: each active line does its work, then gets its feedback input. -/
theorem linesChange_process (ch : Byte) (x : Word) (s : State) : LinesChange s (.proc ch x) s (process x s) := by
  have hwork : LinesChange s (.proc ch x) s (forActive s fun j l => procLine s (j :: 0 :: [s.epoch]) x l) :=
    linesChange_forActive (fun _ l => (LineOp.work l _ x rfl).change) s
  exact hwork.trans (forall₂_setEach .refl (fun l u _ => (LineOp.feedback l u rfl).change) _)

/-- What a phase of INIT or UPDORD does to the lines. -/
theorem phase_lines {i : Instr} {s t : State} (h : Phase i s t) : LinesChange s i s t := by
  cases h with
  | initBegin | updordBegin | updordTopology => exact linesChange_of_lines_eq rfl
  | initEnd | updordEnd => exact linesChange_of_lines_eq (by simp [initEnd, endReconfig])
  | initBody _ _ _ _ _ hr => exact linesChange_initBody hr
  | updordClear o sel => exact linesChange_forAll (fun l => (LineOp.clearBuffer l rfl).change) { s with rphase := 2#3 }
  | updordDraw o sel => exact linesChange_drawGains (by simp [opcodeOf]) { s with rphase := 3#3, n := o.toNat } _
  | updordSearch o sel _ hr =>
    exact linesChange_searchStored (i := .updord o sel) (by simp [opcodeOf]) (s := { s with rphase := 4#3 }) _
      fun hinv => (hinv.contents_of_inited (hinv.updord_inited hr)).window
  | updordSeed o sel =>
    exact linesChange_seedActive (r := s) (i := .updord o sel) (by simp [opcodeOf]) (s := { s with rphase := 5#3 }) rfl _

/-- What the effect of an operation does to the lines. -/
theorem effect_lines {i : Instr} {s t : State} (h : Effect i s t) : LinesChange s i s t := by
  cases h with
  | nop | clrerr | getstat | getb | getbs | getc | getcs | getdlys | getmat | setmix | settopo | setcell | procSilent =>
    exact linesChange_of_lines_eq rfl
  | setmat m =>
    obtain ⟨cm, e⟩ := writeCells_writes s.n 0 m s
    exact linesChange_of_lines_eq (by rw [e, complete_lines])
  | setb j v => exact linesChange_setLine (fun l => (LineOp.inputGain l v (by simp [opcodeOf])).change) s j.toNat
  | setc j v => exact linesChange_setLine (fun l => (LineOp.outputGain l v (by simp [opcodeOf])).change) s j.toNat
  | setbs v => exact forall₂_setEach .refl (fun l v _ => (LineOp.inputGain l v (by simp [opcodeOf])).change) _
  | setcs v => exact forall₂_setEach .refl (fun l v _ => (LineOp.outputGain l v (by simp [opcodeOf])).change) _
  | setls d f =>
    exact linesChange_recomputeActive (r := s) (i := .setls d f) (by simp [opcodeOf])
      (s := { s with lsT := d, lsF := f, lsValid := true }) rfl _
  | seths d f =>
    exact linesChange_recomputeActive (r := s) (i := .seths d f) (by simp [opcodeOf])
      (s := { s with hsT := d, hsF := f, hsValid := true }) rfl _
  | updmod depth rate =>
    exact linesChange_forActive (fun _ l => (LineOp.modulate l _ depth rate (by simp [opcodeOf]) rfl).change)
      { s with modDepth := depth, modRate := rate }
  | updmodl j depth rate => exact linesChange_setLine (fun l => (LineOp.modulate l _ depth rate (by simp [opcodeOf]) rfl).change) s _
  | setdly j ms _ hpass =>
    obtain ⟨-, hlen, -⟩ : s.inited = true ∧ lengthOk s.cfg [0, s.epoch] ms s.fs = true ∧ j.toNat < s.n := by
      simpa [Passes, firstFailure_none_iff] using hpass
    exact linesChange_setdly hlen
  | setdlys ms _ hpass =>
    obtain ⟨-, -, hlen⟩ : s.inited = true ∧ ms.length = s.n ∧ ∀ m ∈ ms, lengthOk s.cfg [0, s.epoch] m s.fs = true := by
      simpa [Passes, firstFailure_none_iff] using hpass
    exact linesChange_setdlys hlen
  | upddly ms _ hpass =>
    exact linesChange_updateDelay (by simpa using firstFailure_none_iff.mp hpass (domain _) (by simp))
  | phase h => exact phase_lines h
  | proc ch x => exact linesChange_process ch x s

/-- What every operation does to the lines. -/
theorem exec_lines {i : Instr} {s t : State} (h : exec i s = .next t) : LinesChange s i s t := by
  cases exec_cases h with
  | rejected => exact linesChange_of_lines_eq rfl
  | accepted he => exact effect_lines he

end Sys2Proof.Machine
end

section
/-! PROOFS. The registers of a line: each is written by the operations its rule names and by no other (spec/10_state.md R36 to R60,
spec/41_shelving_filter.md R165, R166). -/

namespace Sys2Proof.Machine

/-- The coefficients of a filter (R46). -/
def coeffsOf (f : Filter) : Coeffs := (f.b0, f.b1, f.a1)

/-- The history of a filter (R46). -/
def historyOf (f : Filter) : Word × Word := (f.x1, f.y1)

/-- The registers of a line by the operations that may write them: an operation with opcode `opc` that takes l to l' keeps each that
it is not named for. -/
structure LineWrites (opc : Byte) (l l' : Line) : Prop where
  b : opc ∈ [0x01#8, 0x02#8, 0x10#8, 0x11#8] ∨ l'.b = l.b
  c : opc ∈ [0x01#8, 0x02#8, 0x12#8, 0x13#8] ∨ l'.c = l.c
  len : opc ∈ [0x01#8, 0x02#8, 0x03#8, 0x04#8, 0x05#8] ∨ l'.len = l.len
  w : opc ∈ [0x01#8, 0xFF#8] ∨ l'.w = l.w
  delay : opc ∈ [0x01#8, 0x02#8, 0x03#8, 0x04#8, 0x05#8, 0x08#8, 0x09#8, 0xFF#8] ∨ l'.delay = l.delay
  current : opc ∈ [0x01#8, 0x02#8, 0x03#8, 0x04#8, 0x05#8, 0xFF#8] ∨ (l'.dcur, l'.dcnt) = (l.dcur, l.dcnt)
  target : opc ∈ [0x01#8, 0x02#8, 0x03#8, 0x04#8, 0x05#8] ∨ (l'.dtgt, l'.dstep) = (l.dtgt, l.dstep)
  lfo : opc ∈ [0x01#8, 0x02#8, 0x08#8, 0x09#8] ∨ l'.lfo = l.lfo
  oscillator : opc ∈ [0x01#8, 0x08#8, 0x09#8] ∨ (l'.phase, l'.rate) = (l.phase, l.rate)
  feedback : opc ∈ [0x01#8, 0xFF#8] ∨ (l'.fo, l'.fbin) = (l.fo, l.fbin)
  histories : opc ∈ [0x01#8, 0xFF#8] ∨
    (historyOf l'.ls, historyOf l'.hs, historyOf l'.fx) = (historyOf l.ls, historyOf l.hs, historyOf l.fx)
  userCoeffs : opc ∈ [0x01#8, 0x02#8, 0x03#8, 0x04#8, 0x05#8, 0x06#8, 0x07#8] ∨
    (coeffsOf l'.ls, coeffsOf l'.hs) = (coeffsOf l.ls, coeffsOf l.hs)
  fixedCoeffs : opc ∈ [0x01#8, 0x02#8, 0x03#8, 0x04#8, 0x05#8, 0xFF#8] ∨ coeffsOf l'.fx = coeffsOf l.fx
  buf : opc ∈ [0x01#8, 0x02#8, 0xFF#8] ∨ l'.buf = l.buf

theorem LineWrites.refl (opc : Byte) (l : Line) : LineWrites opc l l := by constructor <;> exact .inr rfl

/-- A register kept twice is kept. -/
theorem kept_trans {α : Type} {p : Prop} {x y z : α} (h : p ∨ y = x) (h' : p ∨ z = y) : p ∨ z = x := by
  rcases h with h | rfl
  · exact .inl h
  · exact h'

theorem LineWrites.trans {opc : Byte} {l l' l'' : Line} (h : LineWrites opc l l') (h' : LineWrites opc l' l'') :
    LineWrites opc l l'' where
  b := kept_trans h.b h'.b
  c := kept_trans h.c h'.c
  len := kept_trans h.len h'.len
  w := kept_trans h.w h'.w
  delay := kept_trans h.delay h'.delay
  current := kept_trans h.current h'.current
  target := kept_trans h.target h'.target
  lfo := kept_trans h.lfo h'.lfo
  oscillator := kept_trans h.oscillator h'.oscillator
  feedback := kept_trans h.feedback h'.feedback
  histories := kept_trans h.histories h'.histories
  userCoeffs := kept_trans h.userCoeffs h'.userCoeffs
  fixedCoeffs := kept_trans h.fixedCoeffs h'.fixedCoeffs
  buf := kept_trans h.buf h'.buf

/-- INIT may write every register of a line (R200). -/
theorem lineWrites_init (l l' : Line) : LineWrites 0x01#8 l l' := by constructor <;> exact .inl (by decide)

/-- R250, R252: the work of a line keeps the user shelves' coefficients and whatever `procLine_writes` does not name. -/
theorem procLine_userCoeffs (s : State) (q : Site) (x : Word) (l : Line) :
    coeffsOf (procLine s q x l).ls = coeffsOf l.ls ∧ coeffsOf (procLine s q x l).hs = coeffsOf l.hs := by
  obtain ⟨d, cur, n, h, e, -, -⟩ := rampStep_writes s (0 :: q) l
  simp only [procLine, e]
  exact ⟨rfl, rfl⟩

/-- Every micro-operation writes registers its operation is named for. -/
theorem LineOp.writes {s : State} {i : Instr} {l l' : Line} (h : LineOp s i l l') : LineWrites (opcodeOf i) l l' := by
  cases h with
  | inputGain _ v h =>
    constructor
    case b => exact .inl (opc_mem h)
    all_goals exact .inr rfl
  | outputGain _ v h =>
    constructor
    case c => exact .inl (opc_mem h)
    all_goals exact .inr rfl
  | drawnGains _ b c h =>
    constructor
    case b | c => exact .inl (opc_mem h)
    all_goals exact .inr rfl
  | entry _ p h =>
    constructor
    case len => exact .inl h
    all_goals exact .inr rfl
  | @retarget u _ q h =>
    obtain ⟨d, cur, step, k, f, g, fx, e, h1, h2, h3, h4, h5, h6⟩ := retarget_writes u q l
    rw [e]
    constructor
    case delay | current | target | userCoeffs | fixedCoeffs => exact .inl (opc_mem h)
    case histories => exact .inr (by simp only [historyOf, h1, h2, h3, h4, h5, h6])
    all_goals exact .inr rfl
  | @userShelves u _ q h =>
    obtain ⟨f, g, e, h1, h2, h3, h4⟩ := recomputeUser_writes_only u q l
    rw [e]
    constructor
    case userCoeffs => exact .inl (opc_mem h)
    case histories => exact .inr (by simp only [historyOf, h1, h2, h3, h4])
    all_goals exact .inr rfl
  | @modulate u _ q depth rate h =>
    obtain ⟨d, e⟩ := modLine_writes u q depth rate l
    rw [e]
    constructor
    case delay | lfo | oscillator => exact .inl (opc_mem h)
    all_goals exact .inr rfl
  | @seed u _ q h =>
    obtain ⟨d, f, g, fx, e, h1, h2, h3, h4, h5, h6⟩ := seedLine_writes u q l
    rw [e]
    constructor
    case delay | current | target | lfo | userCoeffs | fixedCoeffs => exact .inl (opc_mem h)
    case histories => exact .inr (by simp only [historyOf, h1, h2, h3, h4, h5, h6])
    all_goals exact .inr rfl
  | clearBuffer _ h =>
    constructor
    case buf => exact .inl (by simp [h])
    all_goals exact .inr rfl
  | initialise _ h | zeroFeedback _ h => exact h ▸ lineWrites_init _ _
  | work _ q x h =>
    obtain ⟨d, cur, o, n, f, g, fx, e⟩ := procLine_writes s q x l
    have hshelves := procLine_userCoeffs s q x l
    rw [e] at hshelves ⊢
    constructor
    case userCoeffs => exact .inr (Prod.ext hshelves.1 hshelves.2)
    case delay | current | w | feedback | histories | fixedCoeffs | buf => exact .inl (by simp [h])
    all_goals exact .inr rfl
  | feedback _ u h =>
    constructor
    case feedback => exact .inl (by simp [h])
    all_goals exact .inr rfl

theorem LineChange.writes {s : State} {i : Instr} {l l' : Line} (h : LineChange s i l l') : LineWrites (opcodeOf i) l l' :=
  h.keeps (P := LineWrites (opcodeOf i) l) (fun hop hw => hw.trans hop.writes) (.refl _ l)

/-- Settles O17: what an operation does to a line is a sequence of micro-operations (`exec_lines`), and each writes only registers its
operation is named for (`LineOp.writes`). -/
theorem lineRegisterWriters : Obligations.LineRegisterWriters := by
  intro i s t h
  have hlines := exec_lines h
  refine ⟨(List.Forall₂.length_eq hlines).symm, fun j l l' hl hl' => ?_⟩
  have w := (forall₂_getElem? hlines hl hl').writes
  refine ⟨w.b.resolve_right, w.c.resolve_right, w.len.resolve_right, w.w.resolve_right, w.delay.resolve_right,
    fun hne => w.current.resolve_right fun he => ?_, fun hne => w.target.resolve_right fun he => ?_, w.lfo.resolve_right,
    fun hne => w.oscillator.resolve_right fun he => ?_, fun hne => w.feedback.resolve_right fun he => ?_,
    fun hne => w.histories.resolve_right fun he => ?_, fun hne => w.userCoeffs.resolve_right fun he => ?_,
    w.fixedCoeffs.resolve_right, w.buf.resolve_right⟩
  all_goals
    simp only [historyOf, coeffsOf, Prod.mk.injEq, ne_eq] at hne he
    tauto

end Sys2Proof.Machine
end

section
/-! PROOFS. Every step keeps the invariant of the machine (spec/10_state.md R30 to R38, spec/44_init_reconfig.md R200, R205,
spec/70_reset_and_hazards.md R361): the lines, the matrix store, the order and the window, the sequencing, each by a lemma of its
own. -/

namespace Sys2Proof.Machine

/-! ### Lines -/

theorem buflen_pos (c : Cfg) : 0 < c.buflen := Nat.succ_pos _

/-- Every micro-operation keeps a line in form (R37, R38). -/
theorem LineOp.keeps_lineOk {s : State} {i : Instr} {l l' : Line} (hinv : Inv s) (h : LineOp s i l l')
    (hl : lineOk s.cfg l = true) : lineOk s.cfg l' = true := by
  obtain ⟨hw, hbuf, hlen⟩ := lineOk_iff.mp hl
  cases h with
  | inputGain | outputGain | drawnGains | zeroFeedback | feedback => exact hl
  | entry _ p _ hp => exact lineOk_iff.mpr ⟨hw, hbuf, hp hinv⟩
  | @retarget u _ q =>
    obtain ⟨d, cur, step, k, f, g, fx, e, -⟩ := retarget_writes u q l
    exact e ▸ hl
  | @userShelves u _ q =>
    obtain ⟨f, g, e, -⟩ := recomputeUser_writes_only u q l
    exact e ▸ hl
  | @modulate u _ q depth rate =>
    obtain ⟨d, e⟩ := modLine_writes u q depth rate l
    exact e ▸ hl
  | @seed u _ q =>
    obtain ⟨d, f, g, fx, e, -⟩ := seedLine_writes u q l
    exact e ▸ hl
  | clearBuffer => exact lineOk_iff.mpr ⟨hw, memWf_cleared _, hlen⟩
  | initialise => exact lineOk_iff.mpr ⟨buflen_pos _, memWf_cleared _, hlen⟩
  | work _ q x =>
    obtain ⟨d, cur, o, n, f, g, fx, e⟩ := procLine_writes s q x l
    rw [e]
    exact lineOk_iff.mpr ⟨Nat.mod_lt _ (buflen_pos _), memWf_memWrite hbuf hw, hlen⟩

theorem isCleared_iff {m : Mem} : isCleared m = true ↔ m.fill = .zeros := by simp [isCleared]

/-- No micro-operation puts an uncleared word into a buffer (R361). -/
theorem LineOp.keeps_cleared {s : State} {i : Instr} {l l' : Line} (h : LineOp s i l l') (hl : isCleared l.buf = true) :
    isCleared l'.buf = true := by
  cases h with
  | inputGain | outputGain | drawnGains | zeroFeedback | feedback | entry => exact hl
  | @retarget u _ q =>
    obtain ⟨d, cur, step, k, f, g, fx, e, -⟩ := retarget_writes u q l
    exact e ▸ hl
  | @userShelves u _ q =>
    obtain ⟨f, g, e, -⟩ := recomputeUser_writes_only u q l
    exact e ▸ hl
  | @modulate u _ q depth rate =>
    obtain ⟨d, e⟩ := modLine_writes u q depth rate l
    exact e ▸ hl
  | @seed u _ q =>
    obtain ⟨d, f, g, fx, e, -⟩ := seedLine_writes u q l
    exact e ▸ hl
  | clearBuffer | initialise => rfl
  | work _ q x =>
    obtain ⟨d, cur, o, n, f, g, fx, e⟩ := procLine_writes s q x l
    rw [e, isCleared_iff, memWrite_fill]
    exact isCleared_iff.mp hl

/-! ### The matrix store -/

/-- A change of a memory that keeps its canonical form and puts no uncleared word into it. -/
structure MemKept (size : Nat) (m m' : Mem) : Prop where
  wf : memWf size m = true → memWf size m' = true
  cleared : isCleared m = true → isCleared m' = true

theorem MemKept.refl (size : Nat) (m : Mem) : MemKept size m m := ⟨id, id⟩

theorem memKept_of_eq {size : Nat} {m m' : Mem} (h : m' = m) : MemKept size m m' := h ▸ .refl size m

theorem MemKept.trans {size : Nat} {m m' m'' : Mem} (h : MemKept size m m') (h' : MemKept size m' m'') : MemKept size m m'' :=
  ⟨fun hm => h'.wf (h.wf hm), fun hm => h'.cleared (h.cleared hm)⟩

theorem memKept_memWrite {size k : Nat} (m : Mem) (v : Word) (hk : k < size) : MemKept size m (memWrite m k v) :=
  ⟨fun hm => memWf_memWrite hm hk, fun hm => isCleared_iff.mpr ((memWrite_fill m k v).trans (isCleared_iff.mp hm))⟩

theorem memKept_cleared (size : Nat) (m : Mem) : MemKept size m memCleared := ⟨fun _ => memWf_cleared size, fun _ => rfl⟩

/-- R82: a cell of an active row and column lies in the store. -/
theorem cell_lt {r c n nmax : Nat} (hr : r < n) (hc : c < n) (hn : n ≤ nmax) : r * nmax + c < nmax * nmax :=
  calc r * nmax + c < (r + 1) * nmax := by rw [Nat.succ_mul]; omega
    _ ≤ nmax * nmax := Nat.mul_le_mul_right _ (by omega)

/-- R296: writing the cells of the active corner. -/
theorem memKept_writeCells {n : Nat} (vs : List Word) (k : Nat) (s : State) (hn : n ≤ s.cfg.nmax) (hk : k + vs.length ≤ n * n) :
    MemKept (s.cfg.nmax * s.cfg.nmax) s.cm (writeCells n k vs s).cm := by
  induction vs generalizing k s with
  | nil => exact .refl _ _
  | cons v vs ih =>
    rw [List.length_cons] at hk
    have hlt : k < n * n := by omega
    have hpos : 0 < n := Nat.pos_of_ne_zero fun h0 => by simp [h0] at hlt
    have hcell := memKept_memWrite s.cm v (cell_lt (Nat.div_lt_of_lt_mul hlt) (Nat.mod_lt k hpos) hn)
    exact hcell.trans (ih (k + 1) (writeCell s (k / n) (k % n) v) hn (by omega))

/-- Every operation keeps the matrix store in form, and cleared once it is (R361). -/
theorem effect_cm {i : Instr} {s t : State} (hn : s.n ≤ s.cfg.nmax) (h : Effect i s t) :
    MemKept (s.cfg.nmax * s.cfg.nmax) s.cm t.cm := by
  cases h with
  | setcell r c v _ hpass =>
    obtain ⟨-, -, hr, hc⟩ : s.inited = true ∧ isFinite v = true ∧ r.toNat < s.n ∧ c.toNat < s.n := by
      simpa [Passes, firstFailure_none_iff] using hpass
    exact memKept_memWrite s.cm v (cell_lt hr hc hn)
  | setmat m _ hpass =>
    obtain ⟨-, hlen, -⟩ : s.inited = true ∧ m.length = s.n * s.n ∧ ∀ x ∈ m, isFinite x = true := by
      simpa [Passes, firstFailure_none_iff] using hpass
    exact memKept_writeCells m 0 s hn (by omega)
  | phase h =>
    cases h with
    | initBody => exact memKept_cleared _ _
    | initEnd | updordEnd => exact memKept_of_eq (by simp [initEnd, endReconfig])
    | initBegin | updordBegin | updordClear | updordDraw | updordSearch | updordSeed | updordTopology => exact memKept_of_eq rfl
  | upddly ms => exact memKept_of_eq (by simp [updateDelay])
  | nop | clrerr | getstat | getb | getbs | getc | getcs | getdlys | getmat | setb | setbs | setc | setcs | setmix | settopo
  | setls | seths | updmod | updmodl | setdly | setdlys | procSilent | proc => exact memKept_of_eq rfl

/-! ### Order and window -/

/-- An operation that is no phase of INIT or UPDORD writes none of the registers that sequence them, nor N and FS (R32). -/
structure Quiet (s t : State) : Prop where
  fs : t.fs = s.fs
  n : t.n = s.n
  reconf : t.reconf = s.reconf
  rphase : t.rphase = s.rphase
  inited : t.inited = s.inited
  running : t.running = s.running
  cfg : t.cfg = s.cfg

theorem GlobalWrites.quiet {opc : Byte} {s t : State} (h : GlobalWrites opc s t) (hopc : opc ∉ [0x01#8, 0x02#8]) : Quiet s t where
  fs := by_contra fun hne => hopc (by simp [h.fs hne])
  n := by_contra fun hne => hopc (h.n hne)
  reconf := by_contra fun hne => hopc (h.sequencing (.inl hne))
  rphase := by_contra fun hne => hopc (h.sequencing (.inr hne))
  inited := by_contra fun hne => hopc (by simp [(h.inited hne).1])
  running := by_contra fun hne => hopc (h.running hne)
  cfg := h.cfg

/-- R200, R205: an operation keeps N or sets it to a supported order. -/
theorem effect_order {i : Instr} {s t : State} (hinv : Inv s) (h : Effect i s t) : t.n = s.n ∨ t.n ∈ s.cfg.orders := by
  rcases phase_or_quiet h with hphase | hopc
  · cases hphase with
    | initBody _ _ _ _ _ hr => exact .inr (hinv.init_order hr)
    | updordDraw _ _ _ hr => exact .inr (hinv.updord_order hr)
    | initEnd | updordEnd => exact .inl (by simp [initEnd, endReconfig])
    | initBegin | updordBegin | updordClear | updordSearch | updordSeed | updordTopology => exact .inl rfl
  · exact .inl ((effect_globalWrites h).quiet hopc).n

/-- R200, R220: an operation keeps the bounds and the rate they are converted by, or leaves a valid window. -/
theorem effect_window {i : Instr} {s t : State} (hinv : Inv s) (h : Effect i s t)
    (hwin : windowOk s.cfg s.lowMs s.highMs s.fs = true) : windowOk s.cfg t.lowMs t.highMs t.fs = true := by
  by_cases hopc : opcodeOf i ∈ [0x01#8, 0x03#8]
  · cases h with
    | upddly ms _ hpass =>
      have hnew : windowInRange (delayWindow s ms).1 (delayWindow s ms).2 = true := by
        simpa using firstFailure_none_iff.mp hpass (domain _) (by simp)
      simpa [updateDelay, delayWindow, windowOk_eq s.cfg [1, s.epoch] [2, s.epoch]] using hnew
    | phase h =>
      cases h with
      | initBody _ _ _ _ _ hr => simpa [initBody, searchStored] using hinv.init_window hr
      | initBegin => exact hwin
      | initEnd => simpa [initEnd, endReconfig] using hwin
      | _ => simp [opcodeOf] at hopc
    | _ => simp [opcodeOf] at hopc
  · have w := effect_globalWrites h
    have hfs : t.fs = s.fs := by_contra fun hne => hopc (by simp [w.fs hne])
    have hlow : t.lowMs = s.lowMs := by_contra fun hne => hopc (w.bounds (.inl hne))
    have hhigh : t.highMs = s.highMs := by_contra fun hne => hopc (w.bounds (.inr hne))
    rwa [hfs, hlow, hhigh]

/-! ### Structure and contents -/

theorem effect_structure {i : Instr} {s t : State} (hinv : Inv s) (h : Effect i s t) : structureOk t = true := by
  obtain ⟨hlength, hn, hlines, hcm⟩ := structureOk_iff.mp hinv.structural
  have hchange := effect_lines h
  rw [structureOk_iff, (effect_globalWrites h).cfg]
  refine ⟨(List.Forall₂.length_eq hchange).symm.trans hlength, ?_, ?_, (effect_cm hn h).wf hcm⟩
  · rcases effect_order hinv h with he | he
    · exact he ▸ hn
    · exact order_le_nmax hinv.config he
  · exact forall₂_forall (fun hc => hc.keeps fun hop => hop.keeps_lineOk hinv) hchange hlines

/-- What an initialised engine holds, it holds after every operation. -/
theorem effect_contents {i : Instr} {s t : State} (hinv : Inv s) (h : Effect i s t) (hs : Contents s) : Contents t := by
  have hcfg := (effect_globalWrites h).cfg
  obtain ⟨-, hn, -, -⟩ := structureOk_iff.mp hinv.structural
  refine ⟨?_, ?_, (effect_cm hn h).cleared hs.matrix, ?_⟩
  · rw [hcfg]
    rcases effect_order hinv h with he | he
    · exact he ▸ hs.order
    · exact he
  · rw [hcfg]
    exact effect_window hinv h hs.window
  · exact forall₂_forall (fun hc => hc.keeps LineOp.keeps_cleared) (effect_lines h) hs.buffers

/-- R200: phase 2 of INIT leaves an initialised engine's contents, whatever there was before. -/
theorem contents_initBody {order : Byte} {fs lowMs highMs : Word} {s : State} (hinv : Inv s)
    (hr : s.running = some (.init order fs lowMs highMs)) : Contents (initBody s order fs lowMs highMs) := by
  refine ⟨hinv.init_order hr, hinv.init_window hr, rfl, ?_⟩
  have hstart : ∀ l ∈ (initStart s order fs lowMs highMs).lines, isCleared l.buf = true := by
    intro l hl
    obtain ⟨l₀, -, rfl⟩ := List.mem_map.mp hl
    rfl
  exact forall₂_forall (fun hc => hc.keeps LineOp.keeps_cleared) (linesChange_initRest hr) hstart

/-! ### Sequencing -/

theorem sequencerOk_quiet {s t : State} (h : Quiet s t) (hs : sequencerOk s = true) : sequencerOk t = true := by
  simpa only [sequencerOk, h.running, h.rphase, h.reconf, h.inited, h.cfg] using hs

/-- R33, R34: after a phase RPHASE, RECONF and INITED agree with the command under way. -/
theorem phase_sequencer {i : Instr} {s t : State} (hinv : Inv s) (h : Phase i s t) : sequencerOk t = true := by
  cases h with
  | initBegin order fs lowMs highMs _ hpass =>
    have hchecks := firstFailure_none_iff.mp hpass
    have horder : order.toNat ∈ s.cfg.orders := by
      simpa [supportedOrder] using hchecks (domain (supportedOrder s order)) (by simp [initChecks])
    have hwin : windowOk s.cfg lowMs highMs fs = true := by
      rw [windowOk_eq s.cfg [1, 0, s.epoch] [2, 0, s.epoch]]
      exact hchecks (domain (windowInRange _ _)) (by simp [initChecks])
    simp [sequencerOk, beginReconfig, horder, hwin]
  | initBody _ _ _ _ _ hr =>
    obtain ⟨hreconf, -, horder, hwin⟩ := hinv.init_running hr
    simp [sequencerOk, initBody, searchStored, hr, hreconf, horder, hwin]
  | initEnd => simp [sequencerOk, initEnd, endReconfig]
  | updordBegin o sel _ hpass =>
    obtain ⟨hinited, horder, -⟩ : s.inited = true ∧ o.toNat ∈ s.cfg.orders ∧ selectorOk sel = true := by
      simpa [Passes, firstFailure_none_iff, supportedOrder] using hpass
    simp [sequencerOk, beginReconfig, hinited, horder]
  | updordClear _ _ _ hr | updordDraw _ _ _ hr | updordSearch _ _ _ hr | updordSeed _ _ _ hr | updordTopology _ _ _ hr =>
    obtain ⟨hreconf, hinited, horder⟩ := hinv.updord_running hr
    simp [sequencerOk, searchStored, hr, hreconf, hinited, horder]
  | updordEnd _ _ _ hr =>
    simp [sequencerOk, endReconfig, hinv.updord_inited hr]

theorem effect_sequencer {i : Instr} {s t : State} (hinv : Inv s) (h : Effect i s t) : sequencerOk t = true := by
  rcases phase_or_quiet h with hphase | hopc
  · exact phase_sequencer hinv hphase
  · exact sequencerOk_quiet ((effect_globalWrites h).quiet hopc) hinv.sequencer

theorem initialised_quiet {s t : State} (h : Quiet s t) : initialised t = initialised s := by
  simp only [initialised, h.running, h.rphase, h.inited]

/-- R200: only phase 2 of INIT makes the engine an initialised one. -/
theorem phase_initialised {i : Instr} {s t : State} (hinv : Inv s) (h : Phase i s t) (ht : initialised t = true) :
    initialised s = true ∨ Contents t := by
  cases h with
  | initBegin | updordBegin => exact .inl (initialised_of_inited (by simpa [initialised] using ht))
  | initBody _ _ _ _ _ hr => exact .inr (contents_initBody hinv hr)
  | initEnd _ _ _ _ _ hr hp =>
    obtain ⟨-, hphase, -⟩ := hinv.init_running hr
    exact .inl (by simp [initialised, hr, hphase.resolve_left hp])
  | updordClear _ _ _ hr | updordDraw _ _ _ hr | updordSearch _ _ _ hr | updordSeed _ _ _ hr | updordTopology _ _ _ hr
  | updordEnd _ _ _ hr => exact .inl (initialised_of_inited (hinv.updord_inited hr))

theorem effect_initialised {i : Instr} {s t : State} (hinv : Inv s) (h : Effect i s t) (ht : initialised t = true) :
    Contents t := by
  have hkeep := fun hs => effect_contents hinv h (initialisedOk_iff.mp hinv.contents hs)
  rcases phase_or_quiet h with hphase | hopc
  · exact (phase_initialised hinv hphase ht).elim hkeep id
  · exact hkeep (initialised_quiet ((effect_globalWrites h).quiet hopc) ▸ ht)

/-! ### Steps -/

/-- The effect of an operation keeps the invariant. -/
theorem inv_effect {i : Instr} {s t : State} (hinv : Inv s) (h : Effect i s t) : Inv t where
  config := by rw [(effect_globalWrites h).cfg]; exact hinv.config
  structural := effect_structure hinv h
  sequencer := effect_sequencer hinv h
  contents := initialisedOk_iff.mpr (effect_initialised hinv h)

/-- What the invariant does not speak of: the queues, the error registers, the events to come and the epoch. -/
theorem inv_of_registers {s : State} (h : Inv s) (cmdq rspq : List Word) (err : BitVec 5) (lastErr : Byte)
    (inbox : List HostEvent) (epoch : Nat) :
    Inv { s with cmdq := cmdq, rspq := rspq, err := err, lastErr := lastErr, inbox := inbox, epoch := epoch } :=
  ⟨h.config, h.structural, h.sequencer, h.contents⟩

theorem inv_raiseCode {s : State} (h : Inv s) (opc : Byte) (c : Code) : Inv (raiseCode s opc c) :=
  inv_of_registers h _ _ _ _ _ _

theorem inv_takeEvent {s : State} (h : Inv s) (later : List HostEvent) : Inv (takeEvent s later) :=
  inv_of_registers h _ _ _ _ _ _

/-- Every operation keeps the invariant. -/
theorem inv_exec {i : Instr} {s t : State} (hinv : Inv s) (h : exec i s = .next t) : Inv t := by
  cases exec_cases h with
  | rejected c => exact inv_raiseCode hinv _ c
  | accepted he => exact inv_effect hinv he

/-- R70: the invariant holds after a reset, under every configuration that obeys its constraints. -/
theorem inv_powerOn {cfg : Cfg} (h : cfgOk cfg = true) (inbox : List HostEvent) (draws : List Word) (epoch : Nat) :
    Inv (State.powerOn cfg inbox draws epoch) where
  config := h
  structural := by
    rw [structureOk_iff]
    refine ⟨by simp [State.powerOn], Nat.zero_le _, fun l hl => ?_, memWf_powerOn _ _⟩
    obtain ⟨i, -, rfl⟩ := List.mem_map.mp hl
    exact lineOk_iff.mpr ⟨buflen_pos _, memWf_powerOn _ _, by simp [Line.reset]⟩
  sequencer := rfl
  contents := rfl

theorem inv_controlTurn {s t : State} (hinv : Inv s) (h : controlTurn s = .next t) : Inv t := by
  rcases controlTurn_cases s with ⟨i, -, e⟩ | ⟨-, -, e⟩ | ⟨i, rest, -, -, e⟩ | ⟨opc, why, rest, -, -, e⟩ <;> rw [e] at h
  · exact inv_exec hinv h
  · cases h
    exact hinv
  · exact inv_exec (inv_of_registers hinv rest _ _ _ _ _) h
  · cases h
    exact inv_raiseCode (inv_of_registers hinv rest _ _ _ _ _) _ _

/-- Settles O58, by cases on the host event (`step_cases`); an operation keeps the invariant by `inv_exec`. -/
theorem stepKeepsInv : Obligations.StepKeepsInv := by
  intro s t hinv h
  rcases step_cases s with ⟨-, e⟩ | ⟨w, later, -, e⟩ | ⟨req, later, -, e⟩ | ⟨later, -, e⟩ | ⟨k, later, -, e⟩ | ⟨later, -, e⟩ <;>
    rw [e] at h
  · cases h
    exact hinv
  · cases h
    exact inv_of_registers hinv _ _ _ _ _ _
  · exact inv_exec (inv_takeEvent hinv later) h
  · exact inv_controlTurn (inv_takeEvent hinv later) h
  · cases h
    exact inv_of_registers hinv _ _ _ _ _ _
  · cases h
    exact inv_powerOn hinv.config _ _ _

end Sys2Proof.Machine
end

section
/-! PROOFS. Under the default numerics every step keeps the ranges of the wet fraction (spec/10_state.md R32), of the effective delays
(R38) and of the oscillator phases (R50). -/

namespace Sys2Proof.Machine

/-! ### Ranges as bounds on values -/

/-- R38: an effective delay in [0, CAP]. -/
def DelayInRange (c : Cfg) (d : Word) : Prop := fle f0 d = true ∧ fle d (u2f c c.cap) = true

/-- R50: a phase in [0, 1). -/
def PhaseInUnit (p : Word) : Prop := fle f0 p = true ∧ flt p f1 = true

theorem lineRanges_iff {c : Cfg} {l : Line} : lineRanges c l = true ↔ DelayInRange c l.delay ∧ PhaseInUnit l.phase := by
  simp only [lineRanges, DelayInRange, PhaseInUnit, Bool.and_eq_true, and_assoc]

theorem ranges_iff {s : State} :
    Ranges s ↔ (fle f0 s.wet = true ∧ fle s.wet f1 = true) ∧ ∀ l ∈ s.lines, lineRanges s.cfg l = true := by
  simp only [Ranges, Bool.and_eq_true, List.all_eq_true]

theorem fle_zero_iff {a : Word} (ha : isNaN a = false) : fle f0 a = true ↔ 0 ≤ val a := fle_iff (a := f0) rfl ha

theorem flt_zero_iff {a : Word} (ha : isNaN a = false) : flt a f0 = true ↔ val a < 0 := flt_iff (b := f0) ha rfl

/-- A value that is no NaN and below 2^128 in magnitude is finite. -/
theorem isFinite_of_mag_lt {a : Word} (hn : isNaN a = false) (h : mag a < 2 ^ 24 * 2 ^ 253) : isFinite a = true := by
  by_contra hfin
  rw [isFinite_iff] at hfin
  rw [← Bool.not_eq_true, isNaN_iff] at hn
  rw [mag_eq, show a.toNat % 2 ^ 31 = 0x7F800000 by omega, patMag_infinity] at h
  exact absurd h (lt_irrefl _)

/-- R141, R181, R288: adding +0.0 keeps the value. -/
theorem val_fadd_zero {c : Cfg} (h : c.num.ieee = true) {q : Site} {a : Word} (ha : isFinite a = true) :
    isFinite (fadd c q a f0) = true ∧ val (fadd c q a f0) = val a := by
  rw [fadd_ieee h]
  obtain ⟨hfin, hval, -⟩ := val_ieeeAdd_zero (q := q) (z := f0) ha rfl rfl
  exact ⟨hfin, hval⟩

/-! ### The effective delay (R141, R210 to R213) -/

section Delay

variable {c : Cfg}

theorem isNaN_u2f_cap (h : c.num.ieee = true) (hcap : c.cap < 2 ^ 24) : isNaN (u2f c c.cap) = false := by
  rw [u2f_ieee h]
  exact not_isNaN_of_isFinite (ieeeU2f_exact hcap).1

theorem delayInRange_iff (h : c.num.ieee = true) (hcap : c.cap < 2 ^ 24) {d : Word} (hd : isNaN d = false) :
    DelayInRange c d ↔ 0 ≤ val d ∧ val d ≤ (c.cap * 2 ^ 149 : Nat) := by
  rw [DelayInRange, fle_zero_iff hd, fle_iff hd (isNaN_u2f_cap h hcap), val_u2f h hcap]

theorem delayInRange_zero (h : c.num.ieee = true) (hcap : c.cap < 2 ^ 24) : DelayInRange c f0 :=
  (delayInRange_iff h hcap rfl).mpr ⟨le_refl 0, Int.natCast_nonneg _⟩

/-- R141: the clamp leaves the delay in [0, CAP], or as it was when the length is a NaN. -/
theorem dlSetDelay_inRange (h : c.num.ieee = true) (hcap : c.cap < 2 ^ 24) (q : Site) (len : Word) {l : Line}
    (hl : DelayInRange c l.delay) : DelayInRange c (dlSetDelay c q len l).delay := by
  unfold dlSetDelay
  split_ifs with hnan hneg hhigh
  · exact hl
  · exact delayInRange_zero h hcap
  · rw [delayInRange_iff h hcap (isNaN_u2f_cap h hcap), val_u2f h hcap]
    exact ⟨Int.natCast_nonneg _, le_refl _⟩
  · rw [Bool.not_eq_true] at hnan
    rw [flt_zero_iff hnan] at hneg
    rw [flt_iff (isNaN_u2f_cap h hcap) hnan, val_u2f h hcap] at hhigh
    have hmag := val_natAbs len
    have hbound : c.cap * 2 ^ 149 < 2 ^ 24 * 2 ^ 253 := by omega
    obtain ⟨hfin, hval⟩ := val_fadd_zero h (q := q) (isFinite_of_mag_lt hnan (by omega))
    rw [delayInRange_iff h hcap (not_isNaN_of_isFinite hfin), hval]
    exact ⟨by omega, by omega⟩

end Delay

section Smoothing

variable {s : State} (h : s.cfg.num.ieee = true) (hcap : s.cfg.cap < 2 ^ 24)

include h hcap

theorem applyDelay_inRange (q : Site) {l : Line} (hl : DelayInRange s.cfg l.delay) :
    DelayInRange s.cfg (applyDelay s q l).delay := by
  unfold applyDelay
  dsimp only
  split_ifs
  · exact hl
  · exact hl
  · exact dlSetDelay_inRange h hcap _ _ hl

theorem followDelay_inRange (q : Site) {l : Line} (hl : DelayInRange s.cfg l.delay) :
    DelayInRange s.cfg (followDelay s q l).delay := applyDelay_inRange h hcap _ hl

theorem startRamp_inRange (q : Site) (target : Word) {l : Line} (hl : DelayInRange s.cfg l.delay) :
    DelayInRange s.cfg (startRamp s q target l).delay := by
  unfold startRamp
  split_ifs
  · exact followDelay_inRange h hcap _ hl
  · exact hl

theorem rampStep_inRange (q : Site) {l : Line} (hl : DelayInRange s.cfg l.delay) :
    DelayInRange s.cfg (rampStep s q l).delay := by
  unfold rampStep
  split
  · exact hl
  · exact followDelay_inRange h hcap _ hl
  · exact followDelay_inRange h hcap _ hl

theorem retarget_inRange (q : Site) {l : Line} (hl : DelayInRange s.cfg l.delay) :
    DelayInRange s.cfg (retarget s q l).delay := by
  refine startRamp_inRange h hcap _ _ ?_
  rwa [recomputeUser_writes]

theorem seedLine_inRange (q : Site) {l : Line} (hl : DelayInRange s.cfg l.delay) :
    DelayInRange s.cfg (seedLine s q l).delay := by
  simp only [seedLine, recomputeFixed, recomputeUser_writes]
  exact dlSetDelay_inRange h hcap _ _ hl

theorem procLine_inRange (q : Site) (x : Word) {l : Line} (hl : DelayInRange s.cfg l.delay) :
    DelayInRange s.cfg (procLine s q x l).delay := rampStep_inRange h hcap (0 :: q) hl

end Smoothing

/-! ### The oscillator phase (R181) -/

theorem phaseInUnit_iff {p : Word} (hp : isFinite p = true) : PhaseInUnit p ↔ 0 ≤ val p ∧ val p < val f1 := by
  rw [PhaseInUnit, fle_zero_iff (not_isNaN_of_isFinite hp), flt_iff (not_isNaN_of_isFinite hp) rfl]

theorem phaseInUnit_zero : PhaseInUnit f0 := (phaseInUnit_iff rfl).mpr (by decide)

/-- A number that is not negative is not rounded to a negative value. -/
theorem Rounds.nonneg {x : Int} {r : Word} (h : Rounds x 1 r) (hx : 0 ≤ x) (hr : isFinite r = true) : 0 ≤ val r := by
  obtain ⟨-, -, hnear⟩ := h
  obtain ⟨hle, -⟩ := hnear hr f0 rfl
  rw [show val f0 = 0 from rfl, mul_one, Int.zero_mul, Int.sub_zero, abs_of_nonneg hx, abs_le] at hle
  omega

/-- R181: the fractional part of a finite value, rounded, is finite and not negative (it may round up to 1.0). -/
theorem fractionalPart {c : Cfg} (h : c.num.ieee = true) (q q' : Site) {t : Word} (ht : isFinite t = true) :
    isFinite (fsub c q t (ffloor c q' t)) = true ∧ 0 ≤ val (fsub c q t (ffloor c q' t)) := by
  rw [fsub_ieee h, ffloor_ieee h]
  obtain ⟨hfloor, -, hlow, hhigh⟩ := ieeeFloor_finite (q := q') ht
  have hround := rounds_ieeeSub (q := q) ht hfloor
  have hfin : isFinite (ieeeSub q t (ieeeFloor q' t)) = true := by
    rw [← Bool.not_eq_false, hround.1]
    simp only [Int.natAbs_one, mul_one]
    omega
  exact ⟨hfin, hround.nonneg (by omega) hfin⟩

/-- R181, R50: an advanced phase lies in [0, 1). -/
theorem advancePhase_inUnit {c : Cfg} (h : c.num.ieee = true) (q : Site) (phase inc : Word) :
    PhaseInUnit (advancePhase c q phase inc) := by
  unfold advancePhase
  dsimp only
  split
  case isFalse => exact phaseInUnit_zero
  case isTrue ht =>
    obtain ⟨hfin, hnonneg⟩ := fractionalPart h (1 :: q) (2 :: q) ht
    split
    case isTrue =>
      obtain ⟨hf, hv⟩ := val_fadd_zero h (q := 3 :: q) (a := f0) rfl
      rw [phaseInUnit_iff hf, hv]
      exact (phaseInUnit_iff rfl).mp phaseInUnit_zero
    case isFalse hone =>
      obtain ⟨hf, hv⟩ := val_fadd_zero h (q := 3 :: q) hfin
      rw [fle_iff (a := f1) rfl (not_isNaN_of_isFinite hfin), not_le] at hone
      rw [phaseInUnit_iff hf, hv]
      exact ⟨hnonneg, hone⟩

/-! ### Operations -/

/-- Every micro-operation keeps the ranges of a line. -/
theorem LineOp.keeps_ranges {s : State} {i : Instr} {l l' : Line} (hieee : s.cfg.num.ieee = true) (hcap : s.cfg.cap < 2 ^ 24)
    (h : LineOp s i l l') (hl : lineRanges s.cfg l = true) : lineRanges s.cfg l' = true := by
  obtain ⟨hdelay, hphase⟩ := lineRanges_iff.mp hl
  cases h with
  | inputGain | outputGain | drawnGains | entry | clearBuffer | zeroFeedback | feedback => exact hl
  | @retarget u _ q _ hu =>
    have hd := retarget_inRange (s := u) (hu ▸ hieee) (hu ▸ hcap) q (hu ▸ hdelay)
    obtain ⟨d, cur, step, k, f, g, fx, e, -⟩ := retarget_writes u q l
    rw [hu, e] at hd
    exact e ▸ lineRanges_iff.mpr ⟨hd, hphase⟩
  | @userShelves u _ q =>
    obtain ⟨f, g, e, -⟩ := recomputeUser_writes_only u q l
    exact e ▸ hl
  | @modulate u _ q depth rate _ hu =>
    refine lineRanges_iff.mpr ⟨hu ▸ applyDelay_inRange (s := u) (hu ▸ hieee) (hu ▸ hcap) (3 :: q) (hu ▸ hdelay), ?_⟩
    obtain ⟨d, e⟩ := modLine_writes u q depth rate l
    rw [e]
    exact advancePhase_inUnit (hu ▸ hieee) _ _ _
  | @seed u _ q _ hu =>
    have hd := seedLine_inRange (s := u) (hu ▸ hieee) (hu ▸ hcap) q (hu ▸ hdelay)
    obtain ⟨d, f, g, fx, e, -⟩ := seedLine_writes u q l
    rw [hu, e] at hd
    exact e ▸ lineRanges_iff.mpr ⟨hd, hphase⟩
  | initialise => exact lineRanges_iff.mpr ⟨delayInRange_zero hieee hcap, phaseInUnit_zero⟩
  | work _ q x =>
    have hd := procLine_inRange hieee hcap q x hdelay
    obtain ⟨d, cur, o, n, f, g, fx, e⟩ := procLine_writes s q x l
    rw [e] at hd
    exact e ▸ lineRanges_iff.mpr ⟨hd, hphase⟩

/-- R288: the stored wet fraction lies in [0, 1]. -/
theorem exec_wet {i : Instr} {s t : State} (hieee : s.cfg.num.ieee = true) (h : exec i s = .next t)
    (hs : fle f0 s.wet = true ∧ fle s.wet f1 = true) : fle f0 t.wet = true ∧ fle t.wet f1 = true := by
  by_cases hwet : t.wet = s.wet
  · rwa [hwet]
  · have hopc := (exec_globalWrites h).wet hwet
    cases i with
    | setmix w =>
      rcases command_next h with ⟨c, -, rfl⟩ | ⟨hpass, rfl⟩
      · exact absurd rfl hwet
      · obtain ⟨-, ⟨hfin, hlow⟩, hhigh⟩ : s.inited = true ∧ (isFinite w = true ∧ fle f0 w = true) ∧ fle w f1 = true := by
          simpa [firstFailure_none_iff] using hpass
        have hw := not_isNaN_of_isFinite hfin
        obtain ⟨hf, hv⟩ := val_fadd_zero hieee (q := [0, s.epoch]) hfin
        have hn := not_isNaN_of_isFinite hf
        rw [complete_wet, fle_zero_iff hn, fle_iff hn rfl, hv]
        exact ⟨(fle_zero_iff hw).mp hlow, (fle_iff hw rfl).mp hhigh⟩
    | _ => simp [opcodeOf] at hopc

/-- Every operation keeps the ranges. -/
theorem ranges_exec {i : Instr} {s t : State} (hieee : s.cfg.num.ieee = true) (hcap : s.cfg.cap < 2 ^ 24) (h : exec i s = .next t)
    (hs : Ranges s) : Ranges t := by
  obtain ⟨hwet, hlines⟩ := ranges_iff.mp hs
  refine ranges_iff.mpr ⟨exec_wet hieee h hwet, ?_⟩
  rw [(exec_globalWrites h).cfg]
  exact forall₂_forall (fun hc => hc.keeps fun hop => hop.keeps_ranges hieee hcap) (exec_lines h) hlines

/-! ### Steps -/

/-- R70: the ranges hold after a reset. -/
theorem ranges_powerOn {cfg : Cfg} (hieee : cfg.num.ieee = true) (hcap : cfg.cap < 2 ^ 24) (inbox : List HostEvent)
    (draws : List Word) (epoch : Nat) : Ranges (State.powerOn cfg inbox draws epoch) := by
  have hwet : fle f0 0#32 = true ∧ fle 0#32 f1 = true := by decide
  refine ranges_iff.mpr ⟨hwet, fun l hl => ?_⟩
  obtain ⟨i, -, rfl⟩ := List.mem_map.mp hl
  exact lineRanges_iff.mpr ⟨delayInRange_zero hieee hcap, phaseInUnit_zero⟩

theorem ranges_controlTurn {s t : State} (hieee : s.cfg.num.ieee = true) (hcap : s.cfg.cap < 2 ^ 24) (hs : Ranges s)
    (h : controlTurn s = .next t) : Ranges t := by
  rcases controlTurn_cases s with ⟨i, -, e⟩ | ⟨-, -, e⟩ | ⟨i, rest, -, -, e⟩ | ⟨opc, why, rest, -, -, e⟩ <;> rw [e] at h
  · exact ranges_exec hieee hcap h hs
  · cases h
    exact hs
  · exact ranges_exec (s := { s with cmdq := rest }) hieee hcap h hs
  · cases h
    exact hs

/-- Settles O59, by cases on the host event (`step_cases`); an operation keeps the ranges by `ranges_exec`. -/
theorem stepKeepsRanges : Obligations.StepKeepsRanges := by
  intro s t hieee hinv hs h
  have hcap := cap_lt hinv.config
  rcases step_cases s with ⟨-, e⟩ | ⟨w, later, -, e⟩ | ⟨req, later, -, e⟩ | ⟨later, -, e⟩ | ⟨k, later, -, e⟩ | ⟨later, -, e⟩ <;>
    rw [e] at h
  · cases h
    exact hs
  · cases h
    exact hs
  · exact ranges_exec (s := takeEvent s later) hieee hcap h hs
  · exact ranges_controlTurn (s := takeEvent s later) hieee hcap hs h
  · cases h
    exact hs
  · cases h
    exact ranges_powerOn hieee hcap _ _ _

/-- Settles O57: the reference configuration obeys its constraints and has the default numerics. -/
theorem resetInv : Obligations.ResetInv :=
  have hcfg : cfgOk Cfg.ref = true := by decide
  ⟨inv_powerOn hcfg _ _ _, ranges_powerOn rfl (cap_lt hcfg) _ _ _⟩

end Sys2Proof.Machine
end

section
/-! PROOFS. The memories: which operations store in the matrix store and in the delay buffers (spec/20_memory.md R81), and the
command a turn of the control agent runs (spec/20_memory.md R91, spec/30_encoding.md R112). -/

namespace Sys2Proof.Machine

/-! ### The turn of the control agent -/

/-- R112: with no command under way, the turn consumes the packet at the head of `CMDQ` and runs its command. -/
theorem controlTurn_command {s : State} {i : Instr} {rest : List Word} (hrun : s.running = none)
    (hdec : decodePacket s.cmdq = .command i rest) : controlTurn s = exec i { s with cmdq := rest } := by
  simp only [controlTurn, hrun, hdec]

/-- R91: the turn runs the next phase of a command under way. -/
theorem controlTurn_running {s : State} {i : Instr} (hrun : s.running = some i) : controlTurn s = exec i s := by
  simp only [controlTurn, hrun]

/-- A step with a turn of the control agent at the head of the inbox. -/
theorem step_control {s : State} {later : List HostEvent} (h : s.inbox = .control :: later) :
    step s = controlTurn (handling s later) := step_event h

/-- Settles O7: the step is the control agent's turn (`step_control`), in each of its two cases. -/
theorem stepRunsDecodedCommand : Obligations.StepRunsDecodedCommand := by
  refine ⟨fun s later i rest hinbox hrun hdec => ?command, fun s later i hinbox hrun => ?underWay⟩
  case command => exact (step_control hinbox).trans (controlTurn_command (s := handling s later) hrun hdec)
  case underWay => exact (step_control hinbox).trans (controlTurn_running (s := handling s later) hrun)

/-! ### The matrix store -/

/-- R200, R205: only a phase of INIT stores in the matrix store. -/
theorem phase_cm {i : Instr} {s t : State} (h : Phase i s t) : opcodeOf i = 0x01#8 ∨ t.cm = s.cm := by
  cases h with
  | initBegin | initBody | initEnd => exact .inl rfl
  | updordBegin | updordClear | updordDraw | updordSearch | updordSeed | updordTopology => exact .inr rfl
  | updordEnd => exact .inr (by simp [endReconfig])

/-- R81: the matrix store is written by INIT, SETCELL and SETMAT. -/
theorem effect_cm_writers {i : Instr} {s t : State} (h : Effect i s t) :
    opcodeOf i ∈ [0x01#8, 0x14#8, 0x15#8] ∨ t.cm = s.cm := by
  cases h with
  | setcell | setmat => exact .inl (by simp [opcodeOf])
  | phase h => exact (phase_cm h).imp_left fun hinit => by simp [hinit]
  | upddly ms => exact .inr (by simp [updateDelay])
  | nop | clrerr | getstat | getb | getbs | getc | getcs | getdlys | getmat | setb | setbs | setc | setcs | setmix | settopo
  | setls | seths | updmod | updmodl | setdly | setdlys | procSilent | proc => exact .inr rfl

theorem exec_cm_writers {i : Instr} {s t : State} (h : exec i s = .next t) :
    opcodeOf i ∈ [0x01#8, 0x14#8, 0x15#8] ∨ t.cm = s.cm := by
  cases exec_cases h with
  | rejected => exact .inr rfl
  | accepted he => exact effect_cm_writers he

/-! ### The delay buffers -/

/-- What an operation does to line j, which past the last line reads as the same line after reset (log 6). -/
theorem exec_lineAt {i : Instr} {s t : State} (h : exec i s = .next t) (j : Nat) :
    LineChange s i (lineAt s j) (lineAt t j) := by
  have hlines := exec_lines h
  have hlength : s.lines.length = t.lines.length := List.Forall₂.length_eq hlines
  rcases Nat.lt_or_ge j s.lines.length with hj | hj
  · have hs : s.lines[j]? = some (lineAt s j) := by simp [lineAt, hj]
    have ht : t.lines[j]? = some (lineAt t j) := by simp [lineAt, hlength ▸ hj]
    exact forall₂_getElem? hlines hs ht
  · have hreset : lineAt t j = lineAt s j := by
      simp only [lineAt, List.getElem?_eq_none hj, List.getElem?_eq_none (hlength ▸ hj)]
    exact hreset ▸ .refl _

/-- R81: a word of a delay buffer is written by INIT, UPDORD and PROC. -/
theorem exec_readDelayWord {i : Instr} {s t : State} (h : exec i s = .next t) (hopc : opcodeOf i ∉ [0x01#8, 0x02#8, 0xFF#8])
    (j k : Nat) : readDelayWord t j k = readDelayWord s j k := by
  have hbuf : (lineAt t j).buf = (lineAt s j).buf := (exec_lineAt h j).writes.buf.resolve_left hopc
  simp only [readDelayWord, hbuf]

/-- Settles O18: an operation that does not store keeps the matrix store as a whole (`exec_cm_writers`) and the buffer of every line
(`exec_readDelayWord`). -/
theorem memoryWriters : Obligations.MemoryWriters := by
  refine fun i s t h => ⟨fun hopc k => ?matrix, exec_readDelayWord h⟩
  case matrix => rw [(exec_cm_writers h).resolve_left hopc]

end Sys2Proof.Machine
end

section
/-! PROOFS. The packet decoder and the encoder are inverse to each other (spec/30_encoding.md R112 to R116, R120, R122): what the
decoder takes as a packet is said once (`decodePacket_eq_command_iff`), and so is what each row of the opcode map stands for
(`rowEncodes_of_mem`, `reads_of_encode`). -/

namespace Sys2Proof

open Sys2Proof.Machine

/-! ### Header fields under a mask -/

theorem append_eq_append_iff {v w : Nat} {a a' : BitVec v} {b b' : BitVec w} : a ++ b = a' ++ b' ↔ a = a' ∧ b = b' := by
  refine ⟨fun h => ⟨?_, ?_⟩, fun ⟨ha, hb⟩ => by rw [ha, hb]⟩
  · simpa only [BitVec.extractLsb'_append_eq_left] using congrArg (BitVec.extractLsb' w v) h
  · simpa only [BitVec.extractLsb'_append_eq_right] using congrArg (BitVec.extractLsb' 0 w) h

/-- R112, R114: a header from its opcode, its two index fields and its low byte. -/
def ofBytes (opc a b low : Byte) : Word := opc ++ a ++ b ++ low

/-- R112, R115: a header from its opcode, the twelve bits after it and LEN. -/
def ofOpcLen (opc : Byte) (z len : BitVec 12) : Word := opc ++ z ++ len

theorem ofBytes_fields (h : Word) : ofBytes (opcOf h) (fieldA h) (fieldB h) (h.extractLsb' 0 8) = h := by
  have hab : opcOf h ++ fieldA h = h.extractLsb' 16 16 := BitVec.extractLsb'_append_extractLsb'_eq_extractLsb' rfl
  have hb : h.extractLsb' 16 16 ++ fieldB h = h.extractLsb' 8 24 := BitVec.extractLsb'_append_extractLsb'_eq_extractLsb' rfl
  have hlow : h.extractLsb' 8 24 ++ h.extractLsb' 0 8 = h :=
    (BitVec.extractLsb'_append_extractLsb'_eq_extractLsb' rfl).trans BitVec.extractLsb'_eq_self
  rw [ofBytes, hab]
  exact (congrArg (· ++ h.extractLsb' 0 8) hb).trans hlow

theorem ofOpcLen_fields (h : Word) : ofOpcLen (opcOf h) (h.extractLsb' 12 12) (h.extractLsb' 0 12) = h := by
  have hz : opcOf h ++ h.extractLsb' 12 12 = h.extractLsb' 12 20 := BitVec.extractLsb'_append_extractLsb'_eq_extractLsb' rfl
  rw [ofOpcLen, hz]
  exact (BitVec.extractLsb'_append_extractLsb'_eq_extractLsb' rfl).trans BitVec.extractLsb'_eq_self

theorem ofBytes_and (o a b l o' a' b' l' : Byte) :
    ofBytes o a b l &&& ofBytes o' a' b' l' = ofBytes (o &&& o') (a &&& a') (b &&& b') (l &&& l') := by
  simp only [ofBytes, ← BitVec.and_append]

theorem ofOpcLen_and (o o' : Byte) (z l z' l' : BitVec 12) :
    ofOpcLen o z l &&& ofOpcLen o' z' l' = ofOpcLen (o &&& o') (z &&& z') (l &&& l') := by
  simp only [ofOpcLen, ← BitVec.and_append]

theorem ofBytes_inj {o a b l o' a' b' l' : Byte} :
    ofBytes o a b l = ofBytes o' a' b' l' ↔ o = o' ∧ a = a' ∧ b = b' ∧ l = l' := by
  refine append_eq_append_iff.trans ?_
  rw [append_eq_append_iff, append_eq_append_iff, and_assoc, and_assoc]

theorem ofOpcLen_inj {o o' : Byte} {z l z' l' : BitVec 12} : ofOpcLen o z l = ofOpcLen o' z' l' ↔ o = o' ∧ z = z' ∧ l = l' := by
  refine append_eq_append_iff.trans ?_
  rw [append_eq_append_iff, and_assoc]

theorem headerI_eq_ofBytes (opc a b : Byte) : headerI opc a b = ofBytes opc a b 0#8 := rfl

theorem headerL_eq_ofOpcLen (opc : Byte) (ws : List Word) : headerL opc ws = ofOpcLen opc 0#12 (BitVec.ofNat 12 ws.length) := rfl

theorem headerZ_eq_headerI (opc : Byte) : headerZ opc = headerI opc 0#8 0#8 := by
  rw [headerI, BitVec.append_assoc, BitVec.append_assoc]
  rfl

theorem headerI_zero_eq_ofOpcLen (opc : Byte) : headerI opc 0#8 0#8 = ofOpcLen opc 0#12 0#12 := by
  rw [← headerZ_eq_headerI, ofOpcLen, BitVec.append_assoc]
  rfl

theorem byte_and_ones (a : Byte) : a &&& 0xFF#8 = a := BitVec.and_allOnes

/-- The mask of a Z or I row: the opcode and the low byte are fixed, of the index fields the bits of `ma` and `mb`. -/
def indexMask (ma mb : Byte) : Word := ofBytes 0xFF#8 ma mb 0xFF#8

/-- The mask of an L row: all but LEN is fixed. -/
def lenMask : Word := ofOpcLen 0xFF#8 0xFFF#12 0x000#12

theorem headerI_and_indexMask (opc a b ma mb : Byte) :
    headerI opc a b &&& indexMask ma mb = headerI opc (a &&& ma) (b &&& mb) := by
  rw [headerI_eq_ofBytes, indexMask, ofBytes_and, byte_and_ones, byte_and_ones, headerI_eq_ofBytes]

theorem headerL_and_lenMask (opc : Byte) (ws : List Word) : headerL opc ws &&& lenMask = headerI opc 0#8 0#8 := by
  rw [headerL_eq_ofOpcLen, lenMask, ofOpcLen_and, byte_and_ones, BitVec.zero_and, BitVec.and_zero, headerI_zero_eq_ofOpcLen]

/-- R113, R114, R122: a header that agrees with a Z or I row has that row's opcode and zeros in the fixed bits. -/
theorem header_of_and_indexMask {h : Word} {opc ma mb : Byte} (hm : h &&& indexMask ma mb = headerI opc 0#8 0#8) :
    headerI opc (fieldA h) (fieldB h) = h ∧ fieldA h &&& ma = 0#8 ∧ fieldB h &&& mb = 0#8 := by
  rw [← ofBytes_fields h, indexMask, ofBytes_and, byte_and_ones, byte_and_ones, headerI_eq_ofBytes, ofBytes_inj] at hm
  obtain ⟨hopc, ha, hb, hlow⟩ := hm
  refine ⟨?_, ha, hb⟩
  rw [headerI_eq_ofBytes, ← hopc, ← hlow, ofBytes_fields]

/-- R115, R122: a header that agrees with an L row is the header of every payload of the length it announces. -/
theorem headerL_of_and_lenMask {h : Word} {opc : Byte} {ws : List Word} (hm : h &&& lenMask = headerI opc 0#8 0#8)
    (hlen : ws.length = lenOf h) : headerL opc ws = h := by
  have hones : h.extractLsb' 12 12 &&& 0xFFF#12 = h.extractLsb' 12 12 := BitVec.and_allOnes
  rw [← ofOpcLen_fields h, lenMask, ofOpcLen_and, byte_and_ones, hones, headerI_zero_eq_ofOpcLen, ofOpcLen_inj] at hm
  obtain ⟨hopc, hzero, -⟩ := hm
  rw [headerL_eq_ofOpcLen, ← hopc, ← hzero, hlen, lenOf, BitVec.ofNat_toNat, BitVec.setWidth_eq, ofOpcLen_fields]

/-! ### What the decoder takes as a packet -/

/-- R112, R120, R122: a known opcode, the payload its row announces, every must-be-zero bit zero: header and payload stand for i. -/
def Reads (h : Word) (payload : List Word) (i : Instr) : Prop :=
  ∃ r, rowOf (opcOf h) = some r ∧ payload.length = r.payloadLen h ∧ h &&& r.mask = r.pattern ∧ r.build h payload = some i

/-- R121. -/
theorem decodePacket_unknown {h : Word} (hr : rowOf (opcOf h) = none) (ws : List Word) :
    decodePacket (h :: ws) = .illegal (opcOf h) .unknownOpcode ws := by
  simp only [decodePacket, hr]

/-- R112, R124. -/
theorem decodePacket_partial {h : Word} {ws : List Word} {r : Row} (hr : rowOf (opcOf h) = some r)
    (hlen : ws.length < r.payloadLen h) : decodePacket (h :: ws) = .incomplete := by
  simp only [decodePacket, hr, if_pos hlen]

/-- R112, R122: a complete packet: legal when the row's fixed bits are as the row says and its command takes the payload. -/
theorem decodePacket_complete {h : Word} {payload : List Word} {r : Row} (hr : rowOf (opcOf h) = some r)
    (hlen : payload.length = r.payloadLen h) (later : List Word) :
    decodePacket (h :: (payload ++ later)) =
      if h &&& r.mask = r.pattern then
        ((r.build h payload).map fun i => Decoded.command i later).getD (.illegal (opcOf h) .reservedField later)
      else .illegal (opcOf h) .reservedField later := by
  have hfits : ¬(payload ++ later).length < payload.length := by simp
  simp only [decodePacket, hr, ← hlen, if_neg hfits, List.take_left, List.drop_left]
  cases r.build h payload <;> rfl

/-- The decoder reads an instruction exactly from a header and a payload that stand for it. -/
theorem decodePacket_eq_command_iff {q later : List Word} {i : Instr} :
    decodePacket q = .command i later ↔ ∃ h payload, q = h :: (payload ++ later) ∧ Reads h payload i := by
  constructor
  · intro hdec
    cases q with
    | nil => simp [decodePacket] at hdec
    | cons h ws =>
      cases hr : rowOf (opcOf h) with
      | none => simp [decodePacket_unknown hr] at hdec
      | some r =>
        rcases Nat.lt_or_ge ws.length (r.payloadLen h) with hlen | hlen
        · simp [decodePacket_partial hr hlen] at hdec
        have htake : (ws.take (r.payloadLen h)).length = r.payloadLen h := by simp [hlen]
        rw [← List.take_append_drop (r.payloadLen h) ws, decodePacket_complete hr htake] at hdec
        split at hdec
        case isFalse => cases hdec
        case isTrue hm =>
          cases hb : r.build h (ws.take (r.payloadLen h)) with
          | none => simp [hb] at hdec
          | some j =>
            simp only [hb, Option.map_some, Option.getD_some, Decoded.command.injEq] at hdec
            obtain ⟨rfl, hlater⟩ := hdec
            exact ⟨h, ws.take (r.payloadLen h), by rw [← hlater, List.take_append_drop], r, hr, htake, hm, hb⟩
  · rintro ⟨h, payload, rfl, r, hr, hlen, hm, hb⟩
    rw [decodePacket_complete hr hlen, if_pos hm, hb]
    rfl

/-! ### From words to the instruction: the rows of the opcode map -/

/-- Whatever the row reads is well-formed, and the words it was read from are its encoding. -/
def RowEncodes (r : Row) : Prop :=
  ∀ h payload i, payload.length = r.payloadLen h → h &&& r.mask = r.pattern → r.build h payload = some i →
    i.wf = true ∧ encode i = .packet (h :: payload)

section Rows

variable {opc : Byte} {fmt : Fmt} {pattern mask : Word}

theorem rowEncodes_noPayload {k : Word → Instr}
    (hk : ∀ h, h &&& mask = pattern → (k h).wf = true ∧ encode (k h) = .packet [h]) :
    RowEncodes ⟨opc, fmt, pattern, mask, noPayload k⟩ := by
  intro h payload i _ hm hb
  match payload, hb with
  | [], rfl => exact hk h hm

theorem rowEncodes_onePayload {k : Word → Word → Instr}
    (hk : ∀ h a, h &&& mask = pattern → (k h a).wf = true ∧ encode (k h a) = .packet [h, a]) :
    RowEncodes ⟨opc, fmt, pattern, mask, onePayload k⟩ := by
  intro h payload i _ hm hb
  match payload, hb with
  | [a], rfl => exact hk h a hm

theorem rowEncodes_twoPayload {k : Word → Word → Word → Instr}
    (hk : ∀ h a b, h &&& mask = pattern → (k h a b).wf = true ∧ encode (k h a b) = .packet [h, a, b]) :
    RowEncodes ⟨opc, fmt, pattern, mask, twoPayload k⟩ := by
  intro h payload i _ hm hb
  match payload, hb with
  | [a, b], rfl => exact hk h a b hm

theorem rowEncodes_threePayload {k : Word → Word → Word → Word → Instr}
    (hk : ∀ h a b c, h &&& mask = pattern → (k h a b c).wf = true ∧ encode (k h a b c) = .packet [h, a, b, c]) :
    RowEncodes ⟨opc, fmt, pattern, mask, threePayload k⟩ := by
  intro h payload i _ hm hb
  match payload, hb with
  | [a, b, c], rfl => exact hk h a b c hm

/-- R115: LEN has twelve bits, so that the payload it announces fits an encoding. -/
theorem rowEncodes_bulkPayload {k : List Word → Instr} (hpattern : pattern = headerI opc 0#8 0#8) (hmask : mask = lenMask)
    (hwf : ∀ ws, (k ws).wf = bulkFits ws) (henc : ∀ ws, encode (k ws) = .packet (headerL opc ws :: ws)) :
    RowEncodes ⟨opc, .l, pattern, mask, bulkPayload k⟩ := by
  subst hpattern hmask
  intro h payload i hlen hm hb
  cases hb
  have hlt : payload.length < 4096 := hlen ▸ (h.extractLsb' 0 12).isLt
  exact ⟨(hwf payload).trans ((bulkFits_iff payload).mpr hlt), by rw [henc, headerL_of_and_lenMask hm hlen]⟩

end Rows

/-- R113, R114: the header of a row without index fields. -/
theorem header_of_fixed {h : Word} {opc : Byte} (hm : h &&& 0xFFFFFFFF#32 = headerI opc 0#8 0#8) : headerI opc 0#8 0#8 = h := by
  rw [← hm]
  exact BitVec.and_allOnes

/-- R113. -/
theorem header_of_format_z {h : Word} {opc : Byte} (hm : h &&& 0xFFFFFFFF#32 = headerI opc 0#8 0#8) : headerZ opc = h :=
  (headerZ_eq_headerI opc).trans (header_of_fixed hm)

/-- R114: the header of a row with the one index field A. -/
theorem header_of_fieldA {h : Word} {opc : Byte} (hm : h &&& indexMask 0x00#8 0xFF#8 = headerI opc 0#8 0#8) :
    headerI opc (fieldA h) 0#8 = h := by
  obtain ⟨hh, -, hb⟩ := header_of_and_indexMask hm
  rwa [(byte_and_ones _).symm.trans hb] at hh

/-- R114: the header of a row with the one index field B. -/
theorem header_of_fieldB {h : Word} {opc : Byte} (hm : h &&& indexMask 0xFF#8 0x00#8 = headerI opc 0#8 0#8) :
    headerI opc 0#8 (fieldB h) = h := by
  obtain ⟨hh, ha, -⟩ := header_of_and_indexMask hm
  rwa [(byte_and_ones _).symm.trans ha] at hh

/-- R114: the header of a row with both index fields. -/
theorem header_of_fieldsAB {h : Word} {opc : Byte} (hm : h &&& indexMask 0x00#8 0x00#8 = headerI opc 0#8 0#8) :
    headerI opc (fieldA h) (fieldB h) = h := (header_of_and_indexMask hm).1

/-- R120, row by row. -/
theorem rowEncodes_of_mem : ∀ r ∈ opcodeTable, RowEncodes r := by
  simp only [opcodeTable, List.forall_mem_cons, List.not_mem_nil, false_implies, implies_true, and_true]
  exact ⟨
    rowEncodes_noPayload fun h hm => ⟨rfl, by rw [encode, header_of_format_z hm]⟩,
    rowEncodes_threePayload fun h a b c hm => ⟨rfl, by rw [encode, header_of_fieldA hm]⟩,
    rowEncodes_noPayload fun h hm => ⟨rfl, by rw [encode, header_of_fieldsAB hm]⟩,
    rowEncodes_onePayload fun h a hm => ⟨rfl, by rw [encode, header_of_fixed hm]⟩,
    rowEncodes_onePayload fun h a hm => ⟨rfl, by rw [encode, header_of_fieldA hm]⟩,
    rowEncodes_bulkPayload rfl rfl (fun _ => rfl) fun _ => rfl,
    rowEncodes_twoPayload fun h a b hm => ⟨rfl, by rw [encode, header_of_fixed hm]⟩,
    rowEncodes_twoPayload fun h a b hm => ⟨rfl, by rw [encode, header_of_fixed hm]⟩,
    rowEncodes_twoPayload fun h a b hm => ⟨rfl, by rw [encode, header_of_fixed hm]⟩,
    rowEncodes_twoPayload fun h a b hm => ⟨rfl, by rw [encode, header_of_fieldA hm]⟩,
    rowEncodes_onePayload fun h a hm => ⟨rfl, by rw [encode, header_of_fixed hm]⟩,
    rowEncodes_noPayload fun h hm => ⟨rfl, by rw [encode, header_of_fieldB hm]⟩,
    rowEncodes_onePayload fun h a hm => ⟨rfl, by rw [encode, header_of_fieldA hm]⟩,
    rowEncodes_bulkPayload rfl rfl (fun _ => rfl) fun _ => rfl,
    rowEncodes_onePayload fun h a hm => ⟨rfl, by rw [encode, header_of_fieldA hm]⟩,
    rowEncodes_bulkPayload rfl rfl (fun _ => rfl) fun _ => rfl,
    rowEncodes_onePayload fun h a hm => ⟨rfl, by rw [encode, header_of_fieldsAB hm]⟩,
    rowEncodes_bulkPayload rfl rfl (fun _ => rfl) fun _ => rfl,
    rowEncodes_noPayload fun h hm => ⟨rfl, by rw [encode, header_of_fieldA hm]⟩,
    rowEncodes_noPayload fun h hm => ⟨rfl, by rw [encode, header_of_format_z hm]⟩,
    rowEncodes_noPayload fun h hm => ⟨rfl, by rw [encode, header_of_fieldA hm]⟩,
    rowEncodes_noPayload fun h hm => ⟨rfl, by rw [encode, header_of_format_z hm]⟩,
    rowEncodes_noPayload fun h hm => ⟨rfl, by rw [encode, header_of_format_z hm]⟩,
    rowEncodes_noPayload fun h hm => ⟨rfl, by rw [encode, header_of_format_z hm]⟩,
    rowEncodes_noPayload fun h hm => ⟨rfl, by rw [encode, header_of_format_z hm]⟩,
    rowEncodes_noPayload fun h hm => ⟨rfl, by rw [encode, header_of_format_z hm]⟩⟩

theorem mem_of_rowOf {opc : Byte} {r : Row} (h : rowOf opc = some r) : r ∈ opcodeTable := List.mem_of_find?_eq_some h

/-- Words that stand for an instruction are its encoding. -/
theorem Reads.encodes {h : Word} {payload : List Word} {i : Instr} (hread : Reads h payload i) :
    i.wf = true ∧ encode i = .packet (h :: payload) := by
  obtain ⟨r, hr, hlen, hm, hb⟩ := hread
  exact rowEncodes_of_mem r (mem_of_rowOf hr) h payload i hlen hm hb

/-! ### From the instruction to words -/

/-- R114: the header of a command with the one index field A has the bits its row fixes. -/
theorem headerI_and_maskA (opc a : Byte) : headerI opc a 0#8 &&& indexMask 0x00#8 0xFF#8 = headerI opc 0#8 0#8 := by
  rw [headerI_and_indexMask, BitVec.and_zero, byte_and_ones]

theorem headerI_and_maskB (opc b : Byte) : headerI opc 0#8 b &&& indexMask 0xFF#8 0x00#8 = headerI opc 0#8 0#8 := by
  rw [headerI_and_indexMask, BitVec.and_zero, byte_and_ones]

theorem headerI_and_maskAB (opc a b : Byte) : headerI opc a b &&& indexMask 0x00#8 0x00#8 = headerI opc 0#8 0#8 := by
  rw [headerI_and_indexMask, BitVec.and_zero, BitVec.and_zero]

/-- R112, R120: header and payload of a well-formed instruction's encoding stand for it, when the header has the bits the
instruction's row fixes and the row builds the instruction from them. -/
theorem reads_of_headerForm {i : Instr} (hform : Laws.HeaderForm.Statement i) (hwf : i.wf = true) {h : Word}
    {payload ws : List Word} (henc : encode i = .packet ws) (hws : encode i = .packet (h :: payload)) {r : Row}
    (hr : rowOf (opcodeOf i) = some r) (hm : h &&& r.mask = r.pattern) (hb : r.build h payload = some i) :
    ∃ h payload, ws = h :: payload ∧ Reads h payload i := by
  obtain ⟨hopc, hlen⟩ := hform h payload hws hwf
  have hrow : rowOf (opcOf h) = some r := hopc ▸ hr
  rw [payloadLen, hrow] at hlen
  exact ⟨h, payload, Request.packet.inj (henc.symm.trans hws), r, hrow, hlen.symm, hm, hb⟩

open Laws in
/-- R120, instruction by instruction: a well-formed instruction's packet stands for it. -/
theorem reads_of_encode {i : Instr} (hwf : i.wf = true) {ws : List Word} (henc : encode i = .packet ws) :
    ∃ h payload, ws = h :: payload ∧ Reads h payload i := by
  cases i with
  | proc => cases henc
  | nop => exact reads_of_headerForm HeaderForm.nop hwf henc rfl rfl BitVec.and_allOnes rfl
  | init order fs lowMs highMs =>
    exact reads_of_headerForm (HeaderForm.init order fs lowMs highMs) hwf henc rfl rfl (headerI_and_maskA _ _)
      (congrArg (fun order => some (Instr.init order fs lowMs highMs)) (fieldA_headerI _ _ _))
  | updord o sel =>
    exact reads_of_headerForm (HeaderForm.updord o sel) hwf henc rfl rfl (headerI_and_maskAB _ _ _)
      (congrArg₂ (fun o sel => some (Instr.updord o sel)) (fieldA_headerI _ _ _) (fieldB_headerI _ _ _))
  | upddly ms => exact reads_of_headerForm (HeaderForm.upddly ms) hwf henc rfl rfl BitVec.and_allOnes rfl
  | setdly j ms =>
    exact reads_of_headerForm (HeaderForm.setdly j ms) hwf henc rfl rfl (headerI_and_maskA _ _)
      (congrArg (fun j => some (Instr.setdly j ms)) (fieldA_headerI _ _ _))
  | setdlys ms => exact reads_of_headerForm (HeaderForm.setdlys ms) hwf henc rfl rfl (headerL_and_lenMask _ _) rfl
  | setls d f => exact reads_of_headerForm (HeaderForm.setls d f) hwf henc rfl rfl BitVec.and_allOnes rfl
  | seths d f => exact reads_of_headerForm (HeaderForm.seths d f) hwf henc rfl rfl BitVec.and_allOnes rfl
  | updmod d r => exact reads_of_headerForm (HeaderForm.updmod d r) hwf henc rfl rfl BitVec.and_allOnes rfl
  | updmodl j d r =>
    exact reads_of_headerForm (HeaderForm.updmodl j d r) hwf henc rfl rfl (headerI_and_maskA _ _)
      (congrArg (fun j => some (Instr.updmodl j d r)) (fieldA_headerI _ _ _))
  | setmix w => exact reads_of_headerForm (HeaderForm.setmix w) hwf henc rfl rfl BitVec.and_allOnes rfl
  | settopo sel =>
    exact reads_of_headerForm (HeaderForm.settopo sel) hwf henc rfl rfl (headerI_and_maskB _ _)
      (congrArg (fun sel => some (Instr.settopo sel)) (fieldB_headerI _ _ _))
  | setb j v =>
    exact reads_of_headerForm (HeaderForm.setb j v) hwf henc rfl rfl (headerI_and_maskA _ _)
      (congrArg (fun j => some (Instr.setb j v)) (fieldA_headerI _ _ _))
  | setbs v => exact reads_of_headerForm (HeaderForm.setbs v) hwf henc rfl rfl (headerL_and_lenMask _ _) rfl
  | setc j v =>
    exact reads_of_headerForm (HeaderForm.setc j v) hwf henc rfl rfl (headerI_and_maskA _ _)
      (congrArg (fun j => some (Instr.setc j v)) (fieldA_headerI _ _ _))
  | setcs v => exact reads_of_headerForm (HeaderForm.setcs v) hwf henc rfl rfl (headerL_and_lenMask _ _) rfl
  | setcell r c v =>
    exact reads_of_headerForm (HeaderForm.setcell r c v) hwf henc rfl rfl (headerI_and_maskAB _ _ _)
      (congrArg₂ (fun r c => some (Instr.setcell r c v)) (fieldA_headerI _ _ _) (fieldB_headerI _ _ _))
  | setmat m => exact reads_of_headerForm (HeaderForm.setmat m) hwf henc rfl rfl (headerL_and_lenMask _ _) rfl
  | getb j =>
    exact reads_of_headerForm (HeaderForm.getb j) hwf henc rfl rfl (headerI_and_maskA _ _)
      (congrArg (fun j => some (Instr.getb j)) (fieldA_headerI _ _ _))
  | getbs => exact reads_of_headerForm HeaderForm.getbs hwf henc rfl rfl BitVec.and_allOnes rfl
  | getc j =>
    exact reads_of_headerForm (HeaderForm.getc j) hwf henc rfl rfl (headerI_and_maskA _ _)
      (congrArg (fun j => some (Instr.getc j)) (fieldA_headerI _ _ _))
  | getcs => exact reads_of_headerForm HeaderForm.getcs hwf henc rfl rfl BitVec.and_allOnes rfl
  | getdlys => exact reads_of_headerForm HeaderForm.getdlys hwf henc rfl rfl BitVec.and_allOnes rfl
  | getmat => exact reads_of_headerForm HeaderForm.getmat hwf henc rfl rfl BitVec.and_allOnes rfl
  | getstat => exact reads_of_headerForm HeaderForm.getstat hwf henc rfl rfl BitVec.and_allOnes rfl
  | clrerr => exact reads_of_headerForm HeaderForm.clrerr hwf henc rfl rfl BitVec.and_allOnes rfl

/-- R110: the operation a request on the audio port encodes is `PROC`. -/
theorem encode_eq_audio {i : Instr} {req : BitVec 40} (henc : encode i = .audio req) : ∃ ch x, i = .proc ch x ∧ req = ch ++ x := by
  cases i with
  | proc ch x => exact ⟨ch, x, rfl, (Request.audio.inj henc).symm⟩
  | _ => cases henc

/-- R116: the request made of a channel and a sample. -/
theorem decodeAudio_append (ch : Byte) (x : Word) : decodeAudio (ch ++ x) = .proc ch x := by
  rw [decodeAudio, BitVec.extractLsb'_append_eq_left, BitVec.extractLsb'_append_eq_right]

/-- R116: every request is the one made of its channel and its sample. -/
theorem encode_decodeAudio (req : BitVec 40) : encode (decodeAudio req) = .audio req :=
  congrArg Request.audio ((BitVec.extractLsb'_append_extractLsb'_eq_extractLsb' rfl).trans BitVec.extractLsb'_eq_self)

/-- R112, R120: the decoder reads a well-formed instruction from its packet, whatever words follow. -/
theorem decodePacket_encode {i : Instr} (hwf : i.wf = true) {ws : List Word} (henc : encode i = .packet ws) (later : List Word) :
    decodePacket (ws ++ later) = .command i later := by
  obtain ⟨h, payload, rfl, hread⟩ := reads_of_encode hwf henc
  exact decodePacket_eq_command_iff.mpr ⟨h, payload, rfl, hread⟩

theorem decodeRequest_encode {i : Instr} (hwf : i.wf = true) : decodeRequest (encode i) = some i := by
  cases henc : encode i with
  | packet ws =>
    have hdec := decodePacket_encode hwf henc []
    rw [List.append_nil] at hdec
    simp only [decodeRequest, hdec]
  | audio req =>
    obtain ⟨ch, x, rfl, rfl⟩ := encode_eq_audio henc
    exact congrArg some (decodeAudio_append ch x)

/-- Settles O1: the packet of every instruction stands for it (`reads_of_encode`), and the decoder reads what the words stand for
(`decodePacket_eq_command_iff`). -/
theorem decodeEncodeRoundTrip : Obligations.DecodeEncodeRoundTrip := fun _ hwf =>
  ⟨decodeRequest_encode hwf, fun _ henc later => decodePacket_encode hwf henc later⟩

/-- Settles O2: the words the decoder reads stand for the instruction, and each row of the opcode map reads nothing but encodings
(`rowEncodes_of_mem`). -/
theorem decodedWordsAreEncodings : Obligations.DecodedWordsAreEncodings := by
  refine ⟨fun q i later hdec => ?packet, encode_decodeAudio⟩
  case packet =>
    obtain ⟨h, payload, rfl, hread⟩ := decodePacket_eq_command_iff.mp hdec
    obtain ⟨hwf, henc⟩ := hread.encodes
    exact ⟨hwf, h :: payload, henc, rfl⟩

end Sys2Proof
end

section
/-! PROOFS. What the agents do with words that are no command, and with an audio request: an unknown opcode, a reserved bit that is
set, a packet that is not complete (spec/30_encoding.md R112, R116, R121, R122, R124). -/

namespace Sys2Proof.Machine

/-! ### The opcode of a header -/

theorem opcOf_toNat (h : Word) : (opcOf h).toNat = h.toNat / 2 ^ 24 := by
  rw [opcOf, BitVec.extractLsb'_toNat, Nat.shiftRight_eq_div_pow]
  have := h.isLt
  omega

theorem opcOf_eq {h : Word} {opc : Byte} (hopc : h.toNat / 2 ^ 24 = opc.toNat) : opcOf h = opc :=
  BitVec.eq_of_toNat_eq ((opcOf_toNat h).trans hopc)

theorem ofNat_div_eq_opcOf (h : Word) : BitVec.ofNat 8 (h.toNat / 2 ^ 24) = opcOf h := by
  rw [← opcOf_toNat, BitVec.ofNat_toNat, BitVec.setWidth_eq]

theorem lenOf_eq (h : Word) : lenOf h = h.toNat % 2 ^ 12 := by
  rw [lenOf, BitVec.extractLsb'_toNat, Nat.shiftRight_zero]

/-- R120: the three ranges of opcodes in the map. -/
theorem opc_ranges : ∀ r ∈ opcodeTable,
    r.opc.toNat ≤ 0x0B ∨ (0x10 ≤ r.opc.toNat ∧ r.opc.toNat ≤ 0x15) ∨ (0x20 ≤ r.opc.toNat ∧ r.opc.toNat ≤ 0x27) := by
  decide

/-- R121: an opcode in one of the three ranges between them has no row. -/
theorem rowOf_eq_none {opc : Byte}
    (h : (0x0C ≤ opc.toNat ∧ opc.toNat ≤ 0x0F) ∨ (0x16 ≤ opc.toNat ∧ opc.toNat ≤ 0x1F) ∨ 0x28 ≤ opc.toNat) :
    rowOf opc = none := by
  refine List.find?_eq_none.mpr fun r hr heq => ?_
  have hranges := opc_ranges r hr
  rw [beq_iff_eq.mp heq] at hranges
  omega

/-! ### The header forms of the statements are the rows of the opcode map -/

/-- R113 to R115: what a row says of a header: its opcode, the bits that must be zero, the number of payload words. -/
def rowForm (r : Row) : Byte × Word × Option Nat :=
  (r.opc, r.mask &&& 0x00FFFFFF#32, match r.fmt with
    | .z => some 0
    | .i p => some p
    | .l => none)

theorem headerForms_eq : headerForms = opcodeTable.map rowForm := by decide

theorem nodup_opcodes : (opcodeTable.map Row.opc).Nodup := by decide

/-- R120: each opcode has one row. -/
theorem rowOf_of_mem {r : Row} (hr : r ∈ opcodeTable) : rowOf r.opc = some r := by
  cases hrow : rowOf r.opc with
  | none => exact absurd (beq_self_eq_true r.opc) (List.find?_eq_none.mp hrow r hr)
  | some r' =>
    have hopc : r'.opc = r.opc := beq_iff_eq.mp (List.find?_some (p := fun r' : Row => r'.opc == r.opc) hrow)
    rw [List.inj_on_of_nodup_map nodup_opcodes (mem_of_rowOf hrow) hr hopc]

/-- R113 to R115: below the opcode, the bits a row fixes are zero. -/
theorem pattern_below_opcode : ∀ r ∈ opcodeTable, r.pattern &&& 0x00FFFFFF#32 = 0#32 := by decide

theorem payloadLen_eq_getD (r : Row) (h : Word) : r.payloadLen h = (rowForm r).2.2.getD (h.toNat % 2 ^ 12) := by
  rw [← lenOf_eq, Row.payloadLen, rowForm]
  cases r.fmt <;> rfl

/-- The row that a header form of the statements is about. -/
theorem row_of_headerForm {h : Word} {opc : Byte} {mbz : Word} {p : Option Nat} (hform : (opc, mbz, p) ∈ headerForms)
    (hopc : h.toNat / 2 ^ 24 = opc.toNat) :
    ∃ r ∈ opcodeTable, rowOf (opcOf h) = some r ∧ mbz = r.mask &&& 0x00FFFFFF#32 ∧
      r.payloadLen h = p.getD (h.toNat % 2 ^ 12) := by
  rw [headerForms_eq] at hform
  obtain ⟨r, hr, heq⟩ := List.mem_map.mp hform
  obtain ⟨rfl, rfl, rfl⟩ : r.opc = opc ∧ r.mask &&& 0x00FFFFFF#32 = mbz ∧ (rowForm r).2.2 = p := by
    simpa only [rowForm, Prod.mk.injEq] using heq
  exact ⟨r, hr, opcOf_eq hopc ▸ rowOf_of_mem hr, rfl, payloadLen_eq_getD r h⟩

/-- R122: a header that agrees with its row has its must-be-zero bits zero. -/
theorem reserved_of_pattern {h : Word} {r : Row} (hr : r ∈ opcodeTable) (hm : h &&& r.mask = r.pattern) :
    h &&& (r.mask &&& 0x00FFFFFF#32) = 0#32 := by
  rw [← BitVec.and_assoc, hm, pattern_below_opcode r hr]

/-! ### The turn of the control agent -/

theorem controlTurn_illegal {s : State} {opc : Byte} {why : IllegalReason} {rest : List Word} (hrun : s.running = none)
    (hdec : decodePacket s.cmdq = .illegal opc why rest) : controlTurn s = .next (rejectedAs { s with cmdq := rest } opc 1) := by
  simp only [controlTurn, hrun, hdec]
  rfl

theorem controlTurn_incomplete {s : State} (hrun : s.running = none) (hdec : decodePacket s.cmdq = .incomplete) :
    controlTurn s = .next s := by
  simp only [controlTurn, hrun, hdec]

/-- R121, R122: a step whose control turn finds an illegal packet. -/
theorem step_illegal {s : State} {later : List HostEvent} {opc : Byte} {why : IllegalReason} {rest : List Word}
    (hinbox : s.inbox = .control :: later) (hrun : s.running = none) (hdec : decodePacket s.cmdq = .illegal opc why rest) :
    step s = .next (rejectedAs { handling s later with cmdq := rest } opc 1) :=
  (step_control hinbox).trans (controlTurn_illegal (s := handling s later) hrun hdec)

/-- Settles O4: an opcode of the three ranges has no row (`rowOf_eq_none`). -/
theorem unknownOpcodeRejected : Obligations.UnknownOpcodeRejected := by
  intro s later h ws hinbox hrun hq hrange
  rw [← opcOf_toNat] at hrange
  rw [ofNat_div_eq_opcOf]
  exact step_illegal hinbox hrun (by rw [hq, decodePacket_unknown (rowOf_eq_none hrange)])

/-- Settles O5: the header does not agree with its row (`reserved_of_pattern`), whose payload is consumed all the same. -/
theorem reservedFieldRejected : Obligations.ReservedFieldRejected := by
  intro s later h payload ws opc mbz p hinbox hrun hq hform hopc hset hlen
  obtain ⟨r, hr, hrow, rfl, hpayload⟩ := row_of_headerForm hform hopc
  have hbad : ¬h &&& r.mask = r.pattern := fun hm => hset (reserved_of_pattern hr hm)
  exact step_illegal hinbox hrun
    (by rw [hq, decodePacket_complete hrow (hlen.trans hpayload.symm), if_neg hbad, opcOf_eq hopc])

/-- Settles O6: the decoder finds the packet incomplete, with no header and with too few payload words. -/
theorem partialPacketWaits : Obligations.PartialPacketWaits := by
  intro s later hinbox hrun hpartial
  have hdec : decodePacket s.cmdq = .incomplete := by
    rcases hpartial with hq | ⟨h, ws, opc, mbz, p, hq, hform, hopc, hshort⟩
    · rw [hq, decodePacket]
    · obtain ⟨r, -, hrow, -, hpayload⟩ := row_of_headerForm hform hopc
      rw [hq, decodePacket_partial hrow (hpayload ▸ hshort)]
  exact (step_control hinbox).trans (controlTurn_incomplete (s := handling s later) hrun hdec)

/-! ### The audio port -/

/-- Settles O8: the request decodes to the PROC of its channel and sample (`decodeAudio_append`). -/
theorem stepRunsAudioRequest : Obligations.StepRunsAudioRequest := by
  intro s later ch x hinbox
  rw [step_event hinbox, handleEvent, audioTurn, decodeAudio_append, handling_eq_takeEvent]

end Sys2Proof.Machine
end

section
/-! PROOFS. The responses (spec/30_encoding.md R118): a command that ends appends one response packet; a phase that is not the last
of its command, and `PROC`, append nothing. -/

namespace Sys2Proof.Machine

/-- R118: from s to t one response packet has been appended, whose header has the opcode `opc`. -/
def Responds (opc : Byte) (s t : State) : Prop :=
  ∃ (data : List Word) (code : Byte), data.length < 4096 ∧ (code ≠ 0#8 → data = []) ∧
    t.rspq = s.rspq ++ (opc ++ BitVec.ofNat 12 data.length ++ 0#4 ++ code) :: data

/-- A command under way has appended nothing. -/
def StillRunning (i : Instr) (s t : State) : Prop := t.running = some i ∧ t.rspq = s.rspq

section Endings

variable {opc : Byte} {s u : State} {data : List Word}

theorem responds_ok (hu : u.rspq = s.rspq) (hdata : data.length < 4096) : Responds opc s (respond u opc .ok data) :=
  ⟨data, 0#8, hdata, fun h => absurd rfl h, by rw [respond_rspq, hu]; rfl⟩

theorem responds_complete (hu : u.rspq = s.rspq) (hdata : data.length < 4096) : Responds opc s (complete u opc data) :=
  responds_ok (u := { u with lastErr := 0#8 }) hu hdata

/-- A completion without data words. -/
theorem responds_done (hu : u.rspq = s.rspq) : Responds opc s (complete u opc []) := responds_complete hu (by simp)

theorem responds_raiseCode (hu : u.rspq = s.rspq) (c : Code) : Responds opc s (raiseCode u opc c) :=
  ⟨[], codeNumber c, by simp, fun _ => rfl, by rw [raiseCode_rspq, hu]; rfl⟩

theorem responds_completeSearch (hu : u.rspq = s.rspq) (short : Bool) : Responds opc s (completeSearch u opc short) := by
  cases short
  · exact responds_done hu
  · exact responds_raiseCode hu .primeShort

end Endings

/-- R310: a snapshot has at most N words. -/
theorem length_snapshot_le (s : State) (f : Line → Word) : (snapshot s f).length ≤ s.n := by
  rw [snapshot, List.length_map, List.length_take]
  exact Nat.min_le_left _ _

/-- R316: the flattened matrix has N*N words. -/
theorem length_flatMatrix (s : State) : (flatMatrix s).length = s.n * s.n := by
  rw [flatMatrix, List.length_map, List.length_range]

/-- R200, R205: a phase leaves the command under way with no response, but for the last, which responds. -/
theorem phase_responds {i : Instr} {s t : State} (h : Phase i s t) : StillRunning i s t ∨ Responds (opcodeOf i) s t := by
  cases h with
  | initBegin | updordBegin => exact .inl ⟨rfl, rfl⟩
  | initBody _ _ _ _ _ hr | updordClear _ _ _ hr | updordDraw _ _ _ hr | updordSearch _ _ _ hr | updordSeed _ _ _ hr
  | updordTopology _ _ _ hr => exact .inl ⟨hr, rfl⟩
  | initEnd | updordEnd => exact .inr (responds_completeSearch rfl _)

/-- What the effect of a command of the control port appends. -/
theorem effect_responds {i : Instr} {s t : State} (hn : s.n ≤ 63) (h : Effect i s t) (hproc : ∀ ch x, i ≠ .proc ch x) :
    StillRunning i s t ∨ Responds (opcodeOf i) s t := by
  have hlines : ∀ f, (snapshot s f).length < 4096 := fun f => (length_snapshot_le s f).trans_lt (by omega)
  cases h with
  | procSilent ch x | proc ch x => exact absurd rfl (hproc ch x)
  | phase h => exact phase_responds h
  | getstat => exact .inr (responds_ok rfl (by simp))
  | getb | getc => exact .inr (responds_complete rfl (by simp))
  | getbs | getcs | getdlys => exact .inr (responds_complete rfl (hlines _))
  | getmat =>
    have hcells : s.n * s.n ≤ 63 * 63 := Nat.mul_le_mul hn hn
    exact .inr (responds_complete rfl (by rw [length_flatMatrix]; omega))
  | upddly ms =>
    obtain ⟨ls, short, he⟩ := updateDelay_writes ms s
    rw [he]
    exact .inr (responds_completeSearch rfl short)
  | setmat m =>
    obtain ⟨cm, he⟩ := writeCells_writes s.n 0 m s
    rw [he]
    exact .inr (responds_done rfl)
  | nop | clrerr | setb | setbs | setc | setcs | setmix | settopo | setcell | setls | seths | updmod | updmodl | setdly | setdlys =>
    exact .inr (responds_done rfl)

/-- R118: `PROC` produces no response. -/
theorem exec_proc_rspq {ch : Byte} {x : Word} {s t : State} (h : exec (.proc ch x) s = .next t) : t.rspq = s.rspq := by
  cases exec_cases h with
  | rejected c hopc => exact absurd hopc (by simp [opcodeOf])
  | accepted he =>
    cases he with
    | procSilent | proc => rfl
    | phase hp => cases hp

/-- R118: every command either is still under way or has responded. -/
theorem exec_responds {i : Instr} {s t : State} (hn : s.n ≤ 63) (h : exec i s = .next t) (hproc : ∀ ch x, i ≠ .proc ch x) :
    StillRunning i s t ∨ Responds (opcodeOf i) s t := by
  cases exec_cases h with
  | rejected c => exact .inr (responds_raiseCode rfl c)
  | accepted he => exact effect_responds hn he hproc

/-- Settles O15, by cases on what the operation can do (`exec_cases`). -/
theorem oneResponsePerCommand : Obligations.OneResponsePerCommand :=
  fun _ _ _ hn h => ⟨fun ⟨_, _, hi⟩ => exec_proc_rspq (hi ▸ h), exec_responds hn h⟩

end Sys2Proof.Machine
end

section
/-! PROOFS. The delay line (spec/40_delay_line.md R140 to R148): the clamp of `DL_setDelay`, the ring of taps, what a `PROC` stores,
and the pop at a whole delay. -/

namespace Sys2Proof.Machine

/-! ### DL_setDelay (R141) -/

/-- R141: a length that is no NaN replaces the delay, whatever the old one was. -/
theorem dlSetDelay_forgets (c : Cfg) (q : Site) {len : Word} (hlen : isNaN len = false) (l : Line) (d : Word) :
    (dlSetDelay c q len { l with delay := d }).delay = (dlSetDelay c q len l).delay := by
  simp only [dlSetDelay, hlen, Bool.false_eq_true, if_false, apply_ite Line.delay]

/-- A length that lies in [0, CAP] is finite. -/
theorem isFinite_of_not_clamped {c : Cfg} (h : c.num.ieee = true) (hcap : c.cap < 2 ^ 24) {len : Word} (hnan : isNaN len = false)
    (hneg : ¬flt len f0 = true) (hhigh : ¬flt (u2f c c.cap) len = true) : isFinite len = true := by
  rw [flt_zero_iff hnan] at hneg
  rw [flt_iff (isNaN_u2f_cap h hcap) hnan, val_u2f h hcap] at hhigh
  have hmag := val_natAbs len
  exact isFinite_of_mag_lt hnan (by omega)

/-- R38, R141: the clamp leaves the delay in [0, CAP] when the length is no NaN, or when the old delay lay there. -/
theorem dlSetDelay_inRange_of {c : Cfg} (h : c.num.ieee = true) (hcap : c.cap < 2 ^ 24) (q : Site) {len : Word} {l : Line}
    (hl : isNaN len = false ∨ DelayInRange c l.delay) : DelayInRange c (dlSetDelay c q len l).delay := by
  rcases hl with hlen | hl
  · rw [← dlSetDelay_forgets c q hlen l f0]
    exact dlSetDelay_inRange h hcap q len (delayInRange_zero h hcap)
  · exact dlSetDelay_inRange h hcap q len hl

theorem DelayInRange.not_isNaN {c : Cfg} {d : Word} (hd : DelayInRange c d) : isNaN d = false := by
  obtain ⟨hle, -⟩ := hd
  simp only [fle, Bool.and_eq_true, Bool.not_eq_true'] at hle
  obtain ⟨⟨-, hnan⟩, -⟩ := hle
  exact hnan

/-- Settles O51, along the branches of the clamp; the last one adds +0.0 to a finite length (`fadd_zero_right`). -/
theorem setDelayClamps : Obligations.SetDelayClamps := by
  intro c q len l hcap
  refine ⟨q, ?_, fun h hl => ?_⟩
  · unfold dlSetDelay f0
    split_ifs with hnan hneg hhigh hnum hzero
    · rfl
    · rfl
    · rfl
    · rfl
    · rw [fadd_zero_right (by simpa using hnum) (by rw [hzero]; rfl), if_pos hzero]
    · have h : c.num.ieee = true := by simpa using hnum
      have hfin := isFinite_of_not_clamped h hcap (by simpa using hnan) hneg hhigh
      rw [fadd_zero_right h hfin, if_neg hzero]
  · have hrange : DelayInRange c _ := dlSetDelay_inRange_of h hcap q hl
    exact ⟨hrange.1, hrange.2, hrange.not_isNaN⟩

/-! ### The ring of taps (R140, R143, R144) -/

/-- R144: the word index of tap k, for a cursor in the buffer. -/
theorem tapIndex_eq {size w k : Nat} (hw : w < size) (hk : k < size) :
    (w + size - k) % size = if k ≤ w then w - k else w + size - k := by
  split_ifs with hle
  · rw [show w + size - k = w - k + size by omega, Nat.add_mod_right, Nat.mod_eq_of_lt (by omega)]
  · exact Nat.mod_eq_of_lt (by omega)

/-- R145: the cursor after an advance. -/
theorem cursor_advance {size w : Nat} (hw : w < size) : (w + 1) % size = if w + 1 = size then 0 else w + 1 := by
  split_ifs with hlast
  · rw [hlast, Nat.mod_self]
  · exact Nat.mod_eq_of_lt (by omega)

/-- R83: the taps of a buffer lie at distinct words. -/
theorem tapIndex_inj {size w k j : Nat} (hw : w < size) (hk : k < size) (hj : j < size)
    (h : (w + size - k) % size = (w + size - j) % size) : k = j := by
  rw [tapIndex_eq hw hk, tapIndex_eq hw hj] at h
  split_ifs at h <;> omega

/-- R140: seen from the advanced cursor a word is one tap older. -/
theorem tapIndex_advance {size w k : Nat} (hw : w < size) (hk : k + 1 < size) :
    ((w + 1) % size + size - (k + 1)) % size = (w + size - k) % size := by
  rw [tapIndex_eq (Nat.mod_lt _ (by omega)) hk, tapIndex_eq hw (by omega), cursor_advance hw]
  split_ifs <;> omega

/-- R143, R144: a tap after a push: tap 0 is the pushed word, an older tap is as before. -/
theorem tap_dlPush {c : Cfg} {l : Line} (hw : l.w < c.buflen) (hbuf : memWf c.buflen l.buf = true) (u : Word) {k : Nat}
    (hk : k < c.buflen) : tap c (dlPush u l) k = if k = 0 then u else tap c l k := by
  have hindex : l.w = (l.w + c.buflen - k) % c.buflen ↔ k = 0 := by
    rw [tapIndex_eq hw hk]
    split_ifs <;> omega
  simp only [tap, dlPush, memRead_memWrite (memWf_rising hbuf), hindex]

/-- R140, R145: an advance of the cursor makes every tap one older. -/
theorem tap_dlAdvance {c : Cfg} {l : Line} (hw : l.w < c.buflen) {k : Nat} (hk : k + 1 < c.buflen) :
    tap c (dlAdvance c l) (k + 1) = tap c l k := by
  simp only [tap, dlAdvance, tapIndex_advance hw hk]

/-- Settles O52, by the reads of a tap after a push and after an advance. -/
theorem tapsShift : Obligations.TapsShift := by
  intro c l u hw hbuf
  have hsize : c.buflen = c.cap + 3 := rfl
  have hw' : (dlAdvance c l).w < c.buflen := Nat.mod_lt _ (buflen_pos c)
  refine ⟨?_, fun k hk j hj => tapIndex_inj hw (by omega) (by omega), fun k hk => ?_⟩
  · rw [tap_dlPush hw hbuf u (buflen_pos c), if_pos rfl]
  · rw [tap_dlPush hw' hbuf u (by omega), if_neg (Nat.succ_ne_zero k), tap_dlAdvance hw (by omega)]

/-! ### What a PROC stores (R143, R145, R250) -/

theorem setEach_getElem?_of_length_le {α : Type} (f : Line → α → Line) {as : List α} {j : Nat} (h : as.length ≤ j) (ls : List Line) :
    (setEach f as ls)[j]? = ls[j]? := by
  rw [setEach_getElem?, List.getElem?_eq_none h]

theorem setFbin_getElem? (us : List Word) {ls : List Line} {j : Nat} {l : Line} (h : ls[j]? = some l) :
    ∃ v, (setEach setFbin us ls)[j]? = some (setFbin l v) := by
  rw [setEach_getElem?, h]
  cases us[j]? with
  | none => exact ⟨l.fbin, rfl⟩
  | some v => exact ⟨v, rfl⟩

/-- R192: the product of the matrix and a vector has the vector's length. -/
theorem length_matApply (s : State) (q : Site) (v : List Word) : (matApply s q v).length = v.length := by
  unfold matApply
  split
  · rfl
  · rw [List.length_map, List.length_range]

/-- R250: what a PROC does to an active line: the line's own work, then the next feedback input. -/
theorem process_getElem?_active {s : State} {x : Word} {j : Nat} {l : Line} (hl : s.lines[j]? = some l) (hj : j < s.n) :
    ∃ q v, (process x s).lines[j]? = some (setFbin (procLine s q x l) v) := by
  have hwork : (updateFrom (fun i l => procLine s (i :: 0 :: [s.epoch]) x l) 0 s.n s.lines)[j]?
      = some (procLine s (j :: 0 :: [s.epoch]) x l) := by
    rw [updateFrom_getElem?, if_pos hj, hl, Nat.zero_add, Option.map_some]
  exact ⟨_, setFbin_getElem? _ hwork⟩

/-- R250: a PROC leaves a line that is not active. -/
theorem process_getElem?_idle {s : State} {x : Word} {j : Nat} (hj : s.n ≤ j) : (process x s).lines[j]? = s.lines[j]? := by
  unfold process
  dsimp only
  rw [setEach_getElem?_of_length_le, forActive, updateFrom_getElem?, if_neg (by omega)]
  rw [length_matApply, List.length_map, List.length_take]
  omega

theorem readDelayWord_of_line {s : State} {j : Nat} {l : Line} (h : s.lines[j]? = some l) (k : Nat) :
    readDelayWord s j k = memRead l.buf k := by
  rw [readDelayWord, lineAt, h, Option.getD_some]

/-- Settles O47, from the one store of a line's work (`procLine_writes`) and the reads after it. -/
theorem procStores : Obligations.ProcStores := by
  intro s t ch x hinv hrec hexec j l l' hl hl'
  obtain rfl : process x s = t := by
    simpa [exec, execProc, hrec] using hexec
  refine ⟨fun hj => ?_, fun hj => ?_⟩
  · obtain ⟨q, v, hline⟩ := process_getElem?_active (x := x) hl hj
    obtain ⟨d, cur, o, n, f, g, h, hwork⟩ := procLine_writes s q x l
    obtain rfl : setFbin (procLine s q x l) v = l' := Option.some.inj (hline.symm.trans hl')
    obtain ⟨-, -, hlines, -⟩ := structureOk_iff.mp hinv.structural
    obtain ⟨-, hbuf, -⟩ := lineOk_iff.mp (hlines l (List.mem_of_getElem? hl))
    rw [hwork] at hl' ⊢
    refine ⟨rfl, 1 :: q, 2 :: q, fun k => ?_⟩
    rw [readDelayWord_of_line hl', readDelayWord_of_line hl, setFbin, memRead_memWrite (memWf_rising hbuf)]
    exact if_congr eq_comm rfl rfl
  · rw [process_getElem?_idle hj, hl] at hl'
    exact (Option.some.inj hl').symm

/-! ### A word up to the sign of a zero -/

/-- R148 (a): `r` is the finite word `v`, up to the sign of a zero. -/
structure SameUpToZero (r v : Word) : Prop where
  finite : isFinite r = true
  value : val r = val v
  bits : val v ≠ 0 → r = v

theorem SameUpToZero.refl {v : Word} (hv : isFinite v = true) : SameUpToZero v v := ⟨hv, rfl, fun _ => rfl⟩

theorem SameUpToZero.trans {r u v : Word} (h : SameUpToZero r u) (h' : SameUpToZero u v) : SameUpToZero r v where
  finite := h.finite
  value := h.value.trans h'.value
  bits hv := (h.bits (by rwa [h'.value])).trans (h'.bits hv)

theorem SameUpToZero.feq {r v : Word} (hv : isFinite v = true) (h : SameUpToZero r v) : feq r v = true :=
  (feq_iff (not_isNaN_of_isFinite h.finite) (not_isNaN_of_isFinite hv)).mpr h.value

/-- A zero of either sign. -/
structure IsZero (z : Word) : Prop where
  finite : isFinite z = true
  value : val z = 0

theorem isZero_zeroOf (neg : Bool) : IsZero (zeroOf neg) := ⟨isFinite_zeroOf neg, val_zeroOf neg⟩

section Sums

variable {c : Cfg} (h : c.num.ieee = true)

include h

theorem fadd_isZero (q : Site) {a z : Word} (ha : isFinite a = true) (hz : IsZero z) : SameUpToZero (fadd c q a z) a := by
  rw [fadd_ieee h]
  obtain ⟨hfin, hval, hbits⟩ := val_ieeeAdd_zero (q := q) ha hz.finite hz.value
  exact ⟨hfin, hval, hbits⟩

theorem isZero_fadd (q : Site) {a z : Word} (ha : isFinite a = true) (hz : IsZero z) : SameUpToZero (fadd c q z a) a := by
  rw [fadd_ieee h]
  obtain ⟨hfin, hval, hbits⟩ := val_zero_ieeeAdd (q := q) ha hz.finite hz.value
  exact ⟨hfin, hval, hbits⟩

theorem fmul_isZero (q : Site) {a z : Word} (ha : isFinite a = true) (hz : IsZero z) : IsZero (fmul c q a z) := by
  rw [fmul_ieee h, ieeeMul_zero ha hz.finite (.inr (val_eq_zero.mp hz.value))]
  exact isZero_zeroOf _

theorem isZero_fmul (q : Site) {a z : Word} (ha : isFinite a = true) (hz : IsZero z) : IsZero (fmul c q z a) := by
  rw [fmul_ieee h, ieeeMul_zero hz.finite ha (.inl (val_eq_zero.mp hz.value))]
  exact isZero_zeroOf _

theorem fmul_one (q : Site) {a : Word} (ha : isFinite a = true) : fmul c q a f1 = a := by rw [fmul_ieee h, ieeeMul_one ha]

theorem one_fmul (q : Site) {a : Word} (ha : isFinite a = true) : fmul c q f1 a = a := by rw [fmul_ieee h, one_ieeeMul ha]

end Sums

/-! ### Sites: only the payload of a NaN depends on them -/

/-- The sum's site is read only where a NaN is produced. -/
theorem ieeeAdd_site {a b : Word} (q q' : Site) (h : isNaN (ieeeAdd q a b) = false) : ieeeAdd q' a b = ieeeAdd q a b := by
  by_cases hn : (isNaN a || isNaN b) = true
  · rw [ieeeAdd, if_pos hn, isNaN_nanAt] at h
    exact absurd h (by decide)
  · by_cases hinf : isInf a = true ∧ (isInf b && signOf a != signOf b) = true
    · rw [ieeeAdd, if_neg hn, if_pos hinf.1, if_pos hinf.2, isNaN_nanAt] at h
      exact absurd h (by decide)
    · unfold ieeeAdd
      rw [if_neg hn, if_neg hn]
      split_ifs with ha hopp
      · exact absurd ⟨ha, hopp⟩ hinf
      all_goals rfl

theorem fadd_site {c : Cfg} {q : Site} {a b : Word} (h : isNaN (fadd c q a b) = false) (q' : Site) :
    fadd c q' a b = fadd c q a b := numBinary_site ieeeAdd_site h q'

theorem fmul_site {c : Cfg} {q : Site} {a b : Word} (h : isNaN (fmul c q a b) = false) (q' : Site) :
    fmul c q' a b = fmul c q a b := numBinary_site ieeeMul_site h q'

/-- The operands of a sum that is no NaN are none. -/
theorem not_isNaN_of_fadd {c : Cfg} {q : Site} {a b : Word} (h : isNaN (fadd c q a b) = false) :
    isNaN a = false ∧ isNaN b = false := by
  have hnan : ¬(isNaN a = true ∨ isNaN b = true) := fun hn => by
    rw [isNaN_fadd hn] at h
    exact absurd h (by decide)
  simpa using hnan

/-- R146: the weighted sum of three taps is the same at every site, unless it is a NaN. -/
theorem weightedSum_site {c : Cfg} {p1 p2 p3 p4 p5 : Site} {v1 v2 v3 c2 c3 c4 : Word}
    (h : isNaN (fadd c p1 (fadd c p2 (fmul c p3 v1 c2) (fmul c p4 v2 c3)) (fmul c p5 v3 c4)) = false) (q1 q2 q3 q4 q5 : Site) :
    fadd c q1 (fadd c q2 (fmul c q3 v1 c2) (fmul c q4 v2 c3)) (fmul c q5 v3 c4)
      = fadd c p1 (fadd c p2 (fmul c p3 v1 c2) (fmul c p4 v2 c3)) (fmul c p5 v3 c4) := by
  obtain ⟨hsum, h3⟩ := not_isNaN_of_fadd h
  obtain ⟨h1, h2⟩ := not_isNaN_of_fadd hsum
  rw [fmul_site h1 q3, fmul_site h2 q4, fmul_site h3 q5, fadd_site hsum q2, fadd_site h q1]

/-! ### The pop at a whole delay (R145 to R148) -/

/-- R14: a whole number that is not negative is its own floor. -/
theorem ieeeFloor_whole {q : Site} {a : Word} (ha : isFinite a = true) (hs : signOf a = false) (hm : 2 ^ 149 ∣ mag a) :
    ieeeFloor q a = a := by
  rw [ieeeFloor, not_isNaN_of_isFinite ha, not_isInf_of_isFinite ha, hs, Nat.div_mul_cancel hm]
  by_cases h0 : mag a = 0
  · simp [h0]
  · simpa [h0, hs] using roundPack_self ha Nat.one_pos (Nat.mul_one (mag a)).symm

theorem fsub_self {c : Cfg} (h : c.num.ieee = true) (q : Site) {a : Word} (ha : isFinite a = true) : fsub c q a a = f0 := by
  rw [fsub_ieee h, ieeeSub_finite ha ha, Int.sub_self, if_pos rfl, Bool.and_not_self, zeroOf_false]
  rfl

/-- R145: at a whole delay the integer part is the delay and the fraction is +0.0. -/
theorem dlRead_whole {c : Cfg} (h : c.num.ieee = true) (q : Site) {l : Line} {n : Nat} (hn : n < 2 ^ 24) (hd : l.delay = u2f c n) :
    dlRead c q l = interpolate c (2 :: q) l n f0 := by
  obtain ⟨hfin, hsign, hmag⟩ := ieeeU2f_exact hn
  have hfloor : ffloor c (0 :: q) l.delay = u2f c n := by
    rw [hd, ffloor_ieee h, u2f_ieee h, ieeeFloor_whole hfin hsign ⟨n, by rw [hmag, Nat.mul_comm]⟩]
  rw [dlRead, hfloor, hd, f2n_u2f h hn, fsub_self h _ (by rwa [u2f_ieee h])]

/-- R146: the weights c1 to c4 of the four taps at position `dl`. -/
def lagrangeWeights (c : Cfg) (q : Site) (dl : Word) : Word × Word × Word × Word :=
  let d1 := fsub c (1 :: q) dl f1
  let d2 := fsub c (2 :: q) dl f2
  let d3 := fsub c (3 :: q) dl f3
  (fdiv c (4 :: q) (fmul c (5 :: q) (fmul c (6 :: q) (fneg d1) d2) d3) f6,
    fmul c (7 :: q) (fmul c (8 :: q) d2 d3) fHalf,
    fmul c (9 :: q) (fmul c (10 :: q) (fneg d1) d3) fHalf,
    fdiv c (11 :: q) (fmul c (12 :: q) d1 d2) f6)

/-- R146: the sum of the second, third and fourth tap from `base` on, in the order of the rule. -/
def lagrangeInner (c : Cfg) (q : Site) (l : Line) (base : Nat) (c2 c3 c4 : Word) : Word :=
  fadd c (13 :: q) (fadd c (14 :: q) (fmul c (15 :: q) (tap c l (base + 1)) c2) (fmul c (16 :: q) (tap c l (base + 2)) c3))
    (fmul c (17 :: q) (tap c l (base + 3)) c4)

/-- R146: the interpolation at position `dl` of the four taps from `base` on. -/
def lagrangeAt (c : Cfg) (q : Site) (l : Line) (base : Nat) (dl : Word) : Word :=
  match lagrangeWeights c q dl with
  | (c1, c2, c3, c4) =>
    fadd c (18 :: q) (fmul c (19 :: q) (tap c l base) c1) (fmul c (20 :: q) dl (lagrangeInner c q l base c2 c3 c4))

/-- R146: for n = 0 the position is the fraction, among the taps 0 to 3. -/
theorem lagrange3_zero (c : Cfg) (q : Site) (l : Line) (f : Word) : lagrange3 c q l 0 f = lagrangeAt c q l 0 f := rfl

/-- R146: for n >= 1 the position is the fraction plus 1.0, among the taps n - 1 to n + 2. -/
theorem lagrange3_succ (c : Cfg) (q : Site) (l : Line) (n : Nat) (f : Word) :
    lagrange3 c q l (n + 1) f = lagrangeAt c q l n (fadd c (0 :: q) f f1) := by
  simp only [lagrange3, Nat.le_add_left, if_true, Nat.add_sub_cancel, lagrangeAt, lagrangeInner, lagrangeWeights]

/-- R148 (a): at position 1 all weights but the second are zeros. -/
theorem lagrangeWeights_one {c : Cfg} (h : c.num.ieee = true) (q : Site) :
    lagrangeWeights c q f1 = (zeroOf true, f1, zeroOf false, zeroOf true) := by
  have hd1 (p : Site) : ieeeSub p f1 f1 = f0 := rfl
  have hd2 (p : Site) : ieeeSub p f1 f2 = fM1 := rfl
  have hd3 (p : Site) : ieeeSub p f1 f3 = fneg f2 := rfl
  have h1 (p : Site) : ieeeMul p (fneg f0) fM1 = f0 := rfl
  have h2 (p : Site) : ieeeMul p fM1 (fneg f2) = f2 := rfl
  have h3 (p : Site) : ieeeMul p (fneg f0) (fneg f2) = f0 := rfl
  have h4 (p : Site) : ieeeMul p f0 fM1 = fneg f0 := rfl
  have h5 (p : Site) : ieeeMul p f0 (fneg f2) = fneg f0 := rfl
  simp only [lagrangeWeights, fsub_ieee h, fmul_ieee h, fdiv_ieee h, hd1, hd2, hd3, h1, h2, h3, h4, h5]
  rfl

/-- R148 (a): at position 0 the first weight is 1.0, the others 3.0, -1.5 and the binary32 nearest 1/3. -/
theorem lagrangeWeights_zero {c : Cfg} (h : c.num.ieee = true) (q : Site) :
    lagrangeWeights c q f0 = (f1, 0x40400000#32, 0xBFC00000#32, 0x3EAAAAAB#32) := by
  have hd1 (p : Site) : ieeeSub p f0 f1 = fM1 := rfl
  have hd2 (p : Site) : ieeeSub p f0 f2 = fneg f2 := rfl
  have hd3 (p : Site) : ieeeSub p f0 f3 = fneg f3 := rfl
  have h1 (p : Site) : ieeeMul p (fneg fM1) (fneg f2) = fneg f2 := rfl
  have h2 (p : Site) : ieeeMul p (fneg f2) (fneg f3) = f6 := rfl
  have h3 (p : Site) : ieeeMul p (fneg fM1) (fneg f3) = fneg f3 := rfl
  have h4 (p : Site) : ieeeMul p fM1 (fneg f2) = f2 := rfl
  simp only [lagrangeWeights, fsub_ieee h, fmul_ieee h, fdiv_ieee h, hd1, hd2, hd3, h1, h2, h3, h4]
  rfl

/-- R148 (a), `LAGRANGE3` with n >= 1. -/
theorem lagrange3_succ_exact {c : Cfg} (h : c.num.ieee = true) (q : Site) (l : Line) (n : Nat)
    (hfin : ∀ k, n ≤ k → k ≤ n + 3 → isFinite (tap c l k) = true) :
    SameUpToZero (lagrange3 c q l (n + 1) f0) (tap c l (n + 1)) := by
  have h0 := hfin n (by omega) (by omega)
  have h1 := hfin (n + 1) (by omega) (by omega)
  have h2 := hfin (n + 2) (by omega) (by omega)
  have h3 := hfin (n + 3) (by omega) (by omega)
  have hdl : fadd c (0 :: q) f0 f1 = f1 := (isZero_fadd h _ rfl (isZero_zeroOf false)).bits (by decide)
  rw [lagrange3_succ, hdl, lagrangeAt, lagrangeWeights_one h]
  dsimp only [lagrangeInner]
  rw [fmul_one h _ h1]
  have hpair := fadd_isZero h (14 :: q) h1 (fmul_isZero h (16 :: q) h2 (isZero_zeroOf false))
  have hinner := (fadd_isZero h (13 :: q) hpair.finite (fmul_isZero h (17 :: q) h3 (isZero_zeroOf true))).trans hpair
  rw [one_fmul h _ hinner.finite]
  exact (isZero_fadd h _ hinner.finite (fmul_isZero h _ h0 (isZero_zeroOf true))).trans hinner

/-- R148 (a), `LAGRANGE3` with n = 0, where the sum of the other three taps has the weight 0 and must be finite. -/
theorem lagrange3_zero_exact {c : Cfg} (h : c.num.ieee = true) (q : Site) (l : Line) (h0 : isFinite (tap c l 0) = true)
    (hinner : isFinite (fadd c [] (fadd c [] (fmul c [] (tap c l 1) 0x40400000#32) (fmul c [] (tap c l 2) 0xBFC00000#32))
      (fmul c [] (tap c l 3) 0x3EAAAAAB#32)) = true) : SameUpToZero (lagrange3 c q l 0 f0) (tap c l 0) := by
  rw [lagrange3_zero, lagrangeAt, lagrangeWeights_zero h]
  dsimp only [lagrangeInner]
  rw [weightedSum_site (not_isNaN_of_isFinite hinner), fmul_one h _ h0]
  exact fadd_isZero h _ h0 (isZero_fmul h _ hinner (isZero_zeroOf false))

/-- R148 (a), `LINEAR`: the difference of the taps has the weight 0 and must be finite. -/
theorem linear2_exact {c : Cfg} (h : c.num.ieee = true) (q : Site) (l : Line) (n : Nat) (h0 : isFinite (tap c l n) = true)
    (h1 : isFinite (tap c l (n + 1)) = true) (hdiff : isFinite (fsub c [] (tap c l (n + 1)) (tap c l n)) = true) :
    SameUpToZero (linear2 c q l n f0) (tap c l n) := by
  have hsite : fsub c (2 :: q) (tap c l (n + 1)) (tap c l n) = fsub c [] (tap c l (n + 1)) (tap c l n) := by
    rw [fsub_ieee h, fsub_ieee h, ieeeSub_finite h1 h0, ieeeSub_finite h1 h0]
  rw [linear2, hsite]
  exact fadd_isZero h _ h0 (isZero_fmul h _ hdiff (isZero_zeroOf false))

/-- Settles O53, by the value of each kernel at the fraction +0.0. -/
theorem integerDelayExact : Obligations.IntegerDelayExact := by
  intro c q l n h hcap hn hd
  have hread := dlRead_whole h q (hn.trans_lt hcap) hd
  dsimp only
  refine ⟨fun hk h1 hfin => ?_, fun hk h0 hfin hinner => ?_, fun hk h0 h1 hdiff => ?_⟩
  · obtain ⟨m, rfl⟩ : ∃ m, n = m + 1 := ⟨n - 1, by omega⟩
    have hexact := lagrange3_succ_exact h (2 :: q) l m fun k hk hk' => hfin k (by omega) (by omega)
    rw [hread, interpolate, hk]
    exact ⟨hexact.feq (hfin _ (by omega) (by omega)), hexact.bits⟩
  · subst h0
    have hexact := lagrange3_zero_exact h (2 :: q) l (hfin 0 (by omega)) hinner
    rw [hread, interpolate, hk]
    exact ⟨hexact.feq (hfin 0 (by omega)), hexact.bits⟩
  · have hexact := linear2_exact h (2 :: q) l n h0 h1 hdiff
    rw [hread, interpolate, hk]
    exact ⟨hexact.feq h0, hexact.bits⟩

end Sys2Proof.Machine
end


section
/-! The shelf coefficients (spec/41_shelving_filter.md R160 to R164): what a configuration function answers for listed and unlisted
operands, and the reference instances R163 and R164 as the rules' formulas. -/

namespace Sys2Proof.Machine

/-- R160: operands the table does not list have the default's value. -/
theorem numEntry_of_unlisted {α β : Type} [DecidableEq α] {table : List (α × β)} {a : α} (h : ∀ b, (a, b) ∉ table) (f : α → β) :
    numEntry table f a = f a :=
  (numEntry_cases table f a).elim (fun hmem => absurd hmem (h _)) And.right

/-- R160: operands the table lists with one value only have that value. -/
theorem numEntry_of_listed_once {α β : Type} [DecidableEq α] {table : List (α × β)} {a : α} {b : β}
    (h : ∀ b', (a, b') ∈ table ↔ b' = b) (f : α → β) : numEntry table f a = b :=
  (numEntry_cases table f a).elim (h _).mp fun hnone => absurd ((h b).mpr rfl) (hnone.1 b)

/-- R161: the gain is computed by the rule's operations. -/
theorem gainIs_shelfGain (c : Cfg) (q : Site) (t lsamp fs : Word) : GainIs c t lsamp fs (shelfGain c q t lsamp fs) :=
  ⟨2 :: q, 0 :: q, 1 :: q, 3 :: q, rfl⟩

/-- R162: the tangent is computed by the rule's operations. -/
theorem tanIs_shelfTan (c : Cfg) (q : Site) (f fs : Word) : TanIs c f fs (shelfTan c q f fs) :=
  ⟨0 :: q, 1 :: q, rfl⟩

/-- The sites of a coefficient formula's operations, after the two of the gain and the tangent: in the formula's order, but that
the divisor (position d + 1) is computed before its quotient (position d). -/
def coefficientSite (q : Site) (d k : Nat) : Site := (Equiv.swap d (d + 1) k + 2) :: q

/-- R163: the reference low shelf has the rule's coefficients, for the gain and the tangent it computes. -/
theorem lowFormula_shelfLowRef (c : Cfg) (q : Site) (t f lsamp fs : Word) :
    LowFormula c (shelfGain c (0 :: q) t lsamp fs) (shelfTan c (1 :: q) f fs) (shelfLowRef c q t f lsamp fs) :=
  ⟨coefficientSite q 0, rfl⟩

/-- R164: the reference high shelf has the rule's coefficients, for the gain and the tangent it computes. -/
theorem highFormula_shelfHighRef (c : Cfg) (q : Site) (t f lsamp fs : Word) :
    HighFormula c (shelfGain c (0 :: q) t lsamp fs) (shelfTan c (1 :: q) f fs) (shelfHighRef c q t f lsamp fs) :=
  ⟨coefficientSite q 3, rfl⟩

/-- R160, R163: `ShelfLow` is its reference instance where the configuration lists no result. -/
theorem shelfLow_of_unlisted {c : Cfg} {t f lsamp fs : Word} (h : ∀ k, ((t, f, lsamp, fs), k) ∉ c.shelf.low) (q : Site) :
    shelfLow c q t f lsamp fs = shelfLowRef c q t f lsamp fs := numEntry_of_unlisted h _

/-- R160, R164: `ShelfHigh` is its reference instance where the configuration lists no result. -/
theorem shelfHigh_of_unlisted {c : Cfg} {t f lsamp fs : Word} (h : ∀ k, ((t, f, lsamp, fs), k) ∉ c.shelf.high) (q : Site) :
    shelfHigh c q t f lsamp fs = shelfHighRef c q t f lsamp fs := numEntry_of_unlisted h _

/-- Settles O60, by whether the configuration lists the operands: the reference instances' formulas, or the listed result. -/
theorem shelfCoefficients : Obligations.ShelfCoefficients := by
  intro c q t f lsamp fs
  refine ⟨fun hlow => ?_, fun hhigh => ?_, fun k hk => ?_, fun k hk => ?_⟩
  · rw [shelfLow_of_unlisted hlow]
    exact ⟨_, _, gainIs_shelfGain .., tanIs_shelfTan .., lowFormula_shelfLowRef ..⟩
  · rw [shelfHigh_of_unlisted hhigh]
    exact ⟨_, _, gainIs_shelfGain .., tanIs_shelfTan .., highFormula_shelfHighRef ..⟩
  · exact numEntry_of_listed_once hk _
  · exact numEntry_of_listed_once hk _

end Sys2Proof.Machine
end

section
/-! PROOFS. The oscillator (spec/42_oscillator.md R181): the advance of the phase by the rule's operations, and its range R50. -/

namespace Sys2Proof.Machine

/-- R181: the advanced phase of a sum that is not finite is +0.0. -/
theorem advancePhase_of_not_isFinite {c : Cfg} {q : Site} {phase inc : Word}
    (ht : isFinite (fadd c (0 :: q) phase inc) = false) : advancePhase c q phase inc = f0 :=
  if_neg (ht ▸ Bool.false_ne_true)

/-- R181: the advanced phase of a finite sum is its fractional part, or +0.0 where that rounds up to 1.0, made canonical by + 0.0. -/
theorem advancePhase_of_isFinite {c : Cfg} {q : Site} {phase inc t p : Word} (hsum : fadd c (0 :: q) phase inc = t)
    (ht : isFinite t = true) (hp : fsub c (1 :: q) t (ffloor c (2 :: q) t) = p) :
    advancePhase c q phase inc = fadd c (3 :: q) (if fle f1 p = true then f0 else p) f0 := by
  subst hsum hp
  exact if_pos ht

/-- Settles O33: by whether the sum is finite, and by the range of an advanced phase that every step keeps
(`advancePhase_inUnit`). -/
theorem phaseInRange : Obligations.PhaseInRange := by
  intro c q phase inc
  refine ⟨⟨0 :: q, 1 :: q, 2 :: q, 3 :: q, ?_⟩, fun hieee => advancePhase_inUnit hieee q phase inc⟩
  dsimp only
  split
  case isTrue ht => exact advancePhase_of_isFinite rfl ht rfl
  case isFalse ht => exact advancePhase_of_not_isFinite (Bool.eq_false_of_not_eq_true ht)

end Sys2Proof.Machine
end

section
/-! PROOFS. The feedback matrix (spec/43_feedback_matrix.md R192, R194): each row's sum by the rule's operations, and the zero matrix
of the custom topology. -/

namespace Sys2Proof.Machine

/-! ### The matrix product by topology -/

/-- R192: the identity topology copies the operand. -/
theorem matApply_identity {s : State} (h : s.topo = .identity) (q : Site) (v : List Word) : matApply s q v = v := by
  rw [matApply, h]

/-- R192: the custom topology sums each row from +0.0. -/
theorem matApply_custom {s : State} (h : s.topo = .custom) (q : Site) (v : List Word) :
    matApply s q v = (List.range v.length).map fun r => rowSum s (r :: q) r 0 f0 v := by
  rw [matApply, h]

/-! ### The sum of a row -/

/-- The site of operation `k` of row `r`: the sum of column `c` is operation `2 * c`, the product operation `2 * c + 1`. -/
def rowSite (q : Site) (r k : Nat) : Site := k % 2 :: k / 2 :: r :: q

theorem rowSite_sum (q : Site) (r c : Nat) : rowSite q r (2 * c) = 0 :: c :: r :: q := by
  rw [rowSite, Nat.mul_mod_right, Nat.mul_div_cancel_left c Nat.two_pos]

theorem rowSite_product (q : Site) (r c : Nat) : rowSite q r (2 * c + 1) = 1 :: c :: r :: q := by
  rw [rowSite, show (2 * c + 1) % 2 = 1 by omega, show (2 * c + 1) / 2 = c by omega]

/-- R82: a cell is read at its row-major address in the store. -/
theorem readCell_eq (s : State) (r c : Nat) : readCell s r c = memRead s.cm (r * s.cfg.nmax + c) := rfl

/-- R192: a row's sum adds the rounded products of the cells and the entries in ascending order of the columns. -/
theorem rowSum_eq_foldl (s : State) (q : Site) (r : Nat) (v : List Word) (c : Nat) (acc : Word) :
    rowSum s (r :: q) r c acc v = (v.zipIdx c).foldl (fun acc e => fadd s.cfg (rowSite q r (2 * e.2)) acc
      (fmul s.cfg (rowSite q r (2 * e.2 + 1)) (memRead s.cm (r * s.cfg.nmax + e.2)) e.1)) acc := by
  induction v generalizing c acc with
  | nil => rfl
  | cons x xs ih => rw [rowSum, ih, List.zipIdx_cons, List.foldl_cons, rowSite_sum, rowSite_product, readCell_eq]

/-- Settles O46, by topology: the copy of the identity, or the rows' sums as folds over the columns (`rowSum_eq_foldl`). -/
theorem matrixProduct : Obligations.MatrixProduct := by
  intro s q v
  refine ⟨rowSite q, fun hid => matApply_identity hid q v, fun hcustom => ⟨length_matApply s q v, fun r hr => ?_⟩⟩
  rw [matApply_custom hcustom, List.getElem?_map, List.getElem?_range hr, Option.map_some, rowSum_eq_foldl, f0]

/-! ### The zero matrix -/

/-- R19: +0.0 and a zero of either sign add up to +0.0. -/
theorem fadd_f0_isZero {c : Cfg} (h : c.num.ieee = true) (q : Site) {z : Word} (hz : IsZero z) : fadd c q f0 z = f0 := by
  have hsum : val f0 + val z = 0 := by rw [hz.value]; rfl
  rw [fadd_ieee h, ieeeAdd_finite rfl hz.finite, if_pos hsum]
  rfl

/-- R194: a row of zero cells sums finite entries to +0.0: each product is a zero, which leaves the accumulator +0.0. -/
theorem rowSum_of_zero_cells {s : State} (h : s.cfg.num.ieee = true) (q : Site) {r : Nat} (hrow : ∀ c, IsZero (readCell s r c))
    {v : List Word} (hv : ∀ x ∈ v, isFinite x = true) (c : Nat) : rowSum s q r c f0 v = f0 := by
  induction v generalizing c with
  | nil => rfl
  | cons x xs ih =>
    obtain ⟨hx, hxs⟩ := List.forall_mem_cons.mp hv
    rw [rowSum, fadd_f0_isZero h _ (isZero_fmul h _ hx (hrow c)), ih hxs]

/-- R82: every cell of a cleared matrix store is +0.0. -/
theorem isZero_readCell_of_cleared {s : State} (h : s.cm = memCleared) (r c : Nat) : IsZero (readCell s r c) := by
  rw [readCell_eq, h, memRead_cleared]
  exact isZero_zeroOf false

/-- Settles O50: every row of the cleared store is a row of zero cells (`rowSum_of_zero_cells`). -/
theorem zeroMatrixKillsFeedback : Obligations.ZeroMatrixKillsFeedback := by
  intro s q v hieee hcustom hcleared hfinite
  have hrow (r : Nat) : rowSum s (r :: q) r 0 f0 v = f0 :=
    rowSum_of_zero_cells hieee (r :: q) (isZero_readCell_of_cleared hcleared r) hfinite 0
  rw [matApply_custom hcustom, funext hrow, List.map_const', List.length_range, f0]

end Sys2Proof.Machine
end

section
/-! PROOFS. The ends of a command and the sample counts, in the words of the statements (spec/44_init_reconfig.md R202, R222;
spec/60_exceptions.md R332): how a rejection, a completion, a length in milliseconds and a search window read there. -/

namespace Sys2Proof.Machine

/-! ### The ends of a command (R21, R332) -/

/-- R21: `PrimeShort` exactly when fewer primes were found than asked for. -/
theorem completeSearch_eq (s : State) (opc : Byte) (found count : Nat) :
    completeSearch s opc (decide (found < count)) = if found < count then answeredShort s opc else answeredOk s opc [] := by
  by_cases h : found < count
  · rw [completeSearch, decide_eq_true h, if_pos rfl, if_pos h]
    rfl
  · rw [completeSearch, decide_eq_false h, if_neg Bool.false_ne_true, if_neg h]
    rfl

/-- R331: a command whose checks are all domain checks is rejected with `BadParam` when one of them fails. -/
theorem command_badParam {s e : State} {opc : Byte} {checks : List (Bool × Code)} (hcodes : ∀ k ∈ checks, k.2 = .badParam)
    (hfail : ¬Passes checks) : command s opc checks e = .next (rejectedAs s opc 3) := by
  obtain ⟨c, hc⟩ := Option.ne_none_iff_exists'.mp hfail
  obtain rfl : c = .badParam := hcodes _ (firstFailure_mem hc)
  exact command_rejected hc

/-- R334: before INIT has completed the check of INITED rejects the command. -/
theorem command_notInit {s e : State} {opc : Byte} {checks : List (Bool × Code)} (h : s.inited = false) :
    command s opc (needsInit s :: checks) e = .next (rejectedAs s opc 2) :=
  command_rejected (c := .notInit) (by simp [needsInit, h])

/-- R333, R334: in an initialised engine the check of INITED decides nothing. -/
theorem command_of_inited {s e : State} {opc : Byte} {checks : List (Bool × Code)} (h : s.inited = true) :
    command s opc (needsInit s :: checks) e = command s opc checks e := by
  simp only [command, needsInit, firstFailure_cons, h, if_true]

/-! ### Sample counts (R202) -/

/-- R202: whether a length is valid does not depend on the sites. -/
theorem samplesValid_iff {c : Cfg} {ms fs : Word} (q1 q2 : Site) : samplesValid c ms fs ↔
    isFinite (fdiv c q1 (fmul c q2 ms fs) f1000) = true ∧ flt (fdiv c q1 (fmul c q2 ms fs) f1000) f0 = false := by
  constructor
  · rintro ⟨hfin, hneg⟩
    rw [samplesQuotient_site (not_isNaN_of_isFinite hfin) q1 q2]
    exact ⟨hfin, hneg⟩
  · rintro ⟨hfin, hneg⟩
    have hsite : samplesExact c ms fs = fdiv c q1 (fmul c q2 ms fs) f1000 :=
      samplesQuotient_site (not_isNaN_of_isFinite hfin) [] []
    rw [samplesValid, hsite]
    exact ⟨hfin, hneg⟩

theorem samplesOf_of_valid {c : Cfg} {ms fs : Word} (h : samplesValid c ms fs) :
    samplesOf c ms fs = f2n (ffloor c [] (samplesExact c ms fs)) := if_pos (by simpa [samplesValid] using h)

theorem msToSamples_of_valid {c : Cfg} {ms fs : Word} (h : samplesValid c ms fs) (q : Site) :
    msToSamples c q ms fs = some (samplesOf c ms fs) := by
  have hsite := samplesQuotient_site (not_isNaN_of_isFinite h.1) (0 :: q) (1 :: q)
  have hvalid : ¬(!isFinite (samplesExact c ms fs) || flt (samplesExact c ms fs) f0) = true := by simp [h.1, h.2]
  have hfloor := ffloor_site (c := c) (not_isNaN_of_isFinite h.1) [] (2 :: q)
  rw [samplesOf_of_valid h, ← hfloor, msToSamples, hsite]
  exact if_neg hvalid

theorem msToSamples_of_invalid {c : Cfg} {ms fs : Word} (h : ¬samplesValid c ms fs) (q : Site) : msToSamples c q ms fs = none := by
  rw [samplesValid_iff (0 :: q) (1 :: q)] at h
  exact if_pos (by simpa [Decidable.imp_iff_not_or] using h)

theorem isSome_msToSamples {c : Cfg} {ms fs : Word} (q : Site) : (msToSamples c q ms fs).isSome = true ↔ samplesValid c ms fs := by
  by_cases h : samplesValid c ms fs
  · simp [msToSamples_of_valid h, h]
  · simp [msToSamples_of_invalid h, h]

/-- R202: the number of samples, 0 where the length is invalid (log 6). -/
theorem msToSamples_getD (c : Cfg) (q : Site) (ms fs : Word) : (msToSamples c q ms fs).getD 0 = samplesOf c ms fs := by
  by_cases h : samplesValid c ms fs
  · rw [msToSamples_of_valid h, Option.getD_some]
  · rw [msToSamples_of_invalid h, Option.getD_none]
    exact (if_neg (by simpa [samplesValid] using h)).symm

theorem countInRange_msToSamples {c : Cfg} {ms fs : Word} (q : Site) : countInRange (msToSamples c q ms fs) = true ↔
    samplesValid c ms fs ∧ 1 ≤ samplesOf c ms fs ∧ samplesOf c ms fs < 2 ^ 24 := by
  by_cases h : samplesValid c ms fs
  · simp [msToSamples_of_valid h, h, countInRange]
  · simp [msToSamples_of_invalid h, h, countInRange]

/-- R222: the domain check of SETDLY and SETDLYS accepts the lengths of the statement. -/
theorem lengthOk_iff {c : Cfg} {ms fs : Word} (q : Site) : lengthOk c q ms fs = true ↔ lengthAccepted c ms fs := by
  simp only [lengthOk, positive, Bool.and_eq_true, countInRange_msToSamples, lengthAccepted, and_assoc]

/-- R200, R220: a search window is valid when both its ends are and the upper one lies in 1..2^24-1. -/
theorem windowInRange_iff {c : Cfg} {low high fs : Word} (q q' : Site) :
    windowInRange (msToSamples c q low fs) (msToSamples c q' high fs) = true ↔
      samplesValid c low fs ∧ samplesValid c high fs ∧ 1 ≤ samplesOf c high fs ∧ samplesOf c high fs < 2 ^ 24 := by
  rw [windowInRange, Bool.and_eq_true, isSome_msToSamples, countInRange_msToSamples]

end Sys2Proof.Machine
end

section
/-! PROOFS. INIT and UPDORD, their ends: validation and phase 1, and the last phase (spec/44_init_reconfig.md R200, R205). -/

namespace Sys2Proof.Machine

/-- R19: a comparison of a product does not depend on the product's site: a NaN is below nothing. -/
theorem flt_fmul_site (c : Cfg) (q q' : Site) (a b x : Word) : flt (fmul c q a b) x = flt (fmul c q' a b) x := by
  cases h : isNaN (fmul c q' a b) with
  | false => rw [fmul_site h q]
  | true =>
    have h' : isNaN (fmul c q a b) = true := by
      by_contra hn
      rw [fmul_site (Bool.eq_false_of_not_eq_true hn) q'] at h
      exact hn h
    simp only [flt, h, h', Bool.not_true, Bool.false_and]

/-- R200: the validation of INIT accepts the operands of the statement. -/
theorem passes_initChecks {s : State} {order : Byte} {fs lowMs highMs : Word} :
    Passes (initChecks s order fs lowMs highMs) ↔ initAccepts s.cfg order fs lowMs highMs := by
  have hsite : flt (fmul s.cfg [0, 0, s.epoch] f2 s.cfg.fFixed) fs = flt (fmul s.cfg [] f2 s.cfg.fFixed) fs :=
    flt_fmul_site ..
  simp only [Passes, initChecks, firstFailure_none_iff, List.forall_mem_cons, List.not_mem_nil, false_implies, implies_true,
    and_true, domain_fst, Bool.and_eq_true, supportedOrder, List.contains_iff_mem, windowInRange_iff, hsite, initAccepts, and_assoc]

/-- R200: phase 1 after the validation. -/
theorem execInit_of_not_running {s : State} {order : Byte} {fs lowMs highMs : Word} (h : s.running = none) :
    exec (.init order fs lowMs highMs) s =
      command s 0x01#8 (initChecks s order fs lowMs highMs) (beginReconfig s (.init order fs lowMs highMs)) :=
  if_neg (by simp [h])

/-- R200: an INIT under way runs the phase after the one RPHASE names. -/
theorem execInit_of_running {s : State} {order : Byte} {fs lowMs highMs : Word}
    (h : s.running = some (.init order fs lowMs highMs)) : exec (.init order fs lowMs highMs) s =
      .next (if s.rphase = 1#3 then initBody s order fs lowMs highMs else initEnd s) := if_pos h

/-- Settles O39: validation by its checks (`passes_initChecks`), the last phase by what it writes. -/
theorem initBeginsAndEnds : Obligations.InitBeginsAndEnds := by
  intro s order fs lowMs highMs
  refine ⟨fun hrun hbad => ?rejected, fun hrun hok => ?begins, fun hrun hphase => ?ends⟩
  case rejected =>
    rw [execInit_of_not_running hrun]
    exact command_badParam (by simp [initChecks]) (fun hpass => hbad (passes_initChecks.mp hpass))
  case begins =>
    rw [execInit_of_not_running hrun]
    exact command_accepted (passes_initChecks.mpr hok)
  case ends =>
    rw [execInit_of_running hrun, hphase, if_neg (by decide), initEnd, endReconfig, completeSearch_eq]

/-- Settles O41: the two checks of UPDORD, and phase 1. -/
theorem updordBegins : Obligations.UpdordBegins := by
  intro s newOrder selector hrun
  have hexec : exec (.updord newOrder selector) s =
      command s 0x02#8 [needsInit s, domain (supportedOrder s newOrder && selectorOk selector)]
        (beginReconfig s (.updord newOrder selector)) := if_neg (by simp [hrun])
  have hpass : Passes [domain (supportedOrder s newOrder && selectorOk selector)] ↔
      newOrder.toNat ∈ s.cfg.orders ∧ selector.toNat ≤ 1 := by
    simp [Passes, firstFailure_none_iff, supportedOrder, selectorOk]
  split_ifs with hinit hok
  · exact exec_notInit rfl (by simp [hrun]) hinit
  · rw [hexec, command_of_inited (Bool.eq_true_of_not_eq_false hinit)]
    exact command_accepted (hpass.mpr hok)
  · rw [hexec, command_of_inited (Bool.eq_true_of_not_eq_false hinit)]
    exact command_badParam (by simp) fun h => hok (hpass.mp h)

/-- R112: the words of an instruction alone decode to it. -/
theorem decodePacket_of_encode {i : Instr} {ws : List Word} (hwf : i.wf = true) (henc : encode i = .packet ws) :
    decodePacket ws = .command i [] := by
  rw [← List.append_nil ws, decodePacket_encode hwf henc]

/-- Settles O3: the words are the encodings of the commands they stand for. -/
theorem specWordsDecode : Obligations.SpecWordsDecode :=
  ⟨decodePacket_of_encode rfl rfl, decodePacket_of_encode rfl rfl, decodePacket_of_encode rfl rfl, decodePacket_of_encode rfl rfl,
    decodePacket_of_encode rfl rfl, decodePacket_of_encode rfl rfl, decodePacket_of_encode rfl rfl, decodePacket_of_encode rfl rfl,
    decodePacket_of_encode rfl rfl⟩

end Sys2Proof.Machine
end

section
/-! PROOFS. Seeding and smoothing of a delay line (spec/44_init_reconfig.md R210 to R213): what each micro-operation writes, by the
rules' operations, and a whole ramp, from its start to its target. The model has a `seedLine` of its own, so that the theorem
that settles the statement of this name stands under `Reconfig`. -/

namespace Sys2Proof.Machine

/-! ### The effective delay (R141, R212) -/

/-- R141: the delay `DL_setDelay` leaves, from the length it is given and the delay before. -/
def clampedDelay (c : Cfg) (q : Site) (len delay : Word) : Word :=
  if isNaN len then delay
  else if flt len f0 then f0
  else if flt (u2f c c.cap) len then u2f c c.cap
  else fadd c q len f0

theorem dlSetDelay_eq (c : Cfg) (q : Site) (len : Word) (l : Line) :
    dlSetDelay c q len l = { l with delay := clampedDelay c q len l.delay } := by
  unfold dlSetDelay clampedDelay
  split_ifs <;> rfl

/-- R210: a whole length is clamped to CAP. -/
theorem clampedDelay_u2f {c : Cfg} (h : c.num.ieee = true) (hcap : c.cap < 2 ^ 24) (q : Site) {n : Nat} (hn : n < 2 ^ 24)
    (delay : Word) : clampedDelay c q (u2f c n) delay = u2f c (min n c.cap) := by
  obtain ⟨hfin, hsign, -⟩ := ieeeU2f_exact hn
  rw [← u2f_ieee h] at hfin hsign
  have hnan := not_isNaN_of_isFinite hfin
  have hneg : ¬flt (u2f c n) f0 = true := by
    rw [flt_zero_iff hnan, val_u2f h hn]
    omega
  have hhigh : flt (u2f c c.cap) (u2f c n) = true ↔ c.cap < n := by
    rw [flt_iff (isNaN_u2f_cap h hcap) hnan, val_u2f h hcap, val_u2f h hn, Int.ofNat_lt]
    exact Nat.mul_lt_mul_right (by positivity)
  have hpos : u2f c n ≠ 0x80000000#32 := fun heq => by
    rw [heq] at hsign
    exact absurd hsign (by decide)
  unfold clampedDelay
  rw [if_neg (by simp [hnan]), if_neg hneg]
  split
  case isTrue hlt => rw [min_eq_right (hhigh.mp hlt).le]
  case isFalse hle => rw [f0, fadd_zero_right h hfin, if_neg hpos, min_eq_left (not_lt.mp (hle ∘ hhigh.mpr))]

/-- R212: the delay `ApplyDelay` leaves, from the sum of nominal length and offset and the delay before. -/
def appliedDelay (c : Cfg) (q : Site) (sum delay : Word) : Word :=
  if isNaN sum = true ∨ feq sum f0 = true then delay else clampedDelay c q sum delay

theorem applyDelay_eq (s : State) (q : Site) (l : Line) : applyDelay s q l =
    { l with delay := appliedDelay s.cfg (1 :: q) (fadd s.cfg (0 :: q) l.dcur l.lfo) l.delay } := by
  simp only [applyDelay, appliedDelay, ite_or, dlSetDelay_eq]
  split_ifs <;> rfl

/-- R166, R212: `FollowDelay` recomputes the fixed shelf and sets the effective delay; it writes nothing else. -/
theorem followDelay_eq (s : State) (q : Site) (l : Line) : followDelay s q l = { l with
    fx := setCoeffs (shelfHigh s.cfg (0 :: q) s.cfg.tFixed s.cfg.fFixed l.dcur s.fs) l.fx
    delay := appliedDelay s.cfg (1 :: 1 :: q) (fadd s.cfg (0 :: 1 :: q) l.dcur l.lfo) l.delay } :=
  applyDelay_eq s (1 :: q) (recomputeFixed s (0 :: q) l)

/-! ### Seeding (R210) -/

/-- R165, R166, R210: what `Seed` writes, by the rules' operations. -/
theorem seedLine_eq (s : State) (q : Site) (l : Line) : seedLine s q l = { l with
    dcur := u2f s.cfg l.len, dtgt := u2f s.cfg l.len, dstep := f0, dcnt := 0, lfo := f0
    delay := clampedDelay s.cfg (0 :: q) (u2f s.cfg l.len) l.delay
    ls := if s.lsValid then setCoeffs (shelfLow s.cfg (0 :: 1 :: q) s.lsT s.lsF (u2f s.cfg l.len) s.fs) l.ls else l.ls
    hs := if s.hsValid then setCoeffs (shelfHigh s.cfg (1 :: 1 :: q) s.hsT s.hsF (u2f s.cfg l.len) s.fs) l.hs else l.hs
    fx := setCoeffs (shelfHigh s.cfg (2 :: q) s.cfg.tFixed s.cfg.fFixed (u2f s.cfg l.len) s.fs) l.fx } := by
  simp only [seedLine, dlSetDelay_eq, recomputeUser_writes, recomputeFixed]

/-- R210: the effective delay of a line at its table entry, as the statements give it. -/
theorem clampedDelay_entry {c : Cfg} (hcap : c.cap < 2 ^ 24) {n : Nat} (hn : n < 2 ^ 24) (q : Site) (l : Line) :
    clampedDelay c q (u2f c n) l.delay =
      if c.num.ieee = true then u2f c (min n c.cap) else (dlSetDelay c q (u2f c n) l).delay := by
  split
  case isTrue h => exact clampedDelay_u2f h hcap q hn _
  case isFalse => rw [dlSetDelay_eq]

/-- Settles O43: what seeding writes (`seedLine_eq`), the effective delay as the clamp leaves it (`clampedDelay_entry`). -/
theorem Reconfig.seedLine : Obligations.SeedLine := by
  intro s q l hcap hlen
  refine ⟨0 :: 1 :: q, 1 :: 1 :: q, 2 :: q, 0 :: q, ?_⟩
  rw [seedLine_eq, clampedDelay_entry hcap hlen]
  rfl

/-! ### The start of a ramp (R211) -/

/-- R211: with no steps to make, or none needed, the line is on its target at once. -/
theorem startRamp_immediate {s : State} {target : Word} {l : Line} (h : s.rampLen = 0 ∨ feq target l.dcur = true) (q : Site) :
    startRamp s q target l = followDelay s (0 :: q) { l with dtgt := target, dcur := target, dstep := f0, dcnt := 0 } := if_pos h

/-- R211: otherwise the start writes the target, the increment and the count alone. -/
theorem startRamp_ramping {s : State} {target : Word} {l : Line} (h : s.rampLen ≠ 0) (h' : feq target l.dcur = false) (q : Site) :
    startRamp s q target l = { l with
      dtgt := target, dcnt := s.rampLen
      dstep := fdiv s.cfg (1 :: q) (fsub s.cfg (2 :: q) target l.dcur) (u2f s.cfg s.rampLen) } := if_neg (by simp [h, h'])

/-! ### One step of a ramp (R213) -/

/-- R213: a step that is not the last adds the increment. -/
theorem rampStep_inner {s : State} {q : Site} {l : Line} (h : 2 ≤ l.dcnt) : rampStep s q l =
    followDelay s (0 :: q) { l with dcnt := l.dcnt - 1, dcur := fadd s.cfg (1 :: q) l.dcur l.dstep } := by
  obtain ⟨d, hd⟩ : ∃ d, l.dcnt = d + 2 := ⟨l.dcnt - 2, by omega⟩
  rw [rampStep, hd]
  rfl

/-- R213: the last step goes to the target. -/
theorem rampStep_last {s : State} {q : Site} {l : Line} (h : l.dcnt = 1) :
    rampStep s q l = followDelay s (0 :: q) { l with dcnt := 0, dcur := l.dtgt } := by
  rw [rampStep, h]

/-- R212, R213: a step of a ramp moves the nominal length and the count, and the line follows. -/
theorem rampStep_follows {s : State} {q : Site} {l : Line} (h : l.dcnt ≠ 0) :
    ∃ n cur, rampStep s q l = followDelay s (0 :: q) { l with dcnt := n, dcur := cur } := by
  rcases Nat.lt_or_ge l.dcnt 2 with hlast | hinner
  · exact ⟨_, _, rampStep_last (by omega)⟩
  · exact ⟨_, _, rampStep_inner hinner⟩

theorem rampStep_dcnt (s : State) (q : Site) (l : Line) : (rampStep s q l).dcnt = l.dcnt - 1 := by
  by_cases h : l.dcnt = 0
  · rw [rampStep_idle h, h]
  · obtain ⟨d, cur, k, heq, -⟩ := rampStep_runs (s := s) (q := q) h
    rw [heq]

theorem rampStep_dtgt (s : State) (q : Site) (l : Line) : (rampStep s q l).dtgt = l.dtgt := by
  obtain ⟨d, cur, n, h, heq, -⟩ := rampStep_writes s q l
  rw [heq]

theorem rampStep_dstep (s : State) (q : Site) (l : Line) : (rampStep s q l).dstep = l.dstep := by
  obtain ⟨d, cur, n, h, heq, -⟩ := rampStep_writes s q l
  rw [heq]

/-! ### A whole ramp (R211, R213) -/

/-- A line after k ramp steps. -/
def rampSteps (s : State) (qs : Nat → Site) (l : Line) (k : Nat) : Line := (List.range k).foldl (fun a j => rampStep s (qs j) a) l

section Ramp

variable (s : State) (qs : Nat → Site) (l : Line)

theorem rampSteps_succ (k : Nat) : rampSteps s qs l (k + 1) = rampStep s (qs k) (rampSteps s qs l k) := by
  rw [rampSteps, List.range_succ, List.foldl_append]
  rfl

/-- R213: every step takes one off the count. -/
theorem rampSteps_dcnt (k : Nat) : (rampSteps s qs l k).dcnt = l.dcnt - k := by
  induction k with
  | zero => rfl
  | succ k ih => rw [rampSteps_succ, rampStep_dcnt, ih, Nat.sub_sub]

theorem rampSteps_dtgt (k : Nat) : (rampSteps s qs l k).dtgt = l.dtgt := by
  induction k with
  | zero => rfl
  | succ k ih => rw [rampSteps_succ, rampStep_dtgt, ih]

theorem rampSteps_dstep (k : Nat) : (rampSteps s qs l k).dstep = l.dstep := by
  induction k with
  | zero => rfl
  | succ k ih => rw [rampSteps_succ, rampStep_dstep, ih]

/-- R213: once the count is down nothing changes. -/
theorem rampSteps_finished {k : Nat} (h : l.dcnt ≤ k) : rampSteps s qs l k = rampSteps s qs l l.dcnt := by
  induction k, h using Nat.le_induction with
  | base => rfl
  | succ k hk ih => rw [rampSteps_succ, rampStep_idle (by rw [rampSteps_dcnt]; omega), ih]

/-- R213: every step but the last adds the increment to the nominal length. -/
theorem rampSteps_dcur_inner {k : Nat} (h : k + 1 < l.dcnt) :
    (rampSteps s qs l (k + 1)).dcur = fadd s.cfg (1 :: qs k) (rampSteps s qs l k).dcur l.dstep := by
  rw [rampSteps_succ, rampStep_inner (by rw [rampSteps_dcnt]; omega), followDelay_eq, rampSteps_dstep]

/-- R213: the last step leaves the line on its target, bit for bit. -/
theorem rampSteps_dcur_last (h : l.dcnt ≠ 0) : (rampSteps s qs l l.dcnt).dcur = l.dtgt := by
  obtain ⟨k, hk⟩ := Nat.exists_eq_succ_of_ne_zero h
  rw [hk, Nat.succ_eq_add_one, rampSteps_succ, rampStep_last (by rw [rampSteps_dcnt]; omega), followDelay_eq, rampSteps_dtgt]

/-- R212, R213: in every step of a ramp the fixed shelf and the effective delay follow the nominal length. -/
theorem rampSteps_follows {k : Nat} (h : k < l.dcnt) :
    ∃ n cur, rampSteps s qs l (k + 1) = followDelay s (0 :: qs k) { rampSteps s qs l k with dcnt := n, dcur := cur } := by
  rw [rampSteps_succ]
  exact rampStep_follows (by rw [rampSteps_dcnt]; omega)

end Ramp

/-- Settles O36: a ramp that is not made (`startRamp_immediate`), and the steps of one that is (`rampSteps_dcnt` to
`rampSteps_follows`). -/
theorem rampEndsOnTarget : Obligations.RampEndsOnTarget := by
  intro s q qs target l after
  have hafter (k : Nat) : after k = rampSteps s qs (startRamp s q target l) k := rfl
  refine ⟨fun hnone => ?immediate, fun hlen hne => ?ramping⟩
  case immediate =>
    have hstart := (startRamp_immediate hnone q).trans (followDelay_eq s (0 :: q) _)
    refine ⟨⟨0 :: 1 :: 0 :: q, 0 :: 0 :: q, 1 :: 1 :: 0 :: q, ?_⟩, fun k => ?_⟩
    · simp only [dlSetDelay_eq]
      exact hstart
    · have hidle : (startRamp s q target l).dcnt = 0 := by rw [hstart]
      rw [hafter, rampSteps_finished s qs _ (hidle ▸ Nat.zero_le k), hidle]
      rfl
  case ramping =>
    have hstart := startRamp_ramping hlen hne q
    have hcount : (startRamp s q target l).dcnt = s.rampLen := by rw [hstart]
    have htarget : (startRamp s q target l).dtgt = target := by rw [hstart]
    rw [← hcount] at hlen ⊢
    refine ⟨⟨_, _, hcount ▸ hstart⟩, fun k hk => ⟨_, rampSteps_dcur_inner s qs _ hk⟩, rampSteps_dcnt s qs _,
      (rampSteps_dcur_last s qs _ hlen).trans htarget, fun k => rampSteps_finished s qs _, fun k hk => ?_⟩
    obtain ⟨n, cur, hstep⟩ := rampSteps_follows s qs _ hk
    rw [followDelay_eq] at hstep
    refine ⟨0 :: 1 :: 0 :: qs k, 0 :: 0 :: qs k, 1 :: 1 :: 0 :: qs k, ?_⟩
    simp only [dlSetDelay_eq, hafter, hstep]
    rfl

end Sys2Proof.Machine
end

section
/-! PROOFS. The delay-length table (spec/44_init_reconfig.md R220 to R223, spec/45_prime_search.md R241): what a search
writes, and the commands that change entries. -/

namespace Sys2Proof.Machine

/-! ### The search (R241) -/

theorem length_scanPrimes_le (fuel c count : Nat) : (scanPrimes fuel c count).length ≤ count := by
  induction fuel generalizing c count with
  | zero => exact Nat.zero_le _
  | succ fuel ih =>
    cases count with
    | zero => exact Nat.le_refl 0
    | succ count =>
      unfold scanPrimes
      split
      case isTrue => exact Nat.succ_le_succ (ih (c + 1) count)
      case isFalse => exact ih (c + 1) (count + 1)

/-- R241: a search finds at most as many primes as it is asked for. -/
theorem length_primesIn_le (low high count : Nat) : (primesIn low high count).length ≤ count := length_scanPrimes_le _ _ _

/-- R241, R243: past the active lines every entry is stale. -/
theorem primesIn_getD_idle {low high count j : Nat} (h : count ≤ j) (len : Nat) : (primesIn low high count).getD j len = len :=
  List.getD_eq_default _ _ ((length_primesIn_le low high count).trans h)

/-- R241, R243: a search writes the entries it found and leaves the others. -/
theorem primeSearch_eq (s : State) (low high count : Nat) : primeSearch s low high count = { s with
    lines := s.lines.mapIdx fun j l => { l with len := (primesIn low high count).getD j l.len } } := by
  rw [primeSearch]
  congr 1
  apply List.ext_getElem?
  intro j
  rw [setEach_getElem?, List.getElem?_mapIdx]
  simp only [List.getD_eq_getElem?_getD]
  cases (primesIn low high count)[j]? <;> cases s.lines[j]? <;> rfl

/-! ### Retargeting (R220, R222, R223) -/

/-- R220, R222, R223: a line retargeted after its entry has become n. -/
theorem retarget_setLen (s : State) (q : Site) (l : Line) (n : Nat) : retarget s q (setLen l n) =
    startRamp s (1 :: q) (u2f s.cfg n) (recomputeUser s (0 :: q) { l with len := n }) := rfl

/-- The table and the bounds a state holds do not matter to the retargeting of a line. -/
theorem retarget_congr (s : State) (low high : Word) (ls : List Line) (q : Site) (l : Line) :
    retarget { s with lowMs := low, highMs := high, lines := ls } q l = retarget s q l := rfl

/-- R220: every active line is retargeted, the others stay. -/
theorem retargetActive_eq (s : State) (low high : Word) (ls : List Line) (q : Site) :
    retargetActive { s with lowMs := low, highMs := high, lines := ls } q = { s with
      lowMs := low, highMs := high, lines := ls.mapIdx fun j l => if j < s.n then retarget s (j :: q) l else l } := by
  rw [retargetActive, forActive_eq]
  simp only [retarget_congr]

/-! ### SETDLY and SETDLYS -/

/-- R333: the checks of SETDLY in their order: the length, then the index. -/
theorem execSetdly_of_inited {s : State} (h : s.inited = true) (i : Byte) (ms : Word) : exec (.setdly i ms) s =
    command s 0x04#8 [domain (lengthOk s.cfg [0, s.epoch] ms s.fs), indexBelow s i]
      (answeredOk (setLine s i.toNat fun l => retarget s [1, s.epoch] (setLen l (samplesOf s.cfg ms s.fs))) 0x04#8 []) := by
  rw [← msToSamples_getD s.cfg [0, s.epoch]]
  exact command_of_inited h

theorem execSetdlys_of_inited {s : State} (h : s.inited = true) (v : List Word) : exec (.setdlys v) s =
    command s 0x05#8 [domain (decide (v.length = s.n)), domain (v.all fun m => lengthOk s.cfg [0, s.epoch] m s.fs)]
      (answeredOk (retargetActive { s with lines := setEach setLen (v.map fun m => samplesOf s.cfg m s.fs) s.lines } [1, s.epoch])
        0x05#8 []) := by
  simp only [← msToSamples_getD s.cfg [0, s.epoch]]
  exact command_of_inited h

/-- R223: the entries are written and every active line retargeted, when there is one length for each. -/
theorem retargetActive_entries {s : State} {v : List Word} (hlen : v.length = s.n) (q : Site) :
    retargetActive { s with lines := setEach setLen (v.map fun m => samplesOf s.cfg m s.fs) s.lines } q = { s with
      lines := s.lines.mapIdx fun j l => match v[j]? with
        | some x => startRamp s (1 :: j :: q) (u2f s.cfg (samplesOf s.cfg x s.fs))
            (recomputeUser s (0 :: j :: q) { l with len := samplesOf s.cfg x s.fs })
        | none => l } := by
  rw [retargetActive_eq, setEach_eq_mapIdx, List.mapIdx_mapIdx]
  congr 2
  funext j l
  rw [Function.comp_apply, List.getElem?_map]
  cases hx : v[j]? with
  | none => exact if_neg (hlen ▸ not_lt.mpr (List.getElem?_eq_none_iff.mp hx))
  | some x =>
    have hactive : j < s.n := hlen ▸ (List.getElem?_eq_some_iff.mp hx).1
    exact (if_pos hactive).trans (retarget_setLen s (j :: q) l _)

/-- Settles O34: the checks in their order, and the lines retargeted (`retarget_setLen`, `retargetActive_entries`). -/
theorem setDelay : Obligations.SetDelay := by
  intro s i ms v
  have hlength (x : Word) : lengthOk s.cfg [0, s.epoch] x s.fs = true ↔ lengthAccepted s.cfg x s.fs := lengthOk_iff _
  have hlengths : Passes [domain (decide (v.length = s.n)), domain (v.all fun m => lengthOk s.cfg [0, s.epoch] m s.fs)] ↔
      v.length = s.n ∧ ∀ x ∈ v, lengthAccepted s.cfg x s.fs := by
    simp [Passes, firstFailure_none_iff, hlength]
  refine ⟨fun hinit => ⟨command_notInit hinit, command_notInit hinit⟩, fun hinit hbad => ?badLength,
    fun hinit hok hi => ?badIndex, fun hinit hok hi => ?one, fun hinit hbad => ?badLengths, fun hinit hlen hok => ?all⟩
  case badLength =>
    rw [execSetdly_of_inited hinit]
    exact command_rejected (c := .badParam) (by simp [domain, hlength, hbad])
  case badIndex =>
    rw [execSetdly_of_inited hinit]
    exact command_rejected (c := .outOfRange) (by simp [domain, indexBelow, (hlength ms).mpr hok, hi])
  case one =>
    rw [execSetdly_of_inited hinit, setLine_eq]
    simp only [retarget_setLen]
    have hpass : Passes [domain (lengthOk s.cfg [0, s.epoch] ms s.fs), indexBelow s i] := by
      simp [Passes, domain, indexBelow, (hlength ms).mpr hok, hi]
    exact ⟨_, _, command_accepted hpass⟩
  case badLengths =>
    rw [execSetdlys_of_inited hinit]
    refine command_badParam (by simp) fun hpass => ?_
    obtain ⟨hlen, hok⟩ := hlengths.mp hpass
    rcases hbad with hbad | ⟨x, hx, hbad⟩
    · exact hbad hlen
    · exact hbad (hok x hx)
  case all =>
    rw [execSetdlys_of_inited hinit, retargetActive_entries hlen]
    exact ⟨_, _, command_accepted (hlengths.mpr ⟨hlen, hok⟩)⟩

/-! ### UPDDLY -/

/-- A length that has a number of samples is no NaN. -/
theorem samplesValid.not_isNaN {c : Cfg} {ms fs : Word} (h : samplesValid c ms fs) : isNaN ms = false := by
  by_contra hnan
  have hquotient : isNaN (samplesExact c ms fs) = true :=
    isNaN_fdiv (.inl (isNaN_fmul (.inl (Bool.eq_true_of_not_eq_false hnan))))
  rw [not_isNaN_of_isFinite h.1] at hquotient
  exact absurd hquotient Bool.false_ne_true

/-- R220: the lower bound does not depend on the site of its product, once it has a number of samples at some site. -/
theorem lowBound_site {c : Cfg} {ms fs : Word} {q : Site} (h : samplesValid c (lowBound c q ms) fs) (q' : Site) :
    lowBound c q' ms = lowBound c q ms := fmul_site h.not_isNaN q'

theorem samplesValid_lowBound {c : Cfg} {ms fs : Word} (q q' : Site) :
    samplesValid c (lowBound c q ms) fs ↔ samplesValid c (lowBound c q' ms) fs :=
  ⟨fun h => (lowBound_site h q').symm ▸ h, fun h => (lowBound_site h q).symm ▸ h⟩

/-- R220: the operand UPDDLY accepts. -/
def targetAccepted (c : Cfg) (fs targetMs : Word) : Prop :=
  isFinite targetMs = true ∧ flt f0 targetMs = true ∧
    samplesValid c (lowBound c [] targetMs) fs ∧ samplesValid c targetMs fs ∧
    1 ≤ samplesOf c targetMs fs ∧ samplesOf c targetMs fs < 2 ^ 24

/-- R220: the checks of UPDDLY in an initialised engine. -/
theorem passes_upddly {s : State} {targetMs : Word} :
    Passes [domain (isFinite targetMs && positive targetMs),
      domain (windowInRange (delayWindow s targetMs).1 (delayWindow s targetMs).2)] ↔ targetAccepted s.cfg s.fs targetMs := by
  simp [Passes, firstFailure_none_iff, delayWindow, windowInRange_iff, samplesValid_lowBound [0, s.epoch] [], positive,
    targetAccepted, and_assoc]

/-- R220: the table searched again, and every active line retargeted. -/
theorem retargetActive_primeSearch (s : State) (low high : Word) (lo hi : Nat) (q : Site) :
    retargetActive (primeSearch { s with lowMs := low, highMs := high } lo hi s.n) q = { s with
      lowMs := low, highMs := high
      lines := activeLines s fun j l =>
        retarget s (j :: q) (setLen l ((primesIn lo hi s.n).getD j l.len)) } := by
  rw [primeSearch_eq, retargetActive_eq, activeLines, List.mapIdx_mapIdx]
  congr 2
  funext j l
  rw [Function.comp_apply]
  split
  case isTrue => rfl
  case isFalse hidle => rw [primesIn_getD_idle (not_lt.mp hidle)]

/-- R220: the effect of an accepted UPDDLY. -/
theorem updateDelay_eq {s : State} {targetMs : Word} (h : targetAccepted s.cfg s.fs targetMs) :
    updateDelay targetMs s =
      let found := primesIn (samplesOf s.cfg (lowBound s.cfg [] targetMs) s.fs) (samplesOf s.cfg targetMs s.fs) s.n
      let t := { s with
        lowMs := lowBound s.cfg [] targetMs, highMs := targetMs
        lines := activeLines s fun j l => retarget s [j, 3, s.epoch] (setLen l (found.getD j l.len)) }
      if found.length < s.n then answeredShort t 0x03#8 else answeredOk t 0x03#8 [] := by
  obtain ⟨-, -, hlow, -⟩ := h
  simp only [updateDelay, delayWindow, msToSamples_getD, lowBound_site hlow [0, s.epoch], retargetActive_primeSearch,
    completeSearch_eq]

/-- Settles O35: the checks in their order (`passes_upddly`) and the effect (`updateDelay_eq`). -/
theorem Reconfig.updateDelay : Obligations.UpdateDelay := by
  intro s targetMs low accepted found
  have hexec (hinit : s.inited = true) : exec (.upddly targetMs) s =
      command s 0x03#8 [domain (isFinite targetMs && positive targetMs),
        domain (windowInRange (delayWindow s targetMs).1 (delayWindow s targetMs).2)] (Machine.updateDelay targetMs s) :=
    command_of_inited hinit
  refine ⟨command_notInit, fun hinit hbad => ?rejected, fun hinit hok => ?accepted⟩
  case rejected =>
    rw [hexec hinit]
    exact command_badParam (by simp) fun hpass => hbad (passes_upddly.mp hpass)
  case accepted =>
    rw [hexec hinit, updateDelay_eq hok]
    exact ⟨_, _, command_accepted (passes_upddly.mpr hok)⟩

end Sys2Proof.Machine
end

section
/-! PROOFS. INIT and UPDORD, their bodies (spec/44_init_reconfig.md R200, R205): the draws, the search over the stored bounds, the
seeding, and what each phase leaves. -/

namespace Sys2Proof.Machine

/-! ### The shared parts -/

/-- R15: what a gain drawn in a phase may be. -/
theorem gainLaw_iff {v : Word} : gainLaw v = true ↔ isFinite v = true ∧ fle fM1 v = true ∧ fle v f1 = true := by
  simp only [gainLaw, Bool.and_eq_true, and_assoc]

theorem lawfulGain_bounds (v : Word) :
    isFinite (lawfulGain v) = true ∧ fle fM1 (lawfulGain v) = true ∧ fle (lawfulGain v) f1 = true :=
  gainLaw_iff.mp (gainLaw_lawful v)

/-- R200, R205: every active line is given a drawn B and a drawn C, within [-1, 1]; the other lines stay. -/
theorem drawGains_eq (s : State) (q : Site) : ∃ (b c : Nat → Word) (left : List Word),
    drawGains s q = { s with
      draws := left
      lines := s.lines.mapIdx fun j l => if j < s.n then { l with b := lawfulGain (b j), c := lawfulGain (c j) } else l } := by
  choose b c hdraw using drawLines_getElem? q 0 s.n s.lines s.draws
  refine ⟨b, c, (drawLines q 0 s.n s.lines s.draws).2, ?_⟩
  rw [drawGains]
  congr 1
  apply List.ext_getElem?
  intro j
  rw [hdraw, List.getElem?_mapIdx]
  by_cases hj : j < s.n <;> cases s.lines[j]? <;> simp [hj]

/-- R200, R205: the search over the stored bounds. -/
theorem searchStored_eq (s : State) (q : Site) : searchStored s q =
    let found := primesIn (samplesOf s.cfg s.lowMs s.fs) (samplesOf s.cfg s.highMs s.fs) s.n
    { s with found := found.length, lines := s.lines.mapIdx fun j l => { l with len := found.getD j l.len } } := by
  simp only [searchStored, msToSamples_getD, primeSearch_eq]

/-! ### UPDORD (R205) -/

/-- R205: an UPDORD under way runs the phase after the one RPHASE names. -/
theorem execUpdord_of_running {s : State} {o sel : Byte} (h : s.running = some (.updord o sel)) :
    exec (.updord o sel) s = .next (updordPhase o sel s (s.rphase + 1#3)) := if_pos h

/-- Settles O42, phase by phase. -/
theorem updordPhases : Obligations.UpdordPhases := by
  intro s o sel hrun
  dsimp only
  refine ⟨fun hp => ?clear, fun hp => ?draw, fun hp => ?search, fun hp => ?seed, fun hp => ?topology, fun hp => ?ends⟩
  all_goals rw [execUpdord_of_running hrun, hp]
  case clear => rfl
  case draw =>
    obtain ⟨b, c, left, hdraw⟩ := drawGains_eq { s with rphase := 3#3, n := o.toNat } [0, s.epoch]
    refine ⟨fun j => lawfulGain (b j), fun j => lawfulGain (c j), left, fun j => ?_, congrArg _ hdraw⟩
    obtain ⟨hb, hb', hb''⟩ := lawfulGain_bounds (b j)
    exact ⟨hb, hb', hb'', lawfulGain_bounds (c j)⟩
  case search => exact congrArg _ (searchStored_eq { s with rphase := 4#3 } [0, s.epoch])
  case seed => exact ⟨_, congrArg _ (forActive_eq { s with rphase := 5#3 } _)⟩
  case topology => rfl
  case ends => exact congrArg _ (completeSearch_eq _ _ _ _)

/-! ### INIT, phase 2 (R200) -/

theorem map_eq_mapIdx (f : Line → Line) (ls : List Line) : ls.map f = ls.mapIdx fun _ l => f l :=
  List.ext_getElem? fun j => by rw [List.getElem?_map, List.getElem?_mapIdx]

/-- R210: what a state has found, and its lines, do not matter to the seeding of a line. -/
theorem seedLine_congr (s : State) (k : Nat) (ls : List Line) (q : Site) (l : Line) :
    seedLine { s with found := k, lines := ls } q l = seedLine s q l := rfl

/-- R200, R205: every active line is seeded, the others stay. -/
theorem seedActive_eq (s : State) (k : Nat) (ls : List Line) (q : Site) : seedActive { s with found := k, lines := ls } q =
    { s with found := k, lines := ls.mapIdx fun j l => if j < s.n then seedLine s (j :: q) l else l } := by
  rw [seedActive, forActive_eq]
  simp only [seedLine_congr]

/-- R200: the table entries INIT finds. -/
def initFound (c : Cfg) (order : Byte) (fs lowMs highMs : Word) : List Nat :=
  primesIn (samplesOf c lowMs fs) (samplesOf c highMs fs) order.toNat

/-- R200: line j after the search and the seeding of INIT. -/
def initSeeded (s : State) (order : Byte) (fs lowMs highMs : Word) (j : Nat) (l : Line) : Line :=
  let l' := setLen (initLine l) ((initFound s.cfg order fs lowMs highMs).getD j l.len)
  if j < order.toNat then seedLine (initStart s order fs lowMs highMs) [j, 2, s.epoch] l' else l'

theorem seedActive_initStart (s : State) (order : Byte) (fs lowMs highMs : Word) :
    seedActive (searchStored (initStart s order fs lowMs highMs) [1, s.epoch]) [2, s.epoch] =
      { initStart s order fs lowMs highMs with
        found := (initFound s.cfg order fs lowMs highMs).length
        lines := s.lines.mapIdx (initSeeded s order fs lowMs highMs) } := by
  have hlines : (initStart s order fs lowMs highMs).lines = s.lines.mapIdx fun _ l => initLine l := map_eq_mapIdx ..
  rw [searchStored_eq, seedActive_eq, hlines, List.mapIdx_mapIdx, List.mapIdx_mapIdx]
  rfl

/-- R200: the line INIT leaves where there was l, given gains b and c. -/
def initResult (s : State) (order : Byte) (fs lowMs highMs b c : Word) (j : Nat) (l : Line) : Line :=
  let l' := initSeeded s order fs lowMs highMs j l
  zeroFeedback (if j < order.toNat then { l' with b := lawfulGain b, c := lawfulGain c } else l')

theorem initBody_result (s : State) (order : Byte) (fs lowMs highMs : Word) : ∃ (b c : Nat → Word) (left : List Word),
    initBody s order fs lowMs highMs = { initStart s order fs lowMs highMs with
      found := (initFound s.cfg order fs lowMs highMs).length, topo := .identity, draws := left
      lines := s.lines.mapIdx fun j l => initResult s order fs lowMs highMs (b j) (c j) j l } := by
  obtain ⟨b, c, left, hdraw⟩ := drawGains_eq
    (seedActive (searchStored (initStart s order fs lowMs highMs) [1, s.epoch]) [2, s.epoch]) [3, s.epoch]
  refine ⟨b, c, left, ?_⟩
  rw [initBody_eq, hdraw, seedActive_initStart, forAll]
  dsimp only
  rw [List.mapIdx_mapIdx, map_eq_mapIdx, List.mapIdx_mapIdx]
  rfl

/-- R37, R200: every entry INIT seeds a line from is below 2^24, found or stale. -/
theorem initFound_getD_lt {c : Cfg} {order : Byte} {fs lowMs highMs : Word} (h : initAccepts c order fs lowMs highMs)
    {len : Nat} (hlen : len < 2 ^ 24) (j : Nat) : (initFound c order fs lowMs highMs).getD j len < 2 ^ 24 := by
  obtain ⟨-, -, -, -, -, -, -, -, -, -, -, hhigh⟩ := h
  rcases Nat.lt_or_ge j (initFound c order fs lowMs highMs).length with hj | hj
  · rw [List.getD_eq_getElem _ _ hj]
    exact (primesIn_le (List.getElem_mem hj)).trans_lt hhigh
  · rwa [List.getD_eq_default _ _ hj]

/-- Settles O40: the state and its lines as `initBody_result` gives them, the effective delay as the clamp leaves it
(`clampedDelay_entry`). -/
theorem Reconfig.initBody : Obligations.InitBody := by
  intro s order fs lowMs highMs hrun hphase hcap haccept hlens found
  obtain ⟨b, c, left, hbody⟩ := initBody_result s order fs lowMs highMs
  have hexec : exec (.init order fs lowMs highMs) s = .next (Machine.initBody s order fs lowMs highMs) := by
    rw [execInit_of_running hrun, if_pos hphase]
  refine ⟨Machine.initBody s order fs lowMs highMs, hexec, ?_⟩
  rw [hbody]
  refine ⟨rfl, ⟨_, _, rfl⟩, List.length_mapIdx, fun j l hl => ⟨lawfulGain (b j), lawfulGain (c j), [2, j, 2, s.epoch],
    [0, j, 2, s.epoch], fun _ => ?gains, ?line⟩⟩
  case gains =>
    obtain ⟨hb, hb', hb''⟩ := lawfulGain_bounds (b j)
    exact ⟨hb, hb', hb'', lawfulGain_bounds (c j)⟩
  case line =>
    have hlen := initFound_getD_lt haccept (hlens l (List.mem_of_getElem? hl)) j
    rw [List.getElem?_mapIdx, hl, Option.map_some, initResult, initSeeded]
    have hfound : found = initFound s.cfg order fs lowMs highMs := rfl
    by_cases hj : j < order.toNat
    · simp only [if_pos hj, hfound]
      rw [seedLine_eq, ← clampedDelay_entry hcap hlen]
      rfl
    · simp only [if_neg hj]
      rfl

end Sys2Proof.Machine
end

section
/-! PROOFS. The prime search (spec/45_prime_search.md): trial division decides primality (R240), and a search is the first
primes of its window (R241, R242). -/

namespace Sys2Proof.Machine

/-! ### The primality test (R240) -/

/-- Trial division with a budget tries the divisors d to d + fuel - 1; it may stop at the first whose square is above c, because the
squares of the later ones are above it too. -/
theorem noDivisorFrom_iff {c fuel d : Nat} :
    noDivisorFrom c fuel d = true ↔ ∀ e, d ≤ e → e < d + fuel → e * e ≤ c → ¬e ∣ c := by
  induction fuel generalizing d with
  | zero => exact iff_of_true rfl fun e hge hlt => absurd hlt (Nat.not_lt.mpr hge)
  | succ fuel ih =>
    unfold noDivisorFrom
    split
    case isTrue hsq =>
      have hlater : ∀ e, d ≤ e → c < e * e := fun e hge => hsq.trans_le (Nat.mul_self_le_mul_self hge)
      exact iff_of_true rfl fun e hge _ hle => absurd (hlater e hge) (Nat.not_lt.mpr hle)
    case isFalse hsq =>
      split
      case isTrue hmod =>
        have hdvd : d ∣ c := Nat.dvd_of_mod_eq_zero hmod
        exact iff_of_false Bool.false_ne_true fun h => h d le_rfl (by omega) (Nat.not_lt.mp hsq) hdvd
      case isFalse hmod =>
        have hd : ¬d ∣ c := fun hdvd => hmod (Nat.mod_eq_zero_of_dvd hdvd)
        rw [ih]
        refine ⟨fun h e hge hlt hle => ?_, fun h e hge hlt => h e (by omega) (by omega)⟩
        rcases hge.eq_or_lt with rfl | hgt
        · exact hd
        · exact h e hgt (by omega) hle

/-- R240: the budget c is no restriction, since a number whose square is at most c is itself at most c. -/
theorem isPrime_iff {c : Nat} : isPrime c = true ↔ PrimeNumber c := by
  simp only [isPrime, Bool.and_eq_true, decide_eq_true_eq, noDivisorFrom_iff, PrimeNumber]
  refine and_congr_right fun _ => forall₂_congr fun e _ => ⟨fun h hle => ?_, fun h _ => h⟩
  have hec : e ≤ c := (Nat.le_mul_self e).trans hle
  exact h (by omega) hle

/-- Settles O37: `isPrime_iff`, for every number. -/
theorem isPrimeCorrect : Obligations.IsPrimeCorrect := fun _ => isPrime_iff

/-! ### The primes of a window (R241, R242) -/

/-- R241: all the primes of a window, in rising order. -/
def windowPrimes (low high : Nat) : List Nat := (List.range' low (high + 1 - low)).filter isPrime

theorem mem_windowPrimes {low high p : Nat} : p ∈ windowPrimes low high ↔ low ≤ p ∧ p ≤ high ∧ PrimeNumber p := by
  rw [windowPrimes, List.mem_filter, List.mem_range'_1, isPrime_iff, ← and_assoc]
  exact and_congr_left fun _ => by omega

theorem windowPrimes_pairwise_lt (low high : Nat) : (windowPrimes low high).Pairwise (· < ·) :=
  List.Pairwise.filter _ List.pairwise_lt_range'

/-- R241: a scan stops with its budget of candidates or with its count of primes, whichever ends first. -/
theorem scanPrimes_eq (fuel c count : Nat) : scanPrimes fuel c count = ((List.range' c fuel).filter isPrime).take count := by
  induction fuel generalizing c count with
  | zero => exact List.take_nil.symm
  | succ fuel ih =>
    cases count with
    | zero => exact List.take_zero.symm
    | succ count =>
      rw [List.range'_succ, scanPrimes]
      split
      case isTrue hc => rw [ih, List.filter_cons_of_pos hc, List.take_succ_cons]
      case isFalse hc => rw [ih, List.filter_cons_of_neg hc]

/-- R241: a search finds the first `count` primes of its window. -/
theorem primesIn_eq (low high count : Nat) : primesIn low high count = (windowPrimes low high).take count := scanPrimes_eq _ _ _

theorem primesIn_pairwise_lt (low high count : Nat) : (primesIn low high count).Pairwise (· < ·) := by
  rw [primesIn_eq]
  exact (windowPrimes_pairwise_lt low high).take

theorem mem_windowPrimes_of_mem_primesIn {low high count p : Nat} (h : p ∈ primesIn low high count) :
    p ∈ windowPrimes low high := by
  rw [primesIn_eq] at h
  exact List.mem_of_mem_take h

/-- R242: a short search has found every prime of its window. -/
theorem primesIn_eq_windowPrimes {low high count : Nat} (h : (primesIn low high count).length < count) :
    primesIn low high count = windowPrimes low high := by
  rw [primesIn_eq, List.length_take] at h
  rw [primesIn_eq, List.take_of_length_le (by omega)]

/-- R241: the primes found are smaller than every other prime from the lower end on: one inside the window stands behind them in
`windowPrimes`, one outside is above the upper end. -/
theorem primesIn_lt_of_notMem {low high count p x : Nat} (hlow : low ≤ p) (hp : PrimeNumber p)
    (hnot : p ∉ primesIn low high count) (hx : x ∈ primesIn low high count) : x < p := by
  rcases Nat.lt_or_ge high p with hout | hin
  · exact (primesIn_le hx).trans_lt hout
  · have hsplit : primesIn low high count ++ (windowPrimes low high).drop count = windowPrimes low high := by
      rw [primesIn_eq, List.take_append_drop]
    have hmem := mem_windowPrimes.mpr ⟨hlow, hin, hp⟩
    have hrising := windowPrimes_pairwise_lt low high
    rw [← hsplit] at hmem hrising
    have hrest := (List.mem_append.mp hmem).resolve_left hnot
    obtain ⟨-, -, hbelow⟩ := List.pairwise_append.mp hrising
    exact hbelow x hx p hrest

/-- Settles O38: what is found, from `primesIn_eq`; what is written, from `primeSearch_eq`. -/
theorem primeSearchTable : Obligations.PrimeSearchTable := by
  intro s low high count found
  refine ⟨length_primesIn_le low high count, primesIn_pairwise_lt low high count,
    fun p hp => mem_windowPrimes.mp (mem_windowPrimes_of_mem_primesIn hp), fun hshort p hlow hhigh hp => ?short,
    fun _ p hlow hp hnot x hx => primesIn_lt_of_notMem hlow hp hnot hx, primeSearch_eq s low high count⟩
  case short =>
    have hall : found = windowPrimes low high := primesIn_eq_windowPrimes hshort
    rw [hall]
    exact mem_windowPrimes.mpr ⟨hlow, hhigh, hp⟩

end Sys2Proof.Machine
end

section
/-! PROOFS. The per-sample processing (spec/46_process.md): the silence of R251, the work of an active line and the mix by the
operations of R250 to R254, the ends of the mix (R256), and the independence of the lines under the identity matrix (R257). -/

namespace Sys2Proof.Machine

/-! ### Silence (R251) -/

/-- R250: with RECONF clear the request is processed. -/
theorem exec_proc_live {s : State} (h : s.reconf = false) (ch : Byte) (x : Word) :
    exec (.proc ch x) s = .next (process x s) := if_neg (by simp [h])

/-- Settles O44: the branch of PROC that is taken while RECONF is set. -/
theorem procSilent : Obligations.ProcSilent := fun _ ch x h => exec_proc_silent h ch x

/-! ### The work of one line (R250, R252) -/

/-- The site of operation `k` of a pop in the numbering of `Popped`: the outer sum of R146 and its two products come before the inner
sum there, and after it in `lagrange3`. -/
def popSite (q : Site) (k : Nat) : Site :=
  if k < 2 then k :: q
  else if k < 15 then (k - 2) :: 2 :: q
  else if k < 18 then (k + 3) :: 2 :: q
  else (k - 5) :: 2 :: q

/-- R146: the position among the four taps, and the first of these taps, for every whole part. -/
theorem lagrange3_eq (c : Cfg) (q : Site) (l : Line) (n : Nat) (f : Word) :
    lagrange3 c q l n f = lagrangeAt c q l (n - 1) (if n = 0 then f else fadd c (0 :: q) f f1) := by
  cases n with
  | zero => exact lagrange3_zero c q l f
  | succ n => rw [lagrange3_succ, if_neg (Nat.succ_ne_zero n), Nat.add_sub_cancel]

/-- R144 to R147: a pop answers the interpolation at the effective delay, under both kernels. -/
theorem popped_dlRead (c : Cfg) (q : Site) (l : Line) : Popped c l (dlRead c q l) := by
  refine ⟨popSite q, ?_⟩
  simp only [popSite, Nat.reduceLT, if_true, if_false, Nat.reduceSub, Nat.reduceAdd]
  cases hk : c.kernel with
  | linear =>
    rw [dlRead, interpolate, hk]
    rfl
  | lagrange3 =>
    rw [dlRead, interpolate, hk]
    exact lagrange3_eq c (2 :: q) l _ _

/-- R167: a filter answers its difference equation. -/
theorem filtered_sfOut (c : Cfg) (q : Site) (f : Filter) (x : Word) : Filtered c f x (sfOut c q f x) := ⟨_, _, _, _, _, rfl⟩

/-- R250: the ramp step leaves the gain, the feedback input, the cursor and the buffer for the push, whatever else it writes. -/
theorem procLine_work (s : State) (q : Site) (x : Word) (l : Line) : ProcLine s x l (procLine s q x l) := by
  obtain ⟨d, cur, n, fx, hramp, -, -⟩ := rampStep_writes s (0 :: q) l
  refine ⟨0 :: q, 1 :: q, 2 :: q, _, _, _, _, popped_dlRead _ (3 :: q) _, filtered_sfOut _ (0 :: 4 :: q) _ _,
    filtered_sfOut _ (1 :: 4 :: q) _ _, filtered_sfOut _ (2 :: 4 :: q) _ _, ?_⟩
  rw [procLine, hramp]
  rfl

/-! ### The lines of a PROC (R250, R254) -/

/-- R250: the lines once each active one has done its work, before the feedback inputs are replaced. -/
def workedLines (s : State) (x : Word) : List Line := updateFrom (fun j l => procLine s [j, 0, s.epoch] x l) 0 s.n s.lines

@[simp] theorem workedLines_length (s : State) (x : Word) : (workedLines s x).length = s.lines.length := updateFrom_length _ _ _ _

theorem workedLines_getElem? (s : State) (x : Word) (j : Nat) :
    (workedLines s x)[j]? = if j < s.n then s.lines[j]?.map (procLine s [j, 0, s.epoch] x) else s.lines[j]? := by
  rw [workedLines, updateFrom_getElem?, Nat.zero_add]

/-- R254: the next feedback vector: the matrix product of the filtered outputs of the active lines. -/
def nextFeedback (s : State) (x : Word) : List Word :=
  matApply s [3, s.epoch] (((workedLines s x).take s.n).map fun l => l.fo)

theorem nextFeedback_length {s : State} (h : s.n ≤ s.lines.length) (x : Word) : (nextFeedback s x).length = s.n := by
  rw [nextFeedback, length_matApply, List.length_map, List.length_take, workedLines_length, Nat.min_eq_left h]

/-- R250: what a PROC that is not silent writes: the answer and the lines. -/
theorem process_eq (s : State) (x : Word) : process x s = { s with
    audY := some (mixOut s [2, s.epoch] (wetSum s.cfg [1, s.epoch] 0 f0 ((workedLines s x).take s.n)) x)
    lines := setEach setFbin (nextFeedback s x) (workedLines s x) } := rfl

/-- R254: a vector with one entry for each active line replaces the feedback inputs of these lines and of no other. -/
theorem setFbin_each {us : List Word} {n : Nat} (h : us.length = n) (ls : List Line) :
    setEach setFbin us ls = ls.mapIdx fun j l => if j < n then { l with fbin := us.getD j 0#32 } else l := by
  subst h
  rw [setEach_eq_mapIdx]
  congr 1
  funext j l
  by_cases hj : j < us.length
  · rw [if_pos hj, List.getElem?_eq_getElem hj, List.getD_eq_getElem _ _ hj]
    rfl
  · rw [if_neg hj, List.getElem?_eq_none (by omega)]

/-! ### The wet sum and the whole effect (R250, R253) -/

/-- R250: the wet sum adds the rounded products of output gain and filtered output in ascending order of the lines. -/
theorem wetSum_eq_foldl (c : Cfg) (q : Site) (r : Nat) (ls : List Line) (i : Nat) (acc : Word) :
    wetSum c (r :: q) i acc ls = (ls.zipIdx i).foldl (fun acc e => fadd c (rowSite q r (2 * e.2)) acc
      (fmul c (rowSite q r (2 * e.2 + 1)) e.1.c e.1.fo)) acc := by
  induction ls generalizing i acc with
  | nil => rfl
  | cons l ls ih => rw [wetSum, ih, List.zipIdx_cons, List.foldl_cons, rowSite_sum, rowSite_product]

/-- Settles O45: the answer and the lines as `process_eq` gives them, each active line worked by `procLine_work`, the wet sum as a fold
over the lines (`wetSum_eq_foldl`). -/
theorem procEffect : Obligations.ProcEffect := by
  intro s ch x hrec hn
  refine ⟨workedLines s x, nextFeedback s x, _, mixOut s [2, s.epoch] _ x, rowSite [s.epoch] 1, _, _, _, _, _, [3, s.epoch], ?_,
    workedLines_length s x, fun j l l' hl hl' => ?_, rfl, rfl, nextFeedback_length hn x, rfl⟩
  · rw [exec_proc_live hrec, process_eq, setFbin_each (nextFeedback_length hn x), wetSum_eq_foldl, f0]
  · rw [workedLines_getElem?, hl] at hl'
    by_cases hj : j < s.n
    · rw [if_pos hj, Option.map_some] at hl'
      rw [if_pos hj, ← Option.some.inj hl']
      exact procLine_work s _ x l
    · rw [if_neg hj] at hl'
      rw [if_neg hj]
      exact (Option.some.inj hl').symm

/-! ### The ends of the mix (R253, R256) -/

/-- R253: the wet and the dry part of the output, before the attenuation. -/
def blend (s : State) (q : Site) (wet x : Word) : Word :=
  fadd s.cfg (1 :: q) (fmul s.cfg (2 :: q) s.wet wet) (fmul s.cfg (3 :: q) (fsub s.cfg (4 :: q) f1 s.wet) x)

theorem mixOut_eq (s : State) (q : Site) (wet x : Word) : mixOut s q wet x = fmul s.cfg (0 :: q) s.cfg.outAtt (blend s q wet x) := rfl

section Ends

variable {s : State} (h : s.cfg.num.ieee = true) {wet x : Word}

include h

/-- The product of finite values produces no NaN, so that its site does not matter. -/
theorem fmul_finite_site (q q' : Site) {a b : Word} (ha : isFinite a = true) (hb : isFinite b = true) :
    fmul s.cfg q a b = fmul s.cfg q' a b := by
  rw [fmul_ieee h, fmul_ieee h, ieeeMul_finite ha hb, ieeeMul_finite ha hb]

/-- R253: a blend that is a finite word, up to the sign of a zero, leaves the attenuated word as the output. -/
theorem mixOut_of_blend (hatt : isFinite s.cfg.outAtt = true) {q : Site} {v : Word} (hv : isFinite v = true)
    (hb : SameUpToZero (blend s q wet x) v) (q' : Site) :
    (val v ≠ 0 → mixOut s q wet x = fmul s.cfg q' s.cfg.outAtt v) ∧ (val v = 0 → val (mixOut s q wet x) = 0) := by
  refine ⟨fun hne => ?_, fun hzero => ?_⟩
  · rw [mixOut_eq, hb.bits hne]
    exact fmul_finite_site h _ _ hatt hv
  · rw [mixOut_eq]
    exact (fmul_isZero h _ hatt ⟨hb.finite, hb.value.trans hzero⟩).value

variable (hwet : isFinite wet = true) (hx : isFinite x = true)

include hwet hx

/-- R256: at W = 0 the dry input is all that is left. -/
theorem blend_dry (hw : s.wet = f0) (q : Site) : SameUpToZero (blend s q wet x) x := by
  have hgain : fsub s.cfg (4 :: q) f1 f0 = f1 := by
    rw [fsub_ieee h]
    rfl
  rw [blend, hw, hgain, one_fmul h _ hx]
  exact isZero_fadd h _ hx (isZero_fmul h _ hwet (isZero_zeroOf false))

/-- R256: at W = 1 the wet sum is all that is left. -/
theorem blend_wet (hw : s.wet = f1) (q : Site) : SameUpToZero (blend s q wet x) wet := by
  have hgain : fsub s.cfg (4 :: q) f1 f1 = f0 := fsub_self h _ rfl
  rw [blend, hw, hgain, one_fmul h _ hwet]
  exact fadd_isZero h _ hwet (isZero_fmul h _ hx (isZero_zeroOf false))

end Ends

/-- Settles O48: at either end the blend is one operand up to the sign of a zero (`blend_dry`, `blend_wet`), and the output is that
operand attenuated (`mixOut_of_blend`). -/
theorem dryWetBoundary : Obligations.DryWetBoundary := by
  intro s q q' wet x h hatt hwet hx
  have hdry (hw : s.wet = f0) := mixOut_of_blend h hatt hx (blend_dry h hwet hx hw q) q'
  have hfull (hw : s.wet = f1) := mixOut_of_blend h hatt hwet (blend_wet h hwet hx hw q) q'
  exact ⟨fun hw => (hdry hw).1, fun hw => (hfull hw).1, fun hw => (hdry hw).2, fun hw => (hfull hw).2⟩

/-! ### The identity matrix (R257) -/

section Congruence

variable {s u : State} (hcfg : s.cfg = u.cfg)

include hcfg

theorem applyDelay_congr (q : Site) (l : Line) : applyDelay s q l = applyDelay u q l := by rw [applyDelay, applyDelay, hcfg]

variable (hfs : s.fs = u.fs)

include hfs

theorem recomputeFixed_congr (q : Site) (l : Line) : recomputeFixed s q l = recomputeFixed u q l := by
  rw [recomputeFixed, recomputeFixed, hcfg, hfs]

/-- R212: a line follows its delay by the configuration and the sampling frequency alone. -/
theorem followDelay_congr (q : Site) (l : Line) : followDelay s q l = followDelay u q l := by
  rw [followDelay, followDelay, recomputeFixed_congr hcfg hfs, applyDelay_congr hcfg]

/-- R213: so does a ramp step. -/
theorem rampStep_congr (q : Site) (l : Line) : rampStep s q l = rampStep u q l := by
  by_cases hidle : l.dcnt = 0
  · rw [rampStep_idle hidle, rampStep_idle hidle]
  · by_cases hlast : l.dcnt = 1
    · rw [rampStep_last hlast, rampStep_last hlast, followDelay_congr hcfg hfs]
    · have hinner : 2 ≤ l.dcnt := by omega
      rw [rampStep_inner hinner, rampStep_inner hinner, followDelay_congr hcfg hfs, hcfg]

/-- R250, R257: the work of a line reads no register of the engine but the configuration and the sampling frequency. -/
theorem procLine_congr (q : Site) (x : Word) (l : Line) : procLine s q x l = procLine u q x l := by
  rw [procLine, procLine, rampStep_congr hcfg hfs, hcfg]

end Congruence

/-- R192, R254, R257: under the identity matrix an active line is left with its own work and its own filtered output as the next
feedback input. -/
theorem process_getElem?_identity {s : State} (h : s.topo = .identity) (x : Word) {i : Nat} (hi : i < s.n) :
    (process x s).lines[i]? = s.lines[i]?.map fun l =>
      setFbin (procLine s [i, 0, s.epoch] x l) (procLine s [i, 0, s.epoch] x l).fo := by
  have hworked : (workedLines s x)[i]? = s.lines[i]?.map (procLine s [i, 0, s.epoch] x) := by
    rw [workedLines_getElem?, if_pos hi]
  have hfeedback : (nextFeedback s x)[i]? = (s.lines[i]?.map (procLine s [i, 0, s.epoch] x)).map fun l => l.fo := by
    rw [nextFeedback, matApply_identity h, List.getElem?_map, List.getElem?_take_of_lt hi, hworked]
  rw [process_eq, setEach_getElem?, hfeedback, hworked]
  cases s.lines[i]? <;> rfl

/-- Settles O49: line i after the PROC is a function of the line, the input and the epoch (`process_getElem?_identity`), the same in
both engines (`procLine_congr`). -/
theorem identityDecoupling : Obligations.IdentityDecoupling := by
  intro s u s' u' ch ch' x i htopo htopo' hrec hrec' hcfg hfs hepoch hi hi' hline hexec hexec'
  obtain rfl : process x s = s' := by simpa [exec_proc_live hrec] using hexec
  obtain rfl : process x u = u' := by simpa [exec_proc_live hrec'] using hexec'
  rw [process_getElem?_identity htopo x hi, process_getElem?_identity htopo' x hi', hline, hepoch]
  simp only [procLine_congr hcfg hfs]

end Sys2Proof.Machine
end


section
/-! PROOFS. The checks of a command as the conditions of the statements (spec/60_exceptions.md R333 to R335): each check in front of
a command answers with its rejection, or with what the command answers without it. -/

namespace Sys2Proof.Machine

section Checks

variable {s e t : State} {opc : Byte} {checks : List (Bool × Code)}

/-- R118, R332: a completion in the words of the statements. -/
theorem complete_eq (s : State) (opc : Byte) (data : List Word) : complete s opc data = answeredOk s opc data := rfl

/-- R332: the number of a rejection's code, in the words of the statements. -/
theorem raiseCode_eq (s : State) (opc : Byte) {c : Code} (h : c ≠ .ok) : raiseCode s opc c = rejectedAs s opc (codeNumber c).toNat := by
  cases c with
  | ok => exact absurd rfl h
  | illegalCmd | notInit | badParam | outOfRange | primeShort => rfl

theorem command_unchecked : command s opc [] e = .next e := rfl

/-- R333: the first check of a list decides whether the others are run. -/
theorem command_checked {ok : Bool} {c : Code} {p : Prop} [Decidable p] (hp : p ↔ ok = false)
    (h : ¬p → command s opc checks e = .next t) :
    command s opc ((ok, c) :: checks) e = .next (if p then raiseCode s opc c else t) := by
  split
  case isTrue hfail => exact command_rejected (by rw [firstFailure_cons, hp.mp hfail]; rfl)
  case isFalse hpass =>
    have hok : ok = true := Bool.eq_true_of_not_eq_false (hpass ∘ hp.mpr)
    rw [← h hpass, hok]
    rfl

/-- R334: the check of INITED. -/
theorem command_needsInit (h : s.inited = true → command s opc checks e = .next t) :
    command s opc (needsInit s :: checks) e = .next (if s.inited = false then rejectedAs s opc 2 else t) :=
  command_checked Iff.rfl fun hinit => h (Bool.eq_true_of_not_eq_false hinit)

/-- R335: a domain check. -/
theorem command_domain {ok : Bool} {p : Prop} [Decidable p] (hp : p ↔ ok = false) (h : command s opc checks e = .next t) :
    command s opc (domain ok :: checks) e = .next (if p then rejectedAs s opc 3 else t) := command_checked hp fun _ => h

/-- R335: a domain check, by the operands it accepts. -/
theorem command_accepts {ok : Bool} {p : Prop} [Decidable p] (hp : p ↔ ok = true) (h : p → command s opc checks e = .next t) :
    command s opc (domain ok :: checks) e = .next (if p then t else rejectedAs s opc 3) := by
  rw [← ite_not]
  exact command_checked (by rw [hp, Bool.not_eq_true]) fun hpass => h (not_not.mp hpass)

/-- R331: the check of an index. -/
theorem command_indexBelow {i : Byte} (h : i.toNat < s.n → command s opc checks e = .next t) :
    command s opc (indexBelow s i :: checks) e = .next (if s.n ≤ i.toNat then rejectedAs s opc 4 else t) :=
  command_checked (by simp) fun hi => h (not_le.mp hi)

end Checks

end Sys2Proof.Machine
end

section
/-! PROOFS. Delay modulation (spec/47_modulation.md R270 to R272). -/

namespace Sys2Proof.Machine

/-! ### The modulation step (R270, R212) -/

/-- A sum that is not a zero differs from -0.0. -/
theorem ne_negZero_of_not_feq {m : Word} (h : ¬feq m f0 = true) : m ≠ 0x80000000#32 := fun hm => h (hm ▸ rfl)

/-- R141, R212: the delay `ApplyDelay` leaves; under the default numerics a sum in [0, CAP] is kept bit for bit. -/
theorem appliedDelay_cases {c : Cfg} (hcap : c.cap < 2 ^ 24) (q : Site) (sum delay : Word) : appliedDelay c q sum delay =
    if isNaN sum = true ∨ feq sum f0 = true then delay
    else if flt sum f0 = true then f0
    else if flt (u2f c c.cap) sum = true then u2f c c.cap
    else if c.num.ieee = true then sum else fadd c q sum f0 := by
  unfold appliedDelay clampedDelay
  split
  case isTrue => rfl
  case isFalse hsum =>
    obtain ⟨hnan, hzero⟩ := not_or.mp hsum
    rw [if_neg hnan]
    split_ifs with hneg hhigh hieee
    · rfl
    · rfl
    · have hfin := isFinite_of_not_clamped hieee hcap (Bool.eq_false_of_not_eq_true hnan) hneg hhigh
      rw [f0, fadd_zero_right hieee hfin, if_neg (ne_negZero_of_not_feq hzero)]
    · rfl

/-- Settles O31: `ModLine` ends with `ApplyDelay` (`applyDelay_eq`), whose delay is taken apart by `appliedDelay_cases`. -/
theorem modulationStep : Obligations.ModulationStep := by
  intro s q depth rate l hcap
  refine ⟨1 :: q, 0 :: q, 2 :: q, 0 :: 3 :: q, 1 :: 3 :: q, ?_⟩
  rw [modLine, applyDelay_eq, appliedDelay_cases hcap]
  rfl

/-! ### UPDMOD and UPDMODL (R271, R272) -/

/-- R270: a modulation step reads the configuration and FS, no register that UPDMOD writes. -/
theorem modLine_congr (s : State) (d r : Word) (q : Site) (depth rate : Word) (l : Line) :
    modLine { s with modDepth := d, modRate := r } q depth rate l = modLine s q depth rate l := by
  rw [modLine, applyDelay_eq, modLine, applyDelay_eq]

/-- R271: UPDMOD stores the globals and steps every active line. -/
theorem forActive_modLine (s : State) (depth rate : Word) (q : Nat → Site) :
    forActive { s with modDepth := depth, modRate := rate }
        (fun j l => modLine { s with modDepth := depth, modRate := rate } (q j) depth rate l) =
      { s with modDepth := depth, modRate := rate, lines := activeLines s fun j l => modLine s (q j) depth rate l } := by
  rw [forActive_eq]
  simp only [modLine_congr]
  rfl

/-- Settles O32: the checks in their order, and the lines stepped (`forActive_modLine`, `setLine_eq`). -/
theorem modulation : Obligations.Modulation := by
  intro s depth rate i
  have hfinite : isFinite depth = false ∨ isFinite rate = false ↔ (isFinite depth && isFinite rate) = false := by
    rw [Bool.and_eq_false_iff]
  refine ⟨⟨fun j => [j, 0, s.epoch], ?all⟩, [0, s.epoch], ?one⟩
  case all =>
    rw [← forActive_modLine s depth rate fun j => [j, 0, s.epoch]]
    exact command_needsInit fun _ => command_domain hfinite command_unchecked
  case one =>
    rw [← setLine_eq]
    exact command_needsInit fun _ => command_domain hfinite (command_indexBelow fun _ => command_unchecked)

end Sys2Proof.Machine
end

section
/-! PROOFS. The parameter commands (spec/48_param_commands.md R280 to R301): gains, mix, user shelves, feedback matrix and
housekeeping. -/

namespace Sys2Proof.Machine

/-! ### Gains (R280 to R283) -/

/-- R280, R282: a command that changes one line with an operand v: its checks in their order. -/
theorem command_setGain (s : State) (opc i : Byte) (v : Word) (f : Line → Line) :
    command s opc [needsInit s, domain (isFinite v), indexBelow s i] (complete (setLine s i.toNat f) opc []) = .next (
      if s.inited = false then rejectedAs s opc 2
      else if isFinite v = false then rejectedAs s opc 3
      else if s.n ≤ i.toNat then rejectedAs s opc 4
      else answeredOk { s with lines := s.lines.modify i.toNat f } opc []) := by
  rw [← setLine_eq]
  exact command_needsInit fun _ => command_domain Iff.rfl (command_indexBelow fun _ => command_unchecked)

/-- Settles O19: SETB and SETC are one command with two setters (`command_setGain`). -/
theorem setGain : Obligations.SetGain := fun s i v =>
  ⟨command_setGain s 0x10#8 i v fun l => setB l v, command_setGain s 0x12#8 i v fun l => setC l v⟩

/-- R281, R283: a command that gives every active line a value of v: its checks in their order. -/
theorem command_setGains (s : State) (opc : Byte) (v : List Word) (f : Line → Word → Line) :
    command s opc [needsInit s, domain (decide (v.length = s.n)), domain (v.all isFinite)]
        (complete { s with lines := setEach f v s.lines } opc []) = .next (
      if s.inited = false then rejectedAs s opc 2
      else if v.length ≠ s.n then rejectedAs s opc 3
      else if v.all isFinite = true then answeredOk { s with lines := givenLines s f v } opc []
      else rejectedAs s opc 3) := by
  have hgiven : setEach f v s.lines = givenLines s f v := setEach_eq_mapIdx f v s.lines
  rw [hgiven]
  exact command_needsInit fun _ => command_domain decide_eq_false_iff_not.symm (command_accepts Iff.rfl fun _ => command_unchecked)

/-- Settles O20: SETBS and SETCS are one command with two setters (`command_setGains`). -/
theorem setGains : Obligations.SetGains := fun s v =>
  ⟨command_setGains s 0x11#8 v setB, command_setGains s 0x13#8 v setC⟩

/-! ### Mix (R288) -/

/-- R288: what is stored of a finite fraction. -/
theorem fadd_fraction {c : Cfg} {w : Word} (hw : isFinite w = true) (q : Site) : fadd c q w f0 =
    if c.num.ieee = false then fadd c q w f0 else if w = 0x80000000#32 then f0 else w := by
  split
  case isTrue => rfl
  case isFalse hnum => exact fadd_zero_right (Bool.eq_true_of_not_eq_false hnum) hw

/-- Settles O21: the checks in their order, and the fraction stored (`fadd_fraction`). -/
theorem setMix : Obligations.SetMix := by
  intro s w
  have hfraction : isFinite w = true ∧ fle f0 w = true ∧ fle w f1 = true ↔ (isFinite w && fle f0 w && fle w f1) = true := by
    simp only [Bool.and_eq_true, and_assoc]
  refine ⟨[0, s.epoch], command_needsInit fun _ => command_accepts hfraction fun hw => ?_⟩
  rw [fadd_fraction hw.1]
  rfl

/-! ### User shelves (R290, R291, R165) -/

/-- R290, R291: the checks of SETLS and SETHS accept the operands of the statement. -/
theorem passes_shelfChecks {s : State} {t f : Word} :
    Passes (shelfChecks s t f) ↔ s.inited = true ∧ shelfAccepted s.cfg t f s.fs := by
  simp only [Passes, shelfChecks, firstFailure_none_iff, List.forall_mem_cons, List.not_mem_nil, false_implies, implies_true,
    and_true, needsInit_fst, domain_fst, positive, Bool.and_eq_true, flt_fmul_site s.cfg [0, s.epoch] [], shelfAccepted, and_assoc]

/-- R290, R291: an initialised engine rejects any other operands with `BadParam`. -/
theorem command_shelf_rejected {s e : State} {t f : Word} (opc : Byte) (hinit : s.inited = true)
    (hbad : ¬shelfAccepted s.cfg t f s.fs) : command s opc (shelfChecks s t f) e = .next (rejectedAs s opc 3) := by
  rw [shelfChecks, command_of_inited hinit]
  refine command_badParam (by simp) fun hpass => hbad (passes_shelfChecks.mp ?_).2
  rw [Passes, shelfChecks, needsInit, hinit]
  exact hpass

/-- R165: the loop over the active lines recomputes the user shelves whose parameters are valid, from each line's table entry. -/
theorem recomputeActive_eq (s : State) (q : Site) : recomputeActive s q = { s with
    lines := activeLines s fun i l => { l with
      ls := if s.lsValid then setCoeffs (shelfLow s.cfg (0 :: i :: q) s.lsT s.lsF (u2f s.cfg l.len) s.fs) l.ls else l.ls
      hs := if s.hsValid then setCoeffs (shelfHigh s.cfg (1 :: i :: q) s.hsT s.hsF (u2f s.cfg l.len) s.fs) l.hs else l.hs } } := by
  rw [recomputeActive, forActive_eq]
  simp only [recomputeUser_writes]
  rfl

/-- Settles O22: the checks (`passes_shelfChecks`), and the shelves recomputed with the new parameters (`recomputeActive_eq`). -/
theorem setShelf : Obligations.SetShelf := by
  intro s t f
  refine ⟨fun hinit => ⟨command_notInit hinit, command_notInit hinit⟩, fun hinit hbad => ?rejected, fun hinit hok => ?accepted⟩
  case rejected => exact ⟨command_shelf_rejected _ hinit hbad, command_shelf_rejected _ hinit hbad⟩
  case accepted =>
    have hpass := passes_shelfChecks.mpr ⟨hinit, hok⟩
    refine ⟨fun i => [0, i, 1, s.epoch], fun i => [1, i, 1, s.epoch], (command_accepted hpass).trans ?_,
      (command_accepted hpass).trans ?_⟩
    all_goals rw [complete_eq, recomputeActive_eq]; rfl

/-! ### Topology (R294) -/

/-- Settles O23, by the value of the selector. -/
theorem setTopology : Obligations.SetTopology := by
  intro s selector
  have hcheck : exec (.settopo selector) s = .next (
      if s.inited = false then rejectedAs s 0x0B#8 2
      else if selectorOk selector = true then answeredOk { s with topo := topologyOf selector } 0x0B#8 []
      else rejectedAs s 0x0B#8 3) := command_needsInit fun _ => command_accepts Iff.rfl fun _ => command_unchecked
  rw [hcheck]
  by_cases h0 : selector = 0#8
  · subst h0
    rfl
  by_cases h1 : selector = 1#8
  · subst h1
    rfl
  have hbad : selectorOk selector ≠ true := by
    simp only [selectorOk, ne_eq, decide_eq_true_eq]
    bv_omega
  rw [if_neg hbad, if_neg h0, if_neg h1]

/-! ### Matrix cells (R295, R296, R82) -/

/-- Settles O24: the checks in their order, and a read after the write of one word (`memRead_memWrite`). -/
theorem setCell : Obligations.SetCell := by
  intro s r c v hwf
  have hcheck (hinit : s.inited = true) : exec (.setcell r c v) s = .next (
      if isFinite v = false then rejectedAs s 0x14#8 3
      else if s.n ≤ r.toNat then rejectedAs s 0x14#8 4
      else if s.n ≤ c.toNat then rejectedAs s 0x14#8 4
      else answeredOk (writeCell s r.toNat c.toNat v) 0x14#8 []) :=
    (command_of_inited hinit).trans <| command_domain Iff.rfl <| command_indexBelow fun _ => command_indexBelow fun _ => command_unchecked
  refine ⟨fun hinit => command_notInit hinit, fun hinit hv => ?badParam, fun hinit hv hrange => ?outOfRange,
    fun hinit hv hr hc => ?accepted⟩
  case badParam => rw [hcheck hinit, if_pos hv]
  case outOfRange =>
    rw [hcheck hinit, if_neg (by simp [hv]), ← ite_or, if_pos hrange]
  case accepted =>
    rw [hcheck hinit, if_neg (by simp [hv]), if_neg (not_le.mpr hr), if_neg (not_le.mpr hc)]
    refine ⟨memWrite s.cm (r.toNat * s.cfg.nmax + c.toNat) v, rfl, fun k => ?_⟩
    rw [memRead_memWrite (memWf_rising hwf)]
    exact if_congr eq_comm rfl rfl

/-- R18: a write keeps the listed indices rising. -/
theorem risingFrom_memWrite {m : Mem} (h : risingFrom none m.cells = true) (k : Nat) (v : Word) :
    risingFrom none (memWrite m k v).cells = true := by
  unfold memWrite
  split
  · exact risingFrom_eraseCell h
  · exact risingFrom_insertCell h (by simp)

/-- R82: the word index of a cell tells its row and its column. -/
theorem cellIndex_inj {nmax r c r' c' : Nat} (hc : c < nmax) (hc' : c' < nmax) :
    r * nmax + c = r' * nmax + c' ↔ r = r' ∧ c = c' := by
  refine ⟨fun h => ?_, fun ⟨hr, hc⟩ => by rw [hr, hc]⟩
  have hdiv (r : Nat) {c : Nat} (hc : c < nmax) : (r * nmax + c) / nmax = r := by
    rw [Nat.mul_comm, Nat.mul_add_div (by omega), Nat.div_eq_of_lt hc, Nat.add_zero]
  obtain rfl : r = r' := by rw [← hdiv r hc, h, hdiv r' hc']
  exact ⟨rfl, by omega⟩

/-- R82: flat index k of an order n stands for row k div n and column k mod n. -/
theorem flatIndex_iff {n k r c : Nat} (hn : 0 < n) : k / n = r ∧ k % n = c ↔ c < n ∧ k = r * n + c := by
  rw [Nat.div_mod_unique hn]
  constructor
  · rintro ⟨rfl, hc⟩
    exact ⟨hc, by rw [Nat.mul_comm, Nat.add_comm]⟩
  · rintro ⟨hc, rfl⟩
    exact ⟨by rw [Nat.mul_comm, Nat.add_comm], hc⟩

/-- R296: the cells of the flat indices k to k + |vs| - 1 read the words of vs, every other cell reads as before. -/
theorem memRead_writeCells {n : Nat} (hn : 0 < n) (vs : List Word) (k : Nat) (s : State) (hmax : n ≤ s.cfg.nmax)
    (hrise : risingFrom none s.cm.cells = true) (r c : Nat) (hc : c < s.cfg.nmax) :
    memRead (writeCells n k vs s).cm (r * s.cfg.nmax + c) =
      if c < n ∧ k ≤ r * n + c ∧ r * n + c < k + vs.length then vs.getD (r * n + c - k) 0#32
      else memRead s.cm (r * s.cfg.nmax + c) := by
  induction vs generalizing k s with
  | nil => exact (if_neg (by rw [List.length_nil]; omega)).symm
  | cons v vs ih =>
    have hcolumn : k % n < s.cfg.nmax := (Nat.mod_lt k hn).trans_le hmax
    have hcell : k / n * s.cfg.nmax + k % n = r * s.cfg.nmax + c ↔ c < n ∧ k = r * n + c := by
      rw [cellIndex_inj hcolumn hc, flatIndex_iff hn]
    have hstep := ih (k + 1) (writeCell s (k / n) (k % n) v) hmax (risingFrom_memWrite hrise _ _) hc
    rw [writeCells]
    refine hstep.trans ?_
    simp only [writeCell_cm, writeCell_cfg, memRead_memWrite hrise, hcell, List.length_cons]
    by_cases hhead : c < n ∧ k = r * n + c
    · obtain ⟨hcn, rfl⟩ := hhead
      rw [if_neg (by omega), if_pos ⟨hcn, rfl⟩, if_pos (by omega), Nat.sub_self, List.getD_cons_zero]
    · rw [if_neg hhead]
      refine if_ctx_congr (by omega) (fun hin => ?_) fun _ => rfl
      rw [show r * n + c - k = r * n + c - (k + 1) + 1 by omega, List.getD_cons_succ]

/-- R296: a payload of N*N words fills the N by N corner of the matrix store. -/
theorem memRead_writeCells_corner {s : State} {m : List Word} (hmax : s.n ≤ s.cfg.nmax)
    (hrise : risingFrom none s.cm.cells = true) (hlen : m.length = s.n * s.n) {r c : Nat} (hc : c < s.cfg.nmax) :
    memRead (writeCells s.n 0 m s).cm (r * s.cfg.nmax + c) =
      if r < s.n ∧ c < s.n then m.getD (r * s.n + c) 0#32 else memRead s.cm (r * s.cfg.nmax + c) := by
  rcases Nat.eq_zero_or_pos s.n with h0 | hpos
  · obtain rfl : m = [] := List.length_eq_zero_iff.mp (by rw [hlen, h0])
    exact (if_neg (by omega)).symm
  · rw [memRead_writeCells hpos m 0 s hmax hrise r c hc]
    refine if_ctx_congr ?_ (fun _ => rfl) fun _ => rfl
    rw [hlen]
    constructor
    · rintro ⟨hcn, -, hlt⟩
      have hrow : r * s.n < s.n * s.n := by omega
      exact ⟨Nat.lt_of_mul_lt_mul_right hrow, hcn⟩
    · rintro ⟨hrn, hcn⟩
      have hcell := cell_lt hrn hcn le_rfl
      omega

/-- Settles O25: the checks in their order, and the corner written (`memRead_writeCells_corner`). -/
theorem setMatrix : Obligations.SetMatrix := by
  intro s m hmax hwf
  have hpass : Passes [domain (decide (m.length = s.n * s.n)), domain (m.all isFinite)] ↔
      m.length = s.n * s.n ∧ ∀ x ∈ m, isFinite x = true := by
    simp [Passes, firstFailure_none_iff]
  have hexec (hinit : s.inited = true) : exec (.setmat m) s =
      command s 0x15#8 [domain (decide (m.length = s.n * s.n)), domain (m.all isFinite)]
        (answeredOk (writeCells s.n 0 m s) 0x15#8 []) := command_of_inited hinit
  refine ⟨fun hinit => command_notInit hinit, fun hinit hbad => ?rejected, fun hinit hlen hok => ?accepted⟩
  case rejected =>
    rw [hexec hinit]
    refine command_badParam (by simp) fun hp => ?_
    obtain ⟨hlen, hok⟩ := hpass.mp hp
    rcases hbad with hbad | ⟨x, hx, hbad⟩
    · exact hbad hlen
    · exact absurd (hok x hx) (by simp [hbad])
  case accepted =>
    obtain ⟨cm', hwrites⟩ := writeCells_writes s.n 0 m s
    refine ⟨cm', ?_, fun r c _ hc => ?_⟩
    · rw [hexec hinit, command_accepted (hpass.mpr ⟨hlen, hok⟩), hwrites]
    · rw [← memRead_writeCells_corner hmax (memWf_rising hwf) hlen hc, hwrites]

/-! ### Housekeeping (R300, R301) -/

/-- Settles O26: both commands complete without a check. -/
theorem nopAndClrerr : Obligations.NopAndClrerr := fun _ => ⟨rfl, rfl⟩

end Sys2Proof.Machine
end

section
/-! PROOFS. The read-back commands (spec/49_readback.md R310 to R317): one gain, the vectors in line order, the effective matrix and
the STATUS view (spec/10_state.md R35). -/

namespace Sys2Proof.Machine

/-! ### Gains and the table (R311 to R315) -/

/-- R311, R313: a command that answers one value of line i: its checks in their order, and the value of the active line at i. -/
theorem command_getLine {s : State} (hn : s.n ≤ s.lines.length) (opc i : Byte) (f : Line → Word) :
    command s opc [needsInit s, indexBelow s i] (complete s opc [f (lineAt s i.toNat)]) = .next (
      if s.inited = false then rejectedAs s opc 2
      else match (s.lines.take s.n)[i.toNat]? with
        | none => rejectedAs s opc 4
        | some l => answeredOk s opc [f l]) := by
  refine command_needsInit fun _ => ?_
  rcases Nat.lt_or_ge i.toNat s.n with hi | hi
  · have hline : (s.lines.take s.n)[i.toNat]? = some (lineAt s i.toNat) := by
      rw [List.getElem?_take_of_lt hi, lineAt, List.getElem?_eq_getElem (hi.trans_le hn), Option.getD_some]
    rw [hline]
    exact command_accepted (by simp [indexBelow, hi])
  · rw [List.getElem?_take_eq_none hi]
    exact command_rejected (c := .outOfRange) (by simp [indexBelow, hi])

/-- Settles O28: GETB and GETC are one command with two values (`command_getLine`). -/
theorem getGain : Obligations.GetGain := by
  intro s i hn
  refine ⟨(command_getLine hn 0x20#8 i (·.b)).trans ?_, (command_getLine hn 0x22#8 i (·.c)).trans ?_⟩ <;> rfl

/-- R310: a snapshot has one word for each active line. -/
theorem length_snapshot {s : State} (hn : s.n ≤ s.lines.length) (f : Line → Word) : (snapshot s f).length = s.n := by
  rw [snapshot, List.length_map, List.length_take, min_eq_left hn]

/-- R310: word j of a snapshot is that of line j. -/
theorem snapshot_getElem? {s : State} {j : Nat} {l : Line} (hj : j < s.n) (hl : s.lines[j]? = some l) (f : Line → Word) :
    (snapshot s f)[j]? = some (f l) := by
  rw [snapshot, List.getElem?_map, List.getElem?_take_of_lt hj, hl, Option.map_some]

/-- R334: an initialised engine answers a command that has no check but that of INITED. -/
theorem command_inited_only {s e : State} (h : s.inited = true) (opc : Byte) : command s opc [needsInit s] e = .next e :=
  command_of_inited h

/-- Settles O29: the three commands answer a snapshot each (`length_snapshot`, `snapshot_getElem?`). -/
theorem getVectors : Obligations.GetVectors := by
  refine fun s hn => ⟨fun hinit => ⟨command_notInit hinit, command_notInit hinit, command_notInit hinit⟩, fun hinit => ?_⟩
  exact ⟨snapshot s (·.b), snapshot s (·.c), snapshot s fun l => BitVec.ofNat 32 l.len, command_inited_only hinit _,
    command_inited_only hinit _, command_inited_only hinit _, length_snapshot hn _, length_snapshot hn _, length_snapshot hn _,
    fun j hj l hl => ⟨snapshot_getElem? hj hl _, snapshot_getElem? hj hl _, snapshot_getElem? hj hl _⟩⟩

/-! ### The effective matrix (R316, R191) -/

/-- R191: the effective matrix by topology. -/
theorem meff_eq (s : State) (r c : Nat) : meff s r c =
    if s.topo = .custom then memRead s.cm (r * s.cfg.nmax + c) else if r = c then f1 else f0 := by
  unfold meff
  cases s.topo <;> rfl

/-- R82, R316: word r*N + c of the flattened matrix is the effective cell (r, c). -/
theorem flatMatrix_getElem? {s : State} {r c : Nat} (hr : r < s.n) (hc : c < s.n) :
    (flatMatrix s)[r * s.n + c]? = some (meff s r c) := by
  obtain ⟨hrow, hcolumn⟩ := (flatIndex_iff (k := r * s.n + c) (Nat.zero_lt_of_lt hr)).mpr ⟨hc, rfl⟩
  rw [flatMatrix, List.getElem?_map, List.getElem?_range (cell_lt hr hc le_rfl), Option.map_some, hrow, hcolumn]

/-- Settles O30: the check of INITED, and the words of the flattened matrix (`flatMatrix_getElem?`, `meff_eq`). -/
theorem getMatrix : Obligations.GetMatrix := by
  refine fun s => ⟨fun hinit => command_notInit hinit, fun hinit => ?_⟩
  refine ⟨flatMatrix s, command_inited_only hinit _, length_flatMatrix s, fun r hr c hc => ?_⟩
  rw [flatMatrix_getElem? hr hc, meff_eq]
  rfl

/-! ### The STATUS view (R317, R35) -/

/-- R35: the fields of the STATUS view at their bits. -/
structure StatusFields (s : State) (st : Word) : Prop where
  inited : st.getLsbD 0 = s.inited
  reconf : st.getLsbD 1 = s.reconf
  topo : st.extractLsb' 2 1 = topologyBit s.topo
  lsValid : st.getLsbD 3 = s.lsValid
  hsValid : st.getLsbD 4 = s.hsValid
  zero5 : st.extractLsb' 5 3 = 0#3
  order : st.extractLsb' 8 6 = BitVec.ofNat 6 s.n
  zero14 : st.extractLsb' 14 2 = 0#2
  err : st.extractLsb' 16 5 = s.err
  zero21 : st.extractLsb' 21 3 = 0#3
  lastErr : st.extractLsb' 24 8 = s.lastErr

/-- R35: each field of the concatenation lies above the fields after it. -/
theorem statusFields_statusWord (s : State) : StatusFields s (statusWord s) := by
  unfold statusWord
  constructor
  case inited | reconf | lsValid | hsValid =>
    simp only [BitVec.getLsbD_append]
    simp
  case topo | zero5 | order | zero14 | err | zero21 =>
    repeat rw [BitVec.extractLsb'_append_eq_of_le (by omega)]
    exact BitVec.extractLsb'_append_eq_right
  case lastErr =>
    repeat rw [BitVec.extractLsb'_append_eq_of_le (by omega)]
    exact BitVec.extractLsb'_eq_self

/-- R32: the bit of the topology is set exactly for CUSTOM. -/
theorem topologyBit_iff {st : Word} {t : Topology} (h : st.extractLsb' 2 1 = topologyBit t) : st.getLsbD 2 = true ↔ t = .custom := by
  have hbit : st.getLsbD 2 = (topologyBit t).getLsbD 0 := by
    rw [← h, BitVec.getLsbD_extractLsb']
    rfl
  rw [hbit]
  cases t <;> decide

/-- R118, R317: the response header of GETSTAT. -/
theorem responseHeader_getstat : responseHeader 0x26#8 1 .ok = 0x26001000#32 := by decide

/-- R317: GETSTAT appends its header and the STATUS view, and writes nothing else. -/
theorem exec_getstat (s : State) : exec .getstat s = .next { s with rspq := s.rspq ++ [0x26001000#32, statusWord s] } := by
  rw [← responseHeader_getstat]
  rfl

/-- Settles O27: the one data word is the STATUS view (`statusFields_statusWord`); an order up to 63 fills its six bits. -/
theorem getStatus : Obligations.GetStatus := by
  intro s hn
  have fields := statusFields_statusWord s
  have horder : ((statusWord s).extractLsb' 8 6).toNat = s.n := by
    rw [fields.order, BitVec.toNat_ofNat]
    exact Nat.mod_eq_of_lt (by omega)
  exact ⟨statusWord s, exec_getstat s, fields.inited, fields.reconf, topologyBit_iff fields.topo, fields.lsValid, fields.hsValid,
    fields.zero5, horder, fields.zero14, fields.err, fields.zero21, fields.lastErr⟩

end Sys2Proof.Machine
end

section
/-! PROOFS. Rejections and error flags (spec/60_exceptions.md R331 to R334, R340; spec/00_scope.md R21): which code a command can be
rejected with, and what the effect of an operation leaves in ERR and LASTERR. -/

namespace Sys2Proof.Machine

/-! ### Commands before INIT (R334) -/

/-- R334: the commands that are always answered, with code 0. -/
theorem exec_always_answered {i : Instr} (h : i = .nop ∨ i = .getstat ∨ i = .clrerr) (s : State) : ∃ t data,
    exec i s = .next t ∧ t.rspq = s.rspq ++ (opcodeOf i ++ BitVec.ofNat 12 data.length ++ 0#12) :: data := by
  rcases h with rfl | rfl | rfl
  · exact ⟨_, [], rfl, rfl⟩
  · have hheader : 0x26001000#32 = 0x26#8 ++ 1#12 ++ 0#12 := by decide
    exact ⟨_, [statusWord s], exec_getstat s, congrArg (fun header => s.rspq ++ [header, statusWord s]) hheader⟩
  · exact ⟨_, [], rfl, rfl⟩

/-- Settles O12: the check of INITED (`exec_notInit`), and the writers of INITED in the register table (`exec_globalWrites`). -/
theorem commandsNeedInit : Obligations.CommandsNeedInit := by
  refine ⟨fun i s hneeds hinit hrun => exec_notInit hneeds (by simp [hrun]) hinit, fun i s h => exec_always_answered h s,
    fun i s t hinit h => ?kept⟩
  case kept =>
    by_contra hcleared
    have hchanged : t.inited ≠ s.inited := fun heq => hcleared (heq.trans hinit)
    exact hcleared ((exec_globalWrites h).inited hchanged).2

/-! ### What an effect leaves in ERR and LASTERR (R331, R332) -/

/-- R331, R332: what the effect of an operation that takes s to t can leave in ERR and LASTERR. -/
inductive ErrorEffect (i : Instr) (s t : State) : Prop
  | kept (hquiet : i = .getstat ∨ (∃ ch x, i = .proc ch x) ∨ t.running = some i) (herr : t.err = s.err)
      (hlast : t.lastErr = s.lastErr)
  | completed (herr : t.err = s.err) (hlast : t.lastErr = 0#8)
  | cleared (hclrerr : i = .clrerr) (herr : t.err = 0#5) (hlast : t.lastErr = 0#8)
  | primeShort (herr : t.err = s.err ||| errFlag .primeShort) (hlast : t.lastErr = codeNumber .primeShort)

/-- R21: a command that may flag `PrimeShort`. -/
theorem errorEffect_completeSearch {i : Instr} {s u : State} {opc : Byte} {short : Bool} (hu : u.err = s.err := by rfl) :
    ErrorEffect i s (completeSearch u opc short) := by
  cases short
  · exact .completed hu rfl
  · exact .primeShort (congrArg (· ||| errFlag .primeShort) hu) rfl

/-- R200, R205: a phase that is not the last of its command leaves both registers. -/
theorem phase_errorEffect {i : Instr} {s t : State} (h : Phase i s t) : ErrorEffect i s t := by
  cases h with
  | initBegin | updordBegin => exact .kept (.inr (.inr rfl)) rfl rfl
  | initBody _ _ _ _ _ hr | updordClear _ _ _ hr | updordDraw _ _ _ hr | updordSearch _ _ _ hr | updordSeed _ _ _ hr
  | updordTopology _ _ _ hr => exact .kept (.inr (.inr hr)) rfl rfl
  | initEnd | updordEnd => exact errorEffect_completeSearch

theorem effect_errorEffect {i : Instr} {s t : State} (h : Effect i s t) : ErrorEffect i s t := by
  cases h with
  | phase h => exact phase_errorEffect h
  | getstat => exact .kept (.inl rfl) rfl rfl
  | procSilent ch x | proc ch x => exact .kept (.inr (.inl ⟨ch, x, rfl⟩)) rfl rfl
  | clrerr => exact .cleared rfl rfl rfl
  | upddly ms =>
    obtain ⟨ls, short, he⟩ := updateDelay_writes ms s
    rw [he]
    exact errorEffect_completeSearch
  | setmat m =>
    obtain ⟨cm, he⟩ := writeCells_writes s.n 0 m s
    rw [he]
    exact .completed rfl rfl
  | nop | getb | getbs | getc | getcs | getdlys | getmat | setb | setbs | setc | setcs | setmix | settopo | setcell | setls | seths
  | updmod | updmodl | setdly | setdlys => exact .completed rfl rfl

/-- Settles O13: a rejection is one by its code (`raiseCode_eq`); an effect that ends its command leaves LASTERR at 0 or 5
(`effect_errorEffect`). -/
theorem rejectionIsAtomic : Obligations.RejectionIsAtomic := by
  intro i s t hproc hstat _ h hended hcode
  cases exec_cases h with
  | rejected c =>
    have hc : c ≠ .ok := fun hok => by
      subst hok
      exact absurd hcode (by simp [codeNumber])
    exact raiseCode_eq s _ hc
  | accepted he =>
    cases effect_errorEffect he with
    | kept hquiet =>
      rcases hquiet with hi | ⟨ch, x, hi⟩ | hrun
      · exact absurd hi hstat
      · exact absurd hi (hproc ch x)
      · rw [hended] at hrun
        exact absurd hrun (by simp)
    | completed _ hlast | cleared _ _ hlast | primeShort _ hlast =>
      rw [hlast] at hcode
      exact absurd hcode (by decide)

/-! ### The codes of a rejection (R333, R335) -/

/-- R335: a check of a command rejects with one of three codes. -/
def isCheckCode : Code → Bool
  | .notInit | .badParam | .outOfRange => true
  | .ok | .illegalCmd | .primeShort => false

/-- R21, R335: from s to t the command was rejected with one of these codes. -/
def RejectedByCheck (i : Instr) (s t : State) : Prop := ∃ c, isCheckCode c = true ∧ t = raiseCode s (opcodeOf i) c

/-- R200, R205: an INIT or UPDORD under way runs a phase. -/
theorem exec_phase {i : Instr} {s t : State} (hrun : s.running = some i) (hi : opcodeOf i ∈ [0x01#8, 0x02#8])
    (h : exec i s = .next t) : Phase i s t := by
  cases i with
  | init =>
    rw [execInit_of_running hrun] at h
    cases h
    split
    case isTrue hp => exact .initBody _ _ _ _ _ hrun hp
    case isFalse hp => exact .initEnd _ _ _ _ _ hrun hp
  | updord =>
    rw [execUpdord_of_running hrun] at h
    cases h
    exact phase_updordPhase hrun _
  | _ => simp [opcodeOf] at hi

/-- R251, R300, R301, R317: the operations without a check have their effect. -/
theorem effect_of_unchecked {i : Instr} {s t : State} (hi : opcodeOf i ∈ [0x00#8, 0x26#8, 0x27#8, 0xFF#8])
    (h : exec i s = .next t) : Effect i s t := by
  cases i with
  | nop => cases h; exact .nop s
  | clrerr => cases h; exact .clrerr s
  | getstat => cases h; exact .getstat s
  | proc =>
    cases exec_cases h with
    | rejected _ hopc => simp [opcodeOf] at hopc
    | accepted he => exact he
  | _ => simp [opcodeOf] at hi

/-- R333: the operations that run checks, the codes of their checks, and their effect once the checks have passed. -/
theorem exec_checks {i : Instr} {s : State} (hi : opcodeOf i ∉ [0x00#8, 0x26#8, 0x27#8, 0xFF#8])
    (hrun : opcodeOf i ∈ [0x01#8, 0x02#8] → s.running ≠ some i) : ∃ checks e,
      (∀ k ∈ checks, isCheckCode k.2 = true) ∧ (Passes checks → Effect i s e) ∧ exec i s = command s (opcodeOf i) checks e := by
  cases i with
  | nop | getstat | clrerr | proc => simp [opcodeOf] at hi
  | init order fs lowMs highMs =>
    exact ⟨_, _, by simp [initChecks, isCheckCode], fun hp => .phase (.initBegin order fs lowMs highMs s hp),
      if_neg (hrun (by simp [opcodeOf]))⟩
  | updord o sel =>
    exact ⟨_, _, by simp [isCheckCode], fun hp => .phase (.updordBegin o sel s hp), if_neg (hrun (by simp [opcodeOf]))⟩
  | setls t f => exact ⟨_, _, by simp [shelfChecks, isCheckCode], .setls t f s, rfl⟩
  | seths t f => exact ⟨_, _, by simp [shelfChecks, isCheckCode], .seths t f s, rfl⟩
  | upddly _ | setdly _ _ | setdlys _ | updmod _ _ | updmodl _ _ _ | setmix _ | settopo _ | setb _ _ | setbs _ | setc _ _ | setcs _
  | setcell _ _ _ | setmat _ | getb _ | getbs | getc _ | getcs | getdlys | getmat =>
    exact ⟨_, _, by simp [isCheckCode], fun hp => by constructor; exact hp, rfl⟩

/-- What every operation can do, with the codes of a rejection. -/
theorem exec_code_cases {i : Instr} {s t : State} (h : exec i s = .next t) : RejectedByCheck i s t ∨ Effect i s t := by
  by_cases hi : opcodeOf i ∈ [0x00#8, 0x26#8, 0x27#8, 0xFF#8]
  · exact .inr (effect_of_unchecked hi h)
  by_cases hrun : opcodeOf i ∈ [0x01#8, 0x02#8] ∧ s.running = some i
  · obtain ⟨hopc, hrun⟩ := hrun
    exact .inr (.phase (exec_phase hrun hopc h))
  obtain ⟨checks, e, hcodes, heffect, hexec⟩ := exec_checks hi (not_and.mp hrun)
  rw [hexec] at h
  rcases command_next h with ⟨c, hc, ht⟩ | ⟨hpass, rfl⟩
  · exact .inl ⟨c, hcodes _ (firstFailure_mem hc), ht⟩
  · exact .inr (heffect hpass)

/-- Settles O14: the bit of a check's code, or what an effect leaves (`effect_errorEffect`). -/
theorem errorFlagsSticky : Obligations.ErrorFlagsSticky := by
  intro i s t h
  rcases exec_code_cases h with ⟨c, hc, rfl⟩ | he
  · cases c with
    | ok | illegalCmd | primeShort => exact absurd hc (by decide)
    | notInit => exact .inr (.inr ⟨2, by decide, by decide, rfl, rfl⟩)
    | badParam => exact .inr (.inr ⟨3, by decide, by decide, rfl, rfl⟩)
    | outOfRange => exact .inr (.inr ⟨4, by decide, by decide, rfl, rfl⟩)
  · cases effect_errorEffect he with
    | kept _ herr hlast => exact .inl ⟨herr, .inl hlast⟩
    | completed herr hlast => exact .inl ⟨herr, .inr hlast⟩
    | cleared hi herr hlast => exact .inr (.inl ⟨hi, herr, hlast⟩)
    | primeShort herr hlast => exact .inr (.inr ⟨5, by decide, by decide, herr, hlast⟩)

end Sys2Proof.Machine
end
